-- ==== Sys2Proof/Word.lean ====
section
/-! DEFINITION. The hardware word of the refresh engine (rules R8, R10, R16, R100): a `WORD_W`-bit unsigned
value, bit 0 the least significant, bit `i` standing for line `i`. -/

namespace Sys2Proof

/-- A hardware word: the levels of all lines at once (rules R10, R16). Its width is a parameter (rule R8, D3,
`Config.wordW`), so a word is a natural number below `2 ^ WORD_W`: the decoder refuses a wider operand, every
admitted configuration has masks that fit, and the invariant says that every register and cell fits. DESIGN
CHOICE, log entry 2. -/
abbrev Word := Nat

/-- `bit(i)`, the word `1 << i` (rule R10). -/
def bit (i : Nat) : Word := 2 ^ i

/-- The value is a word of `w` bits (rule R10). -/
def wordFits (w : Nat) (v : Word) : Bool := decide (v < 2 ^ w)

end Sys2Proof
end

