-- ==== Sys2Proof/Config.lean ====
section
/-! DEFINITION. The parameters of an implementation (rules R6, R8, R9, R112), the two configurations the
spec's vectors use, and the values that no source gives, as constants without a body. -/

namespace Sys2Proof

/-- A colour channel of format `COLOR` (rule R109). -/
inductive Channel where
  | red
  | green
  | blue
  deriving DecidableEq, Repr

/-- `CHANNEL_MAP` (rule R112): which channel feeds the `R`, the `G` and the `B` field of a sub-row, the
same for both sub-rows. -/
structure ChannelMap where
  toR : Channel
  toG : Channel
  toB : Channel
  deriving DecidableEq, Repr

/-- The identity map of rule R112. -/
def ChannelMap.identity : ChannelMap := ⟨.red, .green, .blue⟩

/-- The other map the document attests (rule R112): green and blue exchanged. -/
def ChannelMap.greenBlueSwapped : ChannelMap := ⟨.red, .blue, .green⟩

/-- The parameters of the block, fixed before reset (rules R6, R8, R9). The fields carry the spec's short
names; the test vectors' values stand in `Config.ex64` and `Config.t2`, and no rule depends on them. -/
structure Config where
  /-- `Width`: logical pixel columns `SETPIXEL` accepts (rule R6). -/
  W : Nat
  /-- `Height`: logical pixel rows `SETPIXEL` accepts (rule R6). -/
  H : Nat
  /-- `RowsPerSubPanel`: number of row addresses scanned (rule R6). -/
  R : Nat
  /-- `ColsPerSubPanel` (rule R6). -/
  colsPerSubPanel : Nat
  /-- `ChainedBoardsCnt` (rule R6). -/
  chainedBoardsCnt : Nat
  /-- `PwmBits`: number of bit-planes (rule R6). -/
  P : Nat
  /-- `WORD_W`: width of a hardware word in bits (rule R8, D3). -/
  wordW : Nat
  /-- The lines (rule R8): output-enable, clock, latch. -/
  oeBit : Nat
  clkBit : Nat
  latBit : Nat
  /-- The lowest of the four contiguous row-address lines (rules R8, R104). -/
  rowLsb : Nat
  /-- The colour lines of sub-row 1 and of sub-row 2 (rule R8). -/
  r1Bit : Nat
  g1Bit : Nat
  b1Bit : Nat
  r2Bit : Nat
  g2Bit : Nat
  b2Bit : Nat
  /-- `AVAILABLE_MASK` (rule R8). -/
  availableMask : Word
  /-- `CHANNEL_MAP` (rules R8, R112). -/
  channelMap : ChannelMap
  /-- `ROW_CLOCK_TIME`, the `T` of the dwell table (rule R9). -/
  rowClockTime : Nat
  /-- `STABILIZE_NS` (rule R9). -/
  stabilizeNs : Nat
  /-- `DELAY_THRESHOLD_NS` (rule R9). -/
  delayThresholdNs : Nat
  /-- `SLEEP_OVERSHOOT_NS` (rule R9). -/
  sleepOvershootNs : Nat
  /-- Whether `DELAY` goes on in `FAILED`. Of this the spec says two things: rules R140 and R261 with D32 and U3
  refuse every command after a failed `INIT`, the table of rule R240 allows this one. DESIGN CHOICE, log entry
  25: a parameter, so that the model covers both. -/
  delayWhenFailed : Bool
  deriving DecidableEq, Repr

namespace Config

/-- `ColumnCnt = ColsPerSubPanel * ChainedBoardsCnt` (rules R6, R7 (e)). -/
def C (c : Config) : Nat := c.colsPerSubPanel * c.chainedBoardsCnt

/-- The six colour lines, in the order of rule R101. -/
def colorLines (c : Config) : List Nat := [c.r1Bit, c.g1Bit, c.b1Bit, c.r2Bit, c.g2Bit, c.b2Bit]

/-- The four row-address lines, least significant first (rule R104). -/
def rowLines (c : Config) : List Nat := [c.rowLsb, c.rowLsb + 1, c.rowLsb + 2, c.rowLsb + 3]

/-- The thirteen assigned lines (rule R8). -/
def lines (c : Config) : List Nat :=
  [c.oeBit, c.clkBit, c.latBit] ++ c.rowLines ++ c.colorLines

/-- `EX64` (rule R6) with the default lines of rule R8. The document gives no timing values; those here
are the ones the test vectors use. DESIGN CHOICE, log entry 3. -/
def ex64 : Config where
  W := 64
  H := 64
  R := 16
  colsPerSubPanel := 32
  chainedBoardsCnt := 4
  P := 7
  wordW := 32
  oeBit := 2
  clkBit := 3
  latBit := 4
  rowLsb := 7
  r1Bit := 17
  g1Bit := 18
  b1Bit := 22
  r2Bit := 23
  g2Bit := 24
  b2Bit := 25
  availableMask := 0x0BC6CF9F
  channelMap := .identity
  rowClockTime := 1000
  stabilizeNs := 0
  delayThresholdNs := 28000
  sleepOvershootNs := 0
  delayWhenFailed := false

/-- `T2`, the small geometry of the vectors (`41_framebuffer_ops.md`, `95_test_vectors.md`). -/
def t2 : Config := { ex64 with W := 2, H := 4, R := 2, colsPerSubPanel := 2, chainedBoardsCnt := 1, P := 2 }

/-- The level of every line right after reset, a draw (rule R45, U1), of which a block takes its `WORD_W` lines.
FREE VALUE, log entry 4. -/
opaque outAtReset : Word

/-- What the working register `cell` holds right after reset, likewise (rule R45). FREE VALUE, log entry 4. -/
opaque cellAtReset : Word

/-- What the latch for the environment's answer holds right after reset. FREE VALUE, log entry 7. -/
opaque envAtReset : Bool

/-- `SPIN_ITERS(ns)`, the calibrated iteration count of a busy-wait (rule R9). FREE VALUE, log entry 9. -/
opaque spinIters : Nat → Nat

/-- Whether the host is the agent that moves at a step for which no turn is given (rule R5: the
interleaving is unconstrained). FREE VALUE, log entry 6. -/
opaque hostMoves : Nat → Bool

/-- Which of the cells still to be cleared `CLEARBUF` clears next (rule R167: in unspecified order).
FREE VALUE, log entry 8. -/
opaque clearPick : Nat → Nat

/-- The physical LED column that shows the `k`-th sample of the panel's output register (rule R84, D31).
FREE VALUE, log entry 13. -/
opaque ledColumn : Nat → Nat

end Config

/-- A sample of the six colour lines (rule R80). -/
structure Sample where
  r1 : Bool
  g1 : Bool
  b1 : Bool
  r2 : Bool
  g2 : Bool
  b2 : Bool
  deriving DecidableEq, Repr

/-- What the panel's serial shift register holds right after reset (rule R80). FREE VALUE, log entry 13. -/
opaque Config.shiftAtReset : List Sample

/-- What the panel's output register holds right after reset (rule R80). FREE VALUE, log entry 13. -/
opaque Config.latchedAtReset : List Sample

end Sys2Proof
end

