-- ==== Sys2Proof/Syntax.lean ====
section
/-! DEFINITION. The twenty-six operations of the opcode table (rules R114, R115) and the form in which each
is presented to the machine: a micro-operation as the 4-bit code in `upc`, a host command as a 4-bit code
with typed operands beside it. -/

namespace Sys2Proof

/-- Format `COLOR` (rule R109): three independent 8-bit channels. -/
structure Color where
  red : BitVec 8
  green : BitVec 8
  blue : BitVec 8
  deriving DecidableEq, Repr

/-- The operand of `START` (rule R247), opaque: a token that nothing interprets (log entry 16). -/
abbrev Priority := Nat

/-- The operations. The first fourteen are the engine's micro-operations (rule R114), the other twelve
the host's commands and primitives (rule R115). -/
inductive Instr where
  | rowchk
  | colClr
  | stabA
  | colSet
  | stabB
  | colClk
  | stabC
  | blank
  | rowSet
  | rowClr
  | latSet
  | latClr
  | unblank
  | dwell
  | init
  | setupout (m : Word)
  | setbits (m : Word)
  | clrbits (m : Word)
  | setpixel (x y : Int) (color : Color)
  | clearbuf
  | start (priority : Priority)
  | stop
  | pause
  | resume
  | refreshPass
  | delay (n : Nat)
  deriving DecidableEq, Repr

/-- An operand of a command: "carried beside the code as typed values and ... not packed into a word"
(rule R115). -/
inductive Operand where
  | hw (m : Word)
  | int (z : Int)
  | color (red green blue : Nat)
  | prio (p : Priority)
  | nat (n : Nat)
  deriving DecidableEq, Repr

/-- An operation as it is presented to the machine. The two formats number their codes independently
(rules R114, R115): which of them a code is read in follows from the agent that presents it. -/
inductive Encoded where
  | uop (code : BitVec 4)
  | cmd (code : BitVec 4) (ops : List Operand)
  deriving DecidableEq, Repr

/-- Whether an operation is one of the engine's micro-operations (rule R114). -/
def Instr.isUop : Instr → Bool
  | .rowchk | .colClr | .stabA | .colSet | .stabB | .colClk | .stabC => true
  | .blank | .rowSet | .rowClr | .latSet | .latClr | .unblank | .dwell => true
  | .init | .setupout _ | .setbits _ | .clrbits _ | .setpixel _ _ _ | .clearbuf => false
  | .start _ | .stop | .pause | .resume | .refreshPass | .delay _ => false

end Sys2Proof
end

