-- ==== Sys2Proof/WellFormed.lean ====
section
/-! DEFINITION. What may be presented to the machine: the configurations that rules R7, R8, R9 and R112
admit, and the encoded operations that rules R114, R115 and R109 give a meaning. -/

namespace Sys2Proof

namespace Config

/-- The bounds on the number of bit-planes (rule R7 (a), (d)). -/
def planesOk (c : Config) : Bool := decide (1 ≤ c.P) && decide (c.P ≤ 7)

/-- The bounds on the number of row addresses (rule R7 (c), (d)). -/
def rowsOk (c : Config) : Bool := decide (1 ≤ c.R) && decide (c.R ≤ 16)

/-- The bounds on the columns (rules R6, R7 (d), (f)). -/
def columnsOk (c : Config) : Bool :=
  decide (1 ≤ c.colsPerSubPanel) && decide (1 ≤ c.chainedBoardsCnt) && decide (1 ≤ c.W) && decide (c.W ≤ c.C)

/-- The admitted heights (rule R7 (b), (f)). -/
def heightOk (c : Config) : Bool := decide (c.H = 2 * c.R) || decide (c.H = 4 * c.R)

/-- No two roles share a line (rule R8). -/
def linesDistinct (c : Config) : Bool := decide c.lines.Nodup

/-- Every assigned line is below `WORD_W` and available, and the mask of the available lines is a word (rule
R8). -/
def linesAvailable (c : Config) : Bool :=
  (c.lines.all fun i => decide (i < c.wordW) && c.availableMask.testBit i) && wordFits c.wordW c.availableMask

/-- `CHANNEL_MAP` is a permutation (rule R112). -/
def channelMapOk (c : Config) : Bool :=
  decide (c.channelMap.toR ≠ c.channelMap.toG) && decide (c.channelMap.toR ≠ c.channelMap.toB) &&
    decide (c.channelMap.toG ≠ c.channelMap.toB)

/-- The constraints on the timing parameters (rule R9). -/
def timingOk (c : Config) : Bool :=
  decide (1 ≤ c.rowClockTime) && decide (c.sleepOvershootNs ≤ c.delayThresholdNs)

/-- A configuration the model gives a behaviour (rule R7: one "that breaks any constraint is refused"). -/
def wf (c : Config) : Bool :=
  c.planesOk && c.rowsOk && c.columnsOk && c.heightOk && c.linesDistinct && c.linesAvailable &&
    c.channelMapOk && c.timingOk

end Config

namespace Encoded

/-- The code names an operation of its format (rule R116 lists those that name nothing). -/
def codeDefined : Encoded → Bool
  | .uop code => decide (code.toNat < 14)
  | .cmd code _ => decide (code.toNat < 12)

/-- The operands are those rule R115 gives the command, each of its type (a micro-operation has none). -/
def operandsOk : Encoded → Bool
  | .uop _ => true
  | .cmd code ops =>
    match code.toNat, ops with
    | 1, [.hw _] => true
    | 2, [.hw _] => true
    | 3, [.hw _] => true
    | 4, [.int _, .int _, .color _ _ _] => true
    | 6, [.prio _] => true
    | 11, [.nat _] => true
    | 1, _ => false
    | 2, _ => false
    | 3, _ => false
    | 4, _ => false
    | 6, _ => false
    | 11, _ => false
    | _, ops => ops.isEmpty

/-- Every channel of a colour operand is in `[0, 255]` (rule R109). -/
def channelsOk : Encoded → Bool
  | .uop _ => true
  | .cmd _ ops => ops.all fun
    | .color r g b => decide (r < 256) && decide (g < 256) && decide (b < 256)
    | .hw _ => true
    | .int _ => true
    | .prio _ => true
    | .nat _ => true

/-- Every operand of format `HW` is a word of `w` bits (rules R10, R100). -/
def wordsOk (w : Nat) : Encoded → Bool
  | .uop _ => true
  | .cmd _ ops => ops.all fun
    | .hw m => wordFits w m
    | .int _ => true
    | .color _ _ _ => true
    | .prio _ => true
    | .nat _ => true

/-- An operation as the spec lets it be presented to a block whose words have `w` bits. -/
def wf (w : Nat) (e : Encoded) : Bool := e.codeDefined && e.operandsOk && e.channelsOk && e.wordsOk w

end Encoded

/-- The masks an operation carries are words of `w` bits (rules R10, R115). -/
def Instr.fits (w : Nat) : Instr → Bool
  | .setupout m => wordFits w m
  | .setbits m => wordFits w m
  | .clrbits m => wordFits w m
  | .rowchk | .colClr | .stabA | .colSet | .stabB | .colClk | .stabC => true
  | .blank | .rowSet | .rowClr | .latSet | .latClr | .unblank | .dwell => true
  | .init | .setpixel _ _ _ | .clearbuf => true
  | .start _ | .stop | .pause | .resume | .refreshPass | .delay _ => true

end Sys2Proof
end

