-- ==== Sys2Proof/Decode.lean ====
section
/-! DEFINITION. The decoder and the encoder, both written from the code tables of rules R114 and R115. The
decoder is told the width of a hardware word, a parameter of the block (rule R8). -/

namespace Sys2Proof

/-- Why an encoded operation is refused. Each is the model's side of rule R116 ("a model whose decoder
meets a reserved code refuses") or of the operand column of rule R115. -/
inductive Reject where
  /-- `UOP` code `1110` or `1111`. -/
  | reservedUop (code : BitVec 4)
  /-- `CMD` code `1100` to `1111`. -/
  | reservedCmd (code : BitVec 4)
  /-- The command does not have the operands of rule R115. -/
  | wrongOperands (code : BitVec 4)
  /-- A colour channel above 255 (rule R109). -/
  | channelTooWide
  /-- A mask that is no word of the block's width (rules R10, R100). -/
  | wordTooWide
  deriving DecidableEq, Repr

/-! The codes of the micro-operations, the values of `upc` (rule R114). -/
namespace Upc

abbrev ROWCHK : BitVec 4 := 0b0000#4
abbrev COL_CLR : BitVec 4 := 0b0001#4
abbrev STAB_A : BitVec 4 := 0b0010#4
abbrev COL_SET : BitVec 4 := 0b0011#4
abbrev STAB_B : BitVec 4 := 0b0100#4
abbrev COL_CLK : BitVec 4 := 0b0101#4
abbrev STAB_C : BitVec 4 := 0b0110#4
abbrev BLANK : BitVec 4 := 0b0111#4
abbrev ROW_SET : BitVec 4 := 0b1000#4
abbrev ROW_CLR : BitVec 4 := 0b1001#4
abbrev LAT_SET : BitVec 4 := 0b1010#4
abbrev LAT_CLR : BitVec 4 := 0b1011#4
abbrev UNBLANK : BitVec 4 := 0b1100#4
abbrev DWELL : BitVec 4 := 0b1101#4

end Upc

/-- The micro-operation a code names (rules R114, R116). -/
def decodeUop (code : BitVec 4) : Except Reject Instr :=
  match code.toNat with
  | 0 => .ok .rowchk
  | 1 => .ok .colClr
  | 2 => .ok .stabA
  | 3 => .ok .colSet
  | 4 => .ok .stabB
  | 5 => .ok .colClk
  | 6 => .ok .stabC
  | 7 => .ok .blank
  | 8 => .ok .rowSet
  | 9 => .ok .rowClr
  | 10 => .ok .latSet
  | 11 => .ok .latClr
  | 12 => .ok .unblank
  | 13 => .ok .dwell
  | _ => .error (.reservedUop code)

/-- A command that takes no operand. -/
def noOperands (code : BitVec 4) (i : Instr) : List Operand → Except Reject Instr
  | [] => .ok i
  | _ :: _ => .error (.wrongOperands code)

/-- A command that takes one hardware word, of `w` bits. -/
def oneMask (w : Nat) (code : BitVec 4) (f : Word → Instr) : List Operand → Except Reject Instr
  | [.hw m] => if wordFits w m then .ok (f m) else .error .wordTooWide
  | _ => .error (.wrongOperands code)

/-- The operands of `SETPIXEL` (rules R115, R109). -/
def pixelOperands (code : BitVec 4) : List Operand → Except Reject Instr
  | [.int x, .int y, .color r g b] =>
    if r < 256 ∧ g < 256 ∧ b < 256 then
      .ok (.setpixel x y ⟨BitVec.ofNat 8 r, BitVec.ofNat 8 g, BitVec.ofNat 8 b⟩)
    else .error .channelTooWide
  | _ => .error (.wrongOperands code)

/-- The operand of `START` (rule R115). -/
def priorityOperand (code : BitVec 4) : List Operand → Except Reject Instr
  | [.prio p] => .ok (.start p)
  | _ => .error (.wrongOperands code)

/-- The operand of `DELAY` (rule R115). -/
def delayOperand (code : BitVec 4) : List Operand → Except Reject Instr
  | [.nat n] => .ok (.delay n)
  | _ => .error (.wrongOperands code)

/-- The command a code and its operands name (rules R115, R116). -/
def decodeCmd (w : Nat) (code : BitVec 4) (ops : List Operand) : Except Reject Instr :=
  match code.toNat with
  | 0 => noOperands code .init ops
  | 1 => oneMask w code .setupout ops
  | 2 => oneMask w code .setbits ops
  | 3 => oneMask w code .clrbits ops
  | 4 => pixelOperands code ops
  | 5 => noOperands code .clearbuf ops
  | 6 => priorityOperand code ops
  | 7 => noOperands code .stop ops
  | 8 => noOperands code .pause ops
  | 9 => noOperands code .resume ops
  | 10 => noOperands code .refreshPass ops
  | 11 => delayOperand code ops
  | _ => .error (.reservedCmd code)

/-- The decoder of a block whose words have `w` bits. -/
def decode (w : Nat) : Encoded → Except Reject Instr
  | .uop code => decodeUop code
  | .cmd code ops => decodeCmd w code ops

/-- The encoder: the code of rule R114 or R115, and the operands of rule R115. -/
def encode : Instr → Encoded
  | .rowchk => .uop Upc.ROWCHK
  | .colClr => .uop Upc.COL_CLR
  | .stabA => .uop Upc.STAB_A
  | .colSet => .uop Upc.COL_SET
  | .stabB => .uop Upc.STAB_B
  | .colClk => .uop Upc.COL_CLK
  | .stabC => .uop Upc.STAB_C
  | .blank => .uop Upc.BLANK
  | .rowSet => .uop Upc.ROW_SET
  | .rowClr => .uop Upc.ROW_CLR
  | .latSet => .uop Upc.LAT_SET
  | .latClr => .uop Upc.LAT_CLR
  | .unblank => .uop Upc.UNBLANK
  | .dwell => .uop Upc.DWELL
  | .init => .cmd 0b0000#4 []
  | .setupout m => .cmd 0b0001#4 [.hw m]
  | .setbits m => .cmd 0b0010#4 [.hw m]
  | .clrbits m => .cmd 0b0011#4 [.hw m]
  | .setpixel x y color =>
    .cmd 0b0100#4 [.int x, .int y, .color color.red.toNat color.green.toNat color.blue.toNat]
  | .clearbuf => .cmd 0b0101#4 []
  | .start priority => .cmd 0b0110#4 [.prio priority]
  | .stop => .cmd 0b0111#4 []
  | .pause => .cmd 0b1000#4 []
  | .resume => .cmd 0b1001#4 []
  | .refreshPass => .cmd 0b1010#4 []
  | .delay n => .cmd 0b1011#4 [.nat n]

/-- The operands of the command `code`, all zero: what stands beside a code when only its bits are
given. -/
def zeroOperands (code : BitVec 4) : List Operand :=
  match code.toNat with
  | 1 => [.hw 0]
  | 2 => [.hw 0]
  | 3 => [.hw 0]
  | 4 => [.int 0, .int 0, .color 0 0 0]
  | 6 => [.prio 0]
  | 11 => [.nat 0]
  | _ => []

/-- A table word as an encoded operation: bits 3 to 0 are the code, bit 4 tells the format (0 `UOP`,
1 `CMD`), since the table numbers the two formats' codes alike, and no other bit may be set. DESIGN
CHOICE, log entry 5. -/
def tableWord (w : Nat) : Option Encoded :=
  if w < 16 then some (.uop (BitVec.ofNat 4 w))
  else if w < 32 then some (.cmd (BitVec.ofNat 4 w) (zeroOperands (BitVec.ofNat 4 w)))
  else none

/-- The operation the decoder reads from a table row's bits. Every row fits in one byte, so the number of
bits the row has tells the decoder nothing. The operands are zero, which is a word of any width. -/
def decodeTableWord (_nbits w : Nat) : Option Instr :=
  match tableWord w with
  | none => none
  | some e =>
    match decode 0 e with
    | .ok i => some i
    | .error _ => none

end Sys2Proof
end

