-- ==== Sys2Proof/Machine/State.lean ====
section
/-! DEFINITION. The state of the machine (rule R20), the reasons a step stops, and the state right after
reset (rule R45). -/

namespace Sys2Proof.Machine

/-- A frame-buffer address, format `FBADDR` (rules R60, R61, R113): structured, not linear. -/
structure FbAddr where
  plane : Nat
  row : Nat
  col : Nat
  deriving DecidableEq, Repr

/-- The frame buffer, as the cells that do not hold 0, in rising order of their addresses. A cell that is
not listed reads as 0, the reset contents (rule R45). Log entry 15. -/
abbrev Memory := List (FbAddr × Word)

/-- The position register `pc` (rule R25), this hardware's program counter. `upc` is a code of format
`UOP` (rule R100). -/
structure Pos where
  row : Nat
  plane : Nat
  col : Nat
  upc : BitVec 4
  deriving DecidableEq, Repr

/-- Where every scan starts: `(0, 0, 0, ROWCHK)` (rules R26, R45, R241). -/
abbrev Pos.origin : Pos := ⟨0, 0, 0, Upc.ROWCHK⟩

/-- `run` (rule R27). -/
inductive RunState where
  | uninit
  | idle
  | running
  | failed
  deriving DecidableEq, Repr

/-- `mode` (rule R28). -/
inductive Mode where
  | cont
  | oneshot
  deriving DecidableEq, Repr

/-- The two agents (rule R5). -/
inductive Agent where
  | engine
  | host
  deriving DecidableEq, Repr

/-- How the time of a delay is spent (rule R220). -/
inductive Wait where
  /-- A coarse sleep of so many nanoseconds. -/
  | sleep (ns : Nat)
  /-- A busy-wait of so many iterations. -/
  | spin (iterations : Nat)
  deriving DecidableEq, Repr

/-- The outcome a `RowChk` event records (rule R183). -/
inductive RowChkOutcome where
  | go
  | paused
  | stopped
  deriving DecidableEq, Repr

/-- An event of the history (rule R12). A `Delay` event carries how the time is spent beside the
nanoseconds asked for (rule R9: the timing parameters "appear only in the `Delay` events"). -/
inductive Event where
  | set (m : Word)
  | clr (m : Word)
  | delay (n : Nat) (how : Wait)
  | fbRead (a : FbAddr) (v : Word)
  | rowChk (row : Nat) (outcome : RowChkOutcome)
  | fbWrite (a : FbAddr) (v : Word)
  | cmd (i : Instr)
  deriving DecidableEq, Repr

/-- What a command returns to the host: `ok` of `INIT` (rule R140), the configured mask of `SETUPOUT`
(rule R143). -/
inductive Ret where
  | ok (ok : Bool)
  | mask (configured : Word)
  deriving DecidableEq, Repr

/-- The two sub-rows a row address selects (rule R16). -/
inductive SubRow where
  | one
  | two
  deriving DecidableEq, Repr

/-- One plane's bits of a reduced colour, by field (rules R111, R112). -/
structure PlaneBits where
  r : Bool
  g : Bool
  b : Bool
  deriving DecidableEq, Repr

/-- What is left of a host operation that makes several cell accesses. They are separate steps, between
which the engine may move (rules R67, R166, R167). -/
inductive HostWork where
  /-- The read half of a cell update of `SETPIXEL` (rule R165). -/
  | update (a : FbAddr) (sub : SubRow) (q : PlaneBits)
  /-- Its write half. -/
  | store (a : FbAddr) (v : Word)
  /-- The cells `CLEARBUF` has still to clear, at least one (rule R167). -/
  | clear (first : FbAddr) (others : List FbAddr)
  deriving DecidableEq, Repr

/-- A command the host issues, with the environment's answer to it: a free input that `INIT` and `START`
read (rule R270). -/
structure Packet where
  code : BitVec 4
  ops : List Operand
  answer : Bool
  deriving DecidableEq, Repr

/-- The registers of the informative panel observer (rules R42, R80): the samples clocked in, most recent
last, and the samples latched. -/
structure Panel where
  shift : List Sample
  latched : List Sample
  deriving DecidableEq, Repr

/-- The state (rule R20). The fields up to `panel` are the spec's. The others are the model's own: what a
command returned, the host's operation in progress, and the inputs from outside (log entries 1, 6, 7, 8,
10). -/
structure State where
  /-- The configuration, fixed before reset: no step changes it (rules R6, R20). -/
  cfg : Config
  /-- The position register (rule R25). -/
  pc : Pos
  /-- The frame-buffer word the engine read last (rule R24). -/
  cell : Word
  /-- The run state (rule R27). -/
  run : RunState
  /-- Continuous refresh or one pass (rule R28). -/
  mode : Mode
  /-- `stop_req` (rule R29). -/
  stopReq : Bool
  /-- `pause_req` (rule R30). -/
  pauseReq : Bool
  /-- `paused` (rule R31). -/
  paused : Bool
  /-- `prio_denied` (rule R32). -/
  prioDenied : Bool
  /-- `OUT`, the level of every line (rule R35). -/
  out : Word
  /-- `DIR`, the lines configured as outputs (rule R37). -/
  dir : Word
  /-- `FB`, the frame buffer (rule R40). -/
  fb : Memory
  /-- The event history, oldest first (rule R12). -/
  hist : List Event
  /-- The panel observer (rules R42, R80). -/
  panel : Panel
  /-- The value most recently returned to the host (rules R140, R143). -/
  ret : Option Ret
  /-- The environment's answer to the command being executed (rule R270). -/
  env : Bool
  /-- The host's operation in progress, oldest access first. -/
  work : List HostWork
  /-- The commands the host has still to issue, in order. -/
  inbox : List Packet
  /-- The agents that move at the coming steps, in order. -/
  turns : List Agent
  /-- The number of steps taken, from which the free values are drawn. -/
  tick : Nat
  deriving DecidableEq, Repr

/-- Why a step stops with a fault. No rule of the spec reports one (rule R13: there is "no fault outcome
inside the refresh loop"); these stop an access that the spec says cannot occur (log entry 14). -/
inductive Fault where
  /-- A frame-buffer access outside the three ranges of rule R60. Raised by `COL_CLR`, `COL_SET` and the
  host's cell accesses. Safe: no reachable state makes such an access (rule R64). -/
  | noSuchCell (a : FbAddr)
  /-- A read of the dwell table outside its seven slots (rule R39). Raised by `DWELL`. Safe: no reachable
  state makes such a read (rule R121 (h)). -/
  | noSuchSlot (k : Nat)
  deriving DecidableEq, Repr

/-- Why a step is refused: "this spec gives the operation no meaning in this state" (rule R13). All are
safe: the model stops where the spec says it stops. -/
inductive Refusal where
  /-- An instruction without a meaning. Raised by no arm of this model. -/
  | notModelled (mnemonic : String)
  /-- A configuration outside the constraints of rule R7. Raised by every step. -/
  | configRefused
  /-- A code or operands that name nothing (rule R116). Raised by the fetch of a step. -/
  | undecodable (why : Reject)
  /-- `INIT` outside `UNINIT` (rule R140). -/
  | initTwice
  /-- `SETUPOUT` outside `IDLE` (rule R143). -/
  | setupInWrongState
  /-- `SETBITS` or `CLRBITS` by the host outside `IDLE` (rules R78, R141, R142, R240). -/
  | portInWrongState
  /-- `SETPIXEL` or `CLEARBUF` in `FAILED` (rules R160, R167), and `DELAY` there where the configuration refuses it
  (rules R140, R261, log entry 25). -/
  | failed
  /-- `START` outside `IDLE` (rule R241). -/
  | startInWrongState
  /-- `START` or `REFRESH_PASS` while `DIR` does not cover `ENGINE_MASK` (rules R241, R245). -/
  | linesNotConfigured
  /-- `STOP` in `UNINIT` or `FAILED` (rule R242). -/
  | stopInWrongState
  /-- `PAUSE` in `UNINIT` or `FAILED` (rule R243). -/
  | pauseInWrongState
  /-- `RESUME` in `UNINIT` or `FAILED` (rule R244). -/
  | resumeInWrongState
  /-- `REFRESH_PASS` outside `IDLE` (rule R245). -/
  | passInWrongState
  deriving DecidableEq, Repr

/-- What a meaning answers. -/
abbrev Result := Host.Outcome State Fault Refusal

/-- The state right after reset, that is, after the creation of the controller (rules R45, R300), for a
configuration. `OUT`, `cell` and the observer's registers are draws (rules R45, R80). -/
def State.resetWith (c : Config) : State where
  cfg := c
  pc := Pos.origin
  cell := Config.cellAtReset % 2 ^ c.wordW
  run := .uninit
  mode := .cont
  stopReq := false
  pauseReq := false
  paused := false
  prioDenied := false
  out := Config.outAtReset % 2 ^ c.wordW
  dir := 0
  fb := []
  hist := []
  panel := ⟨Config.shiftAtReset, Config.latchedAtReset⟩
  ret := none
  env := Config.envAtReset
  work := []
  inbox := []
  turns := []
  tick := 0

/-- The state right after reset, for the configuration `EX64` (log entry 3). -/
def State.reset : State := State.resetWith Config.ex64

end Sys2Proof.Machine
end

