-- ==== Sys2Proof/Machine/Memory.lean ====
section
/-! DEFINITION. The frame buffer as data: the order of its addresses, reading and writing one cell, and
the canonical form (rules R40, R60, R66, R71). -/

namespace Sys2Proof.Machine

/-- The address names a cell of the buffer (rule R60 (a)). -/
def FbAddr.inRange (c : Config) (a : FbAddr) : Bool :=
  decide (a.plane < c.P) && decide (a.row < c.R) && decide (a.col < c.C)

/-- The order in which the cells are listed: by plane, then row, then column. -/
def FbAddr.before (a b : FbAddr) : Bool :=
  decide (a.plane < b.plane) ||
    (decide (a.plane = b.plane) &&
      (decide (a.row < b.row) || (decide (a.row = b.row) && decide (a.col < b.col))))

namespace Memory

/-- The value of a cell; one that is not listed holds 0 (rules R45, R71). -/
def read : Memory → FbAddr → Word
  | [], _ => 0
  | (b, w) :: m, a => if a = b then w else read m a

/-- A cell put in front of the list, or left out where it holds 0. -/
def place (a : FbAddr) (v : Word) (m : Memory) : Memory := if v = 0 then m else (a, v) :: m

/-- The buffer after one cell is written (rule R66). -/
def write : Memory → FbAddr → Word → Memory
  | [], a, v => place a v []
  | (b, w) :: m, a, v =>
    if a = b then place a v m
    else if a.before b then place a v ((b, w) :: m)
    else (b, w) :: write m a v

/-- Every address listed comes after `a`. -/
def above (a : FbAddr) (m : Memory) : Bool := m.all fun e => a.before e.1

/-- The canonical form: addresses strictly rising, and no cell listed that holds 0. -/
def wf : Memory → Bool
  | [] => true
  | (a, v) :: m => decide (v ≠ 0) && above a m && wf m

end Memory

end Sys2Proof.Machine
end

