-- ==== Sys2Proof/Machine/Operands.lean ====
section
/-! DEFINITION. Operand assembly: the masks (rule R106), the row bits (R107), the reduction of a colour
and its spread over fields (R110 to R112, R165), the serpentine fold (R162), the dwell table (R221, R222)
and the way a delay is spent (R220). -/

namespace Sys2Proof.Machine

/-- `~v`, which "never produces bits at or above `WORD_W`" (rule R10). -/
def wordNot (c : Config) (v : Word) : Word := (2 ^ c.wordW - 1) ^^^ (v % 2 ^ c.wordW)

/-! The constant masks of rule R106. -/

def oeMask (c : Config) : Word := bit c.oeBit

def clkMask (c : Config) : Word := bit c.clkBit

def latMask (c : Config) : Word := bit c.latBit

def rowMask (c : Config) : Word := 0xF <<< c.rowLsb

def colorMask (c : Config) : Word :=
  bit c.r1Bit ||| bit c.g1Bit ||| bit c.b1Bit ||| bit c.r2Bit ||| bit c.g2Bit ||| bit c.b2Bit

def serialMask (c : Config) : Word := colorMask c ||| clkMask c

def engineMask (c : Config) : Word := serialMask c ||| oeMask c ||| latMask c ||| rowMask c

/-- `rowbits(r)`: the word with `r` in the `ROW` field and every other bit 0 (rule R107). -/
def rowbits (c : Config) (r : Nat) : Word := (r % 16) <<< c.rowLsb

/-- The `ROW` field of a word (rules R84, R104). -/
def rowField (c : Config) (w : Word) : Nat := (w >>> c.rowLsb) % 16

/-- The value of a channel in a colour (rule R109). -/
def channelOf (color : Color) : Channel → BitVec 8
  | .red => color.red
  | .green => color.green
  | .blue => color.blue

/-- Channel reduction: the top `P` bits (rule R110). -/
def reduce (c : Config) (v : BitVec 8) : BitVec 8 := v >>> (8 - c.P)

/-- Bit `b` of the reduced channel that feeds a field (rules R111, R112, R163). -/
def planeBits (c : Config) (color : Color) (b : Nat) : PlaneBits where
  r := (reduce c (channelOf color c.channelMap.toR)).getLsbD b
  g := (reduce c (channelOf color c.channelMap.toG)).getLsbD b
  b := (reduce c (channelOf color c.channelMap.toB)).getLsbD b

/-- One line of a word set to 1 or to 0, every other kept (rule R165). -/
def setLine (w : Word) (i : Nat) (level : Bool) : Word := if w.testBit i = level then w else w ^^^ bit i

/-- The three fields of a sub-row overwritten with a plane's bits, every other bit kept (rule R165). -/
def mergePixel (c : Config) (sub : SubRow) (q : PlaneBits) (v : Word) : Word :=
  match sub with
  | .one => setLine (setLine (setLine v c.r1Bit q.r) c.g1Bit q.g) c.b1Bit q.b
  | .two => setLine (setLine (setLine v c.r2Bit q.r) c.g2Bit q.g) c.b2Bit q.b

/-- The logical coordinates are inside `[0, W) x [0, H)` (rule R161), as mathematical integers. -/
def inBounds (c : Config) (x y : Int) : Bool :=
  decide (0 ≤ x) && decide (x < c.W) && decide (0 ≤ y) && decide (y < c.H)

/-- The serpentine fold `(x', y')` (rule R162). -/
def fold (c : Config) (x y : Nat) : Nat × Nat :=
  if 2 * c.R ≤ y then (c.C - 1 - x, c.H - 1 - y) else (x, y)

/-- The row address of a folded row coordinate (rule R164). -/
def pixelRow (c : Config) (y' : Nat) : Nat := y' % c.R

/-- The sub-row of a folded row coordinate (rule R164). -/
def pixelSub (c : Config) (y' : Nat) : SubRow := if y' < c.R then .one else .two

/-- The cell of plane `b` that the logical pixel `(x, y)` lies in (rules R162, R164). -/
def pixelCell (c : Config) (x y b : Nat) : FbAddr := ⟨b, pixelRow c (fold c x y).2, (fold c x y).1⟩

/-- The cell updates of one `SETPIXEL`, in ascending plane order (rule R166). -/
def pixelWork (c : Config) (x y : Nat) (color : Color) : List HostWork :=
  (List.range c.P).map fun b =>
    .update (pixelCell c x y b) (pixelSub c (fold c x y).2) (planeBits c color b)

/-- Every cell of the buffer (rule R60 (a)). -/
def allCells (c : Config) : List FbAddr :=
  (List.range c.P).flatMap fun b => (List.range c.R).flatMap fun r =>
    (List.range c.C).map fun k => ⟨b, r, k⟩

/-- The cell accesses of `CLEARBUF` (rule R167). -/
def clearWork (c : Config) : List HostWork :=
  match allCells c with
  | [] => []
  | a :: others => [.clear a others]

/-- One cell taken out of those still to be cleared, the `k`-th or else the last (rule R167). -/
def takeCell (first : FbAddr) : List FbAddr → Nat → FbAddr × List FbAddr
  | [], _ => (first, [])
  | second :: others, 0 => (first, second :: others)
  | second :: others, k + 1 => ((takeCell second others k).1, first :: (takeCell second others k).2)

/-- Slot `k` of the dwell table, `(2^k * T) - T` (rules R39, R221). -/
def dwellSlot (c : Config) (k : Nat) : Nat := 2 ^ k * c.rowClockTime - c.rowClockTime

/-- `DWELL[0..6]` (rules R39, R221): constants, which nobody writes. -/
def dwellTable (c : Config) : List Nat := (List.range 7).map (dwellSlot c)

/-- The slot plane `b` uses (rule R222). -/
def planeSlot (c : Config) (b : Nat) : Nat := b + 7 - c.P

/-- How `n` nanoseconds are spent: a coarse sleep above the threshold, a busy-wait at or below it, of no
iteration for 0 (rule R220). -/
def waitFor (c : Config) (n : Nat) : Wait :=
  if c.delayThresholdNs < n then .sleep (n - c.sleepOvershootNs)
  else .spin (if n = 0 then 0 else Config.spinIters n)

/-- The cell that the position register names (rules R61, R184). -/
def Pos.cellAddr (p : Pos) : FbAddr := ⟨p.plane, p.row, p.col⟩

end Sys2Proof.Machine
end

