-- ==== Sys2Proof/Machine/Flags.lean ====
section
/-! DEFINITION. The conditions the machine tests: the requests a `ROWCHK` samples (rules R183, R265), the
configured lines (R241, R245), the run states (R240), and the error kinds read off the values reported to
the host (R260). This hardware has no arithmetic condition codes (rule R33). -/

namespace Sys2Proof.Machine

namespace State

/-- A stop is pending and not masked (rules R183, R265). -/
def stopSampled (s : State) : Bool := decide (s.mode = .cont) && s.stopReq

/-- A pause is pending and not masked (rules R183, R265). -/
def pauseSampled (s : State) : Bool := decide (s.mode = .cont) && s.pauseReq

/-- `DIR` covers `ENGINE_MASK` (rules R37, R241, R245). -/
def linesConfigured (s : State) : Bool := decide (s.dir &&& engineMask s.cfg = engineMask s.cfg)

/-- `STOP`, `PAUSE` and `RESUME` have a meaning in this run state (rule R240). -/
def setUp (s : State) : Bool := decide (s.run = .idle) || decide (s.run = .running)

/-- `DELAY` has a meaning in this run state: in all but `FAILED` for certain (rule R240), and there as the
configuration says (rules R140, R261 against R240, log entry 25). -/
def delayAllowed (s : State) : Bool := decide (s.run ≠ .failed) || s.cfg.delayWhenFailed

/-- The level of a line (rule R35). -/
def level (s : State) (i : Nat) : Bool := s.out.testBit i

end State

/-- The error kinds (rule R260). -/
inductive ErrorKind where
  | setupFailure
  | configMismatch
  | priorityDenied
  deriving DecidableEq, Repr

/-- The codes of rule R260. -/
def ErrorKind.code : ErrorKind → Nat
  | .setupFailure => 1
  | .configMismatch => 2
  | .priorityDenied => 3

/-- The error kind that the host finds reported in the state a command leaves (rules R260 to R263): by a
returned `false`, by a mask that differs from the one requested, or by `prio_denied`. -/
def reportedError : Instr → State → Option ErrorKind
  | .init, t => if t.ret = some (.ok false) then some .setupFailure else none
  | .setupout m, t => if t.ret = some (.mask m) then none else some .configMismatch
  | .start _, t => if t.prioDenied then some .priorityDenied else none
  | .rowchk, _ => none
  | .colClr, _ => none
  | .stabA, _ => none
  | .colSet, _ => none
  | .stabB, _ => none
  | .colClk, _ => none
  | .stabC, _ => none
  | .blank, _ => none
  | .rowSet, _ => none
  | .rowClr, _ => none
  | .latSet, _ => none
  | .latClr, _ => none
  | .unblank, _ => none
  | .dwell, _ => none
  | .setbits _, _ => none
  | .clrbits _, _ => none
  | .setpixel _ _ _, _ => none
  | .clearbuf, _ => none
  | .stop, _ => none
  | .pause, _ => none
  | .resume, _ => none
  | .refreshPass, _ => none
  | .delay _, _ => none

/-- The run states in which the table of rule R240 gives a command a meaning (for `START` and `REFRESH_PASS` it
asks for the configured lines besides; `DELAY` in `FAILED` is as the configuration says, log entry 25). A
micro-operation is no command. -/
def commandAllowed (c : Config) : Instr → RunState → Bool
  | .init, r => decide (r = .uninit)
  | .setupout _, r => decide (r = .idle)
  | .setbits _, r => decide (r = .idle)
  | .clrbits _, r => decide (r = .idle)
  | .setpixel _ _ _, r => decide (r ≠ .failed)
  | .clearbuf, r => decide (r ≠ .failed)
  | .start _, r => decide (r = .idle)
  | .refreshPass, r => decide (r = .idle)
  | .stop, r => decide (r = .idle) || decide (r = .running)
  | .pause, r => decide (r = .idle) || decide (r = .running)
  | .resume, r => decide (r = .idle) || decide (r = .running)
  | .delay _, r => decide (r ≠ .failed) || c.delayWhenFailed
  | .rowchk, _ => false
  | .colClr, _ => false
  | .stabA, _ => false
  | .colSet, _ => false
  | .stabB, _ => false
  | .colClk, _ => false
  | .stabC, _ => false
  | .blank, _ => false
  | .rowSet, _ => false
  | .rowClr, _ => false
  | .latSet, _ => false
  | .latClr, _ => false
  | .unblank, _ => false
  | .dwell, _ => false

end Sys2Proof.Machine
end

