-- ==== Sys2Proof/Machine/Panel.lean ====
section
/-! DEFINITION. The informative observer of the attached panel (rules R80 to R86): what its two registers
do as `OUT` changes, and which LEDs are lit. No engine or host step reads them (rule R42). -/

namespace Sys2Proof.Machine

/-- The sample of the six colour lines (rule R80). -/
def sampleOf (c : Config) (out : Word) : Sample where
  r1 := out.testBit c.r1Bit
  g1 := out.testBit c.g1Bit
  b1 := out.testBit c.b1Bit
  r2 := out.testBit c.r2Bit
  g2 := out.testBit c.g2Bit
  b2 := out.testBit c.b2Bit

/-- The last `n` samples. -/
def lastSamples (n : Nat) (l : List Sample) : List Sample := l.drop (l.length - n)

/-- Line `i` goes from 0 to 1. -/
def rises (i : Nat) (before after : Word) : Bool := !before.testBit i && after.testBit i

/-- Line `i` goes from 1 to 0. -/
def falls (i : Nat) (before after : Word) : Bool := before.testBit i && !after.testBit i

/-- The observer's registers after `OUT` has changed. A rising clock shifts the new sample in and the last
`C` samples are kept (rule R81). The end of a latch pulse copies them (rule R82; the source does not give
the edge, log entry 12). -/
def Panel.observe (c : Config) (p : Panel) (before after : Word) : Panel where
  shift := if rises c.clkBit before after then lastSamples c.C (p.shift ++ [sampleOf c after]) else p.shift
  latched := if falls c.latBit before after then lastSamples c.C p.shift else p.latched

/-- One LED position that the panel drives: its sub-panel, row and column, and the colours that are on. -/
structure Led where
  sub : SubRow
  row : Nat
  col : Nat
  r : Bool
  g : Bool
  b : Bool
  deriving DecidableEq, Repr

/-- The two LED positions driven from sample `k` of the output register (rule R84). -/
def ledsOfSample (row k : Nat) (q : Sample) : List Led :=
  [⟨.one, row, Config.ledColumn k, q.r1, q.g1, q.b1⟩, ⟨.two, row, Config.ledColumn k, q.r2, q.g2, q.b2⟩]

/-- What the panel shows: nothing while the output-enable line is 1 (rule R83), and otherwise the output
register on the addressed row of both sub-panels (rule R84). -/
def State.shown (s : State) : List Led :=
  if s.level s.cfg.oeBit then []
  else s.panel.latched.zipIdx.flatMap fun e => ledsOfSample (rowField s.cfg s.out) e.2 e.1

end Sys2Proof.Machine
end

