-- ==== Sys2Proof/Machine/Ops.lean ====
section
/-! DEFINITION. The operations the meanings are made of: recording an event (rule R12), the register
primitives (R141, R142), the timing primitive (R220), the frame-buffer accesses (R66), setting `pc` (R25),
and taking a stop or a pause (R183, R267), which is what this hardware has in the place of exceptions, with
coming back from them (R241, R268). -/

namespace Sys2Proof.Machine

namespace State

/-- An event appended to the history (rule R12). -/
def record (s : State) (e : Event) : State := { s with hist := s.hist ++ [e] }

/-- `OUT` takes a new value, which the panel sees (rules R35, R80). -/
def drive (s : State) (out : Word) : State :=
  { s with out := out, panel := s.panel.observe s.cfg s.out out }

/-- `MemWrite(SET, 1, m)`: one store to the set port (rules R36, R141), performed and recorded for a zero
mask too (rule R70). -/
def portSet (s : State) (m : Word) : State := (s.drive (s.out ||| m)).record (.set m)

/-- `MemWrite(CLR, 1, m)`: one store to the clear port (rules R36, R142). -/
def portClr (s : State) (m : Word) : State := (s.drive (s.out &&& wordNot s.cfg m)).record (.clr m)

/-- `Delay(n)`: the timing primitive asked for `n` nanoseconds, which changes no other state (rule
R220). -/
def delayFor (s : State) (n : Nat) : State := s.record (.delay n (waitFor s.cfg n))

/-- The next micro-operation is `upc`, at the same row, plane and column (rule R25). -/
def goUpc (s : State) (upc : BitVec 4) : State := { s with pc := { s.pc with upc := upc } }

/-- The next micro-operation is at `p` (rule R25). -/
def goPos (s : State) (p : Pos) : State := { s with pc := p }

/-- `MemRead(FB(b,r,c), 1)`: the value of the cell (rule R66). -/
def fbValue (s : State) (a : FbAddr) : Word := s.fb.read a

/-- `MemWrite(FB(b,r,c), 1, v)` (rule R66). -/
def fbStore (s : State) (a : FbAddr) (v : Word) : State :=
  ({ s with fb := s.fb.write a v } : State).record (.fbWrite a v)

/-- `cell` loaded from the frame buffer (rules R24, R184). -/
def loadCell (s : State) (a : FbAddr) : State :=
  ({ s with cell := s.fbValue a } : State).record (.fbRead a (s.fbValue a))

/-- Taking a stop (rules R183, R267): the engine terminates at the row boundary; nothing is saved, no port
write is made, and `stop_req` stays 1. -/
def takeStop (s : State) : State :=
  ({ s with paused := false, run := .idle, pc := Pos.origin } : State).record (.rowChk s.pc.row .stopped)

/-- Taking a pause (rules R183, R267): the engine holds at the row boundary, and the event is recorded
once, when `paused` goes from 0 to 1. -/
def takePause (s : State) : State :=
  if s.paused then s else ({ s with paused := true } : State).record (.rowChk s.pc.row .paused)

/-- Going on with the row (rules R183, R268): also the way back from a pause. -/
def goRow (s : State) : State :=
  ({ s with paused := false, pc := ⟨s.pc.row, 0, 0, Upc.COL_CLR⟩ } : State).record (.rowChk s.pc.row .go)

/-- The engine comes into being at row 0 (rules R241, R245, R277). -/
def enterScan (s : State) (mode : Mode) : State :=
  { s with paused := false, mode := mode, pc := Pos.origin, run := .running }

/-- A control command is recorded (rule R12; which commands are, log entry 11). -/
def recordCmd (s : State) (i : Instr) : State := s.record (.cmd i)

end State

/-- A cell access goes on only if the cell exists (rules R60, R64). -/
def withCell (s : State) (a : FbAddr) (next : Result) : Result :=
  if a.inRange s.cfg then next else .fault (.noSuchCell a)

/-- One cell access of the host's operation in progress (rules R66, R67, R165 to R167). -/
def workStep (s : State) : Result :=
  match s.work with
  | [] => .next s
  | .update a sub q :: later =>
    withCell s a (.next
      (({ s with work := .store a (mergePixel s.cfg sub q (s.fbValue a)) :: later } : State).record
        (.fbRead a (s.fbValue a))))
  | .store a v :: later => withCell s a (.next (({ s with work := later } : State).fbStore a v))
  | .clear first others :: later =>
    match takeCell first others (Config.clearPick s.tick) with
    | (a, []) => withCell s a (.next (({ s with work := later } : State).fbStore a 0))
    | (a, b :: rest) =>
      withCell s a (.next (({ s with work := .clear b rest :: later } : State).fbStore a 0))

end Sys2Proof.Machine
end

