-- ==== Sys2Proof/Machine/Control.lean ====
section
/-! DEFINITION. The control commands (`44_control.md`): the meanings of `START`, `STOP`, `PAUSE`, `RESUME`
and `REFRESH_PASS`, rules R241 to R245. -/

namespace Sys2Proof.Machine

/-- `START priority` (rule R241): the request for a priority, which nothing else reads (rule R247), may be
denied by the environment (rule R263). -/
def execStart (priority : Priority) (s : State) : Result :=
  if s.run = .idle then
    if s.linesConfigured then
      .next ((({ s with stopReq := false, pauseReq := false, prioDenied := !s.env } : State).enterScan
        .cont).recordCmd (.start priority))
    else .refused .linesNotConfigured
  else .refused .startInWrongState

/-- `STOP` (rule R242): the request half of `stopRefresh()`. -/
def execStop (s : State) : Result :=
  if s.setUp then .next (({ s with stopReq := true } : State).recordCmd .stop)
  else .refused .stopInWrongState

/-- `PAUSE` (rule R243). -/
def execPause (s : State) : Result :=
  if s.setUp then .next (({ s with pauseReq := true } : State).recordCmd .pause)
  else .refused .pauseInWrongState

/-- `RESUME` (rule R244). -/
def execResume (s : State) : Result :=
  if s.setUp then .next (({ s with pauseReq := false } : State).recordCmd .resume)
  else .refused .resumeInWrongState

/-- `REFRESH_PASS` (rule R245): one pass, which samples neither request. -/
def execRefreshPass (s : State) : Result :=
  if s.run = .idle then
    if s.linesConfigured then .next ((s.enterScan .oneshot).recordCmd .refreshPass)
    else .refused .linesNotConfigured
  else .refused .passInWrongState

end Sys2Proof.Machine
end

