-- ==== Sys2Proof/Machine/Pixel.lean ====
section
/-! DEFINITION. The frame-buffer operations (`41_framebuffer_ops.md`): the meanings of `SETPIXEL` and
`CLEARBUF`, rules R160 to R168. Neither is atomic (rule R67): the meaning issues the cell accesses, which
the host then makes one a step (`workStep`), and between any two of which the engine may move. -/

namespace Sys2Proof.Machine

/-- `SETPIXEL x y color` (rule R160): a silent no-op outside the logical area (rule R161), and otherwise
the `P` cell updates in ascending plane order (rule R166). -/
def execSetpixel (x y : Int) (color : Color) (s : State) : Result :=
  if s.run = .failed then .refused .failed
  else if inBounds s.cfg x y then
    .next { s with work := s.work ++ pixelWork s.cfg x.toNat y.toNat color }
  else .next s

/-- `CLEARBUF` (rule R167): every cell is written with 0, in unspecified order. -/
def execClearbuf (s : State) : Result :=
  if s.run = .failed then .refused .failed
  else .next { s with work := s.work ++ clearWork s.cfg }

end Sys2Proof.Machine
end

