-- ==== Sys2Proof/Machine/Port.lean ====
section
/-! DEFINITION. The register primitives (`40_register_ops.md`): the meanings of `INIT`, `SETUPOUT`,
`SETBITS` and `CLRBITS`, rules R140 to R143. -/

namespace Sys2Proof.Machine

/-- `INIT` (rule R140): whether it succeeds is the environment's answer. A setup failure is returned as
the value `false`, never as a trap (rule R261, log entry 17). -/
def execInit (s : State) : Result :=
  if s.run = .uninit then
    .next (({ s with
      run := if s.env then RunState.idle else RunState.failed
      ret := some (.ok s.env) } : State).recordCmd .init)
  else .refused .initTwice

/-- `SETUPOUT m` (rule R143): the lines of `m` that are available become outputs, and they are returned.
The order of the lines and the two configure steps leave no trace but `DIR` (U2). -/
def execSetupout (m : Word) (s : State) : Result :=
  if s.run = .idle then
    .next (({ s with
      dir := s.dir ||| (m &&& s.cfg.availableMask)
      ret := some (.mask (m &&& s.cfg.availableMask)) } : State).recordCmd (.setupout m))
  else .refused .setupInWrongState

/-- `SETBITS m` by the host (rules R141, R78, R240). -/
def execSetbits (m : Word) (s : State) : Result :=
  if s.run = .idle then .next (s.portSet m) else .refused .portInWrongState

/-- `CLRBITS m` by the host (rules R142, R78, R240). -/
def execClrbits (m : Word) (s : State) : Result :=
  if s.run = .idle then .next (s.portClr m) else .refused .portInWrongState

end Sys2Proof.Machine
end

