-- ==== Sys2Proof/Machine/Scan.lean ====
section
/-! DEFINITION. The scan sequence (`42_scan_sequence.md`): the meanings of the fourteen micro-operations,
rules R183 to R189 and R191 to R197. None has an operand and none raises an error; each sets `pc` to its
successor as its last action (rule R25). That the engine steps only while `RUNNING` is the fetch's matter (log
entry 18). -/

namespace Sys2Proof.Machine

/-- `ROWCHK` (rule R183): sample the stop and the pause request; the stop takes precedence (rule R266). -/
def execRowchk (s : State) : Result :=
  if s.stopSampled then .next s.takeStop
  else if s.pauseSampled then .next s.takePause
  else .next s.goRow

/-- `COL_CLR` (rule R184): lower the serial lines whose field in the cell is 0, and the clock. -/
def execColClr (s : State) : Result :=
  withCell s s.pc.cellAddr
    (.next (((s.loadCell s.pc.cellAddr).portClr
      (wordNot s.cfg (s.fbValue s.pc.cellAddr) &&& serialMask s.cfg)).goUpc Upc.STAB_A))

/-- `STAB_A` (rule R185). -/
def execStabA (s : State) : Result := .next ((s.delayFor s.cfg.stabilizeNs).goUpc Upc.COL_SET)

/-- `COL_SET` (rule R186): read the cell a second time (rule R72) and raise the lines whose field is 1. -/
def execColSet (s : State) : Result :=
  withCell s s.pc.cellAddr
    (.next (((s.loadCell s.pc.cellAddr).portSet
      (s.fbValue s.pc.cellAddr &&& serialMask s.cfg)).goUpc Upc.STAB_B))

/-- `STAB_B` (rule R187). -/
def execStabB (s : State) : Result := .next ((s.delayFor s.cfg.stabilizeNs).goUpc Upc.COL_CLK)

/-- `COL_CLK` (rule R188): raise the clock. -/
def execColClk (s : State) : Result := .next ((s.portSet (clkMask s.cfg)).goUpc Upc.STAB_C)

/-- Where the scan goes after a column (rule R189). -/
def afterColumn (c : Config) (p : Pos) : Pos :=
  if p.col + 1 < c.C then ⟨p.row, p.plane, p.col + 1, Upc.COL_CLR⟩
  else ⟨p.row, p.plane, p.col, Upc.BLANK⟩

/-- `STAB_C` (rule R189): the third delay, and the column advance. -/
def execStabC (s : State) : Result :=
  .next ((s.delayFor s.cfg.stabilizeNs).goPos (afterColumn s.cfg s.pc))

/-- `BLANK` (rule R191). -/
def execBlank (s : State) : Result := .next ((s.portSet (oeMask s.cfg)).goUpc Upc.ROW_SET)

/-- `ROW_SET` (rule R192): raise the row lines that are 1 in `row`. -/
def execRowSet (s : State) : Result :=
  .next ((s.portSet (rowbits s.cfg s.pc.row &&& rowMask s.cfg)).goUpc Upc.ROW_CLR)

/-- `ROW_CLR` (rule R193): lower the row lines that are 0 in `row`. -/
def execRowClr (s : State) : Result :=
  .next ((s.portClr (wordNot s.cfg (rowbits s.cfg s.pc.row) &&& rowMask s.cfg)).goUpc Upc.LAT_SET)

/-- `LAT_SET` (rule R194). -/
def execLatSet (s : State) : Result := .next ((s.portSet (latMask s.cfg)).goUpc Upc.LAT_CLR)

/-- `LAT_CLR` (rule R195). -/
def execLatClr (s : State) : Result := .next ((s.portClr (latMask s.cfg)).goUpc Upc.UNBLANK)

/-- `UNBLANK` (rule R196). -/
def execUnblank (s : State) : Result := .next ((s.portClr (oeMask s.cfg)).goUpc Upc.DWELL)

/-- Where the scan goes after a plane, and the run state it goes on in (rules R26, R197). -/
def afterPlane (s : State) : State :=
  if s.pc.plane + 1 < s.cfg.P then s.goPos ⟨s.pc.row, s.pc.plane + 1, 0, Upc.COL_CLR⟩
  else if s.pc.row + 1 < s.cfg.R then s.goPos ⟨s.pc.row + 1, 0, 0, Upc.ROWCHK⟩
  else
    match s.mode with
    | .cont => s.goPos Pos.origin
    | .oneshot => { s with pc := Pos.origin, run := .idle }

/-- `DWELL` (rule R197): hold the window open for the plane's weight, then advance. -/
def execDwell (s : State) : Result :=
  match (dwellTable s.cfg)[planeSlot s.cfg s.pc.plane]? with
  | some n => .next (afterPlane (s.delayFor n))
  | none => .fault (.noSuchSlot (planeSlot s.cfg s.pc.plane))

end Sys2Proof.Machine
end

