-- ==== Sys2Proof/Machine/Timing.lean ====
section
/-! DEFINITION. The timing primitive as a command (`43_timing.md`): the meaning of `DELAY`, rule R220. -/

namespace Sys2Proof.Machine

/-- `DELAY n` by the host (rule R220), allowed in every run state but `FAILED` (rule R240). After a failed `INIT`
it is refused with every other command (rules R140, R261, D32, U3), unless the configuration follows the table
of rule R240 and vector V-CT12, which allow it there. DESIGN CHOICE, log entry 25. -/
def execDelay (n : Nat) (s : State) : Result :=
  if s.delayAllowed then .next (s.delayFor n) else .refused .failed

end Sys2Proof.Machine
end

