-- ==== Sys2Proof/Machine/Dispatch.lean ====
section
/-! DEFINITION. One arm per operation of the opcode table. -/

namespace Sys2Proof.Machine

/-- What an operation does in a state. -/
def exec (i : Instr) (s : State) : Host.Outcome State Fault Refusal :=
  match i with
  | .rowchk => Sys2Proof.Machine.execRowchk s
  | .colClr => Sys2Proof.Machine.execColClr s
  | .stabA => Sys2Proof.Machine.execStabA s
  | .colSet => Sys2Proof.Machine.execColSet s
  | .stabB => Sys2Proof.Machine.execStabB s
  | .colClk => Sys2Proof.Machine.execColClk s
  | .stabC => Sys2Proof.Machine.execStabC s
  | .blank => Sys2Proof.Machine.execBlank s
  | .rowSet => Sys2Proof.Machine.execRowSet s
  | .rowClr => Sys2Proof.Machine.execRowClr s
  | .latSet => Sys2Proof.Machine.execLatSet s
  | .latClr => Sys2Proof.Machine.execLatClr s
  | .unblank => Sys2Proof.Machine.execUnblank s
  | .dwell => Sys2Proof.Machine.execDwell s
  | .init => Sys2Proof.Machine.execInit s
  | .setupout m => Sys2Proof.Machine.execSetupout m s
  | .setbits m => Sys2Proof.Machine.execSetbits m s
  | .clrbits m => Sys2Proof.Machine.execClrbits m s
  | .setpixel x y color => Sys2Proof.Machine.execSetpixel x y color s
  | .clearbuf => Sys2Proof.Machine.execClearbuf s
  | .start priority => Sys2Proof.Machine.execStart priority s
  | .stop => Sys2Proof.Machine.execStop s
  | .pause => Sys2Proof.Machine.execPause s
  | .resume => Sys2Proof.Machine.execResume s
  | .refreshPass => Sys2Proof.Machine.execRefreshPass s
  | .delay n => Sys2Proof.Machine.execDelay n s

end Sys2Proof.Machine
end

