-- ==== Sys2Proof/Machine/Fetch.lean ====
section
/-! DEFINITION. Which agent moves, and what it fetches (rules R5, R25, R182): the engine the micro-operation
that `upc` names, the host the next access of its operation in progress or else its next command. And how
an operation is put where the next step fetches it. -/

namespace Sys2Proof.Machine

/-- What a step finds to do. -/
inductive Fetched where
  /-- The configuration is outside rule R7. -/
  | misconfigured
  /-- The agent has nothing to do: the engine is not `RUNNING` (rule R182), or the host has issued all its
  commands. -/
  | idle (t : State)
  /-- The host goes on with its operation in progress. -/
  | access (t : State)
  /-- The code or its operands name nothing (rule R116). -/
  | reject (why : Reject)
  /-- An operation, and the state it is executed in. -/
  | operation (i : Instr) (t : State)
  deriving DecidableEq, Repr

namespace State

/-- The agent that moves at the next step (rule R5: any step of either agent may come next): the first of
`turns`, and a free choice where none is given. -/
def mover (s : State) : Agent :=
  match s.turns with
  | a :: _ => a
  | [] => if Config.hostMoves s.tick then .host else .engine

/-- The step is counted and its turn used up. -/
def advance (s : State) : State := { s with turns := s.turns.tail, tick := s.tick + 1 }

/-- The state a command is executed in: it has left the inbox, and the environment's answer to it stands
ready (rule R270). -/
def receive (s : State) (p : Packet) (rest : List Packet) : State :=
  { s.advance with inbox := rest, env := p.answer }

/-- The engine's turn (rules R25, R182). -/
def fetchEngine (s : State) : Fetched :=
  if s.run = .running then
    match decode s.cfg.wordW (.uop s.pc.upc) with
    | .ok i => .operation i s.advance
    | .error why => .reject why
  else .idle s.advance

/-- The host's turn: one operation at a time (rule R5). -/
def fetchHost (s : State) : Fetched :=
  match s.work with
  | _ :: _ => .access s.advance
  | [] =>
    match s.inbox with
    | [] => .idle s.advance
    | p :: rest =>
      match decode s.cfg.wordW (.cmd p.code p.ops) with
      | .ok i => .operation i (s.receive p rest)
      | .error why => .reject why

/-- What the next step finds to do. A configuration that breaks a constraint has no behaviour (rule
R7). -/
def fetch (s : State) : Fetched :=
  if s.cfg.wf then
    match s.mover with
    | .engine => s.fetchEngine
    | .host => s.fetchHost
  else .misconfigured

/-- The engine is running and `upc` holds the code, and it is the engine's turn. -/
def placeUop (s : State) (code : BitVec 4) : State :=
  { s with run := .running, pc := { s.pc with upc := code }, turns := .engine :: s.turns }

/-- The host has no operation in progress, the command is the next it issues, and it is the host's
turn. -/
def placeCmd (s : State) (code : BitVec 4) (ops : List Operand) : State :=
  { s with work := [], inbox := ⟨code, ops, s.env⟩ :: s.inbox, turns := .host :: s.turns }

/-- A table word put where the next step fetches it. A word that is none is put as the reserved command
`1111`, which the fetch refuses. -/
def placeWord (s : State) (w : Nat) : State :=
  match tableWord w with
  | some (.uop code) => s.placeUop code
  | some (.cmd code ops) => s.placeCmd code ops
  | none => s.placeCmd 0b1111#4 []

end State

end Sys2Proof.Machine
end

