-- ==== Sys2Proof/Machine/Step.lean ====
section
/-! DEFINITION. One step of the machine: one step of one agent (rules R5, R13). -/

namespace Sys2Proof.Machine

/-- One step. A hold (rule R13) is a next state in which nothing of the spec's has changed (log entry 19). -/
def step (s : State) : Host.Outcome State Fault Refusal :=
  match s.fetch with
  | .misconfigured => .refused .configRefused
  | .idle t => .next t
  | .access t => workStep t
  | .reject why => .refused (.undecodable why)
  | .operation i t => exec i t

/-- The state with an operation put where the next step fetches it, in the numbering of the opcode table
(log entry 5 says how a program comes to run from reset). -/
def State.withFetchWord (s : State) (_nbits w : Nat) : State := s.placeWord w

end Sys2Proof.Machine
end

