-- ==== Sys2Proof/Safety.lean ====
section
/-! DEFINITION. What the claims are stated in: the invariant of the state, the invariant of the lines while
the engine runs, and the event trace of the document's repaint cycle. -/

namespace Sys2Proof.Machine

/-- A cell of the buffer that exists and in which only colour bits are 1 (rules R41, R60). -/
def cellOk (c : Config) (a : FbAddr) (v : Word) : Prop :=
  a.inRange c = true ∧ v &&& colorMask c = v

/-- A host access in progress that stays inside the buffer and stores colour bits only (rules R64, R165). -/
def HostWork.ok (c : Config) : HostWork → Prop
  | .update a _ _ => a.inRange c = true
  | .store a v => cellOk c a v
  | .clear first others => ∀ a ∈ first :: others, a.inRange c = true

/-- The invariant of the state. -/
structure State.Inv (s : State) : Prop where
  /-- The configuration is admitted (rule R7). -/
  cfg : s.cfg.wf = true
  /-- The frame buffer is in its canonical form. -/
  mem : s.fb.wf = true
  /-- Every listed cell exists, and only its colour bits are 1 (rules R41, R60). -/
  cells : ∀ e ∈ s.fb, cellOk s.cfg e.1 e.2
  /-- The registers hold words of the block's width (rules R10, R100). -/
  outWord : wordFits s.cfg.wordW s.out = true
  cellWord : wordFits s.cfg.wordW s.cell = true
  /-- The counters are below their bounds (rules R21 to R23). -/
  row : s.pc.row < s.cfg.R
  plane : s.pc.plane < s.cfg.P
  col : s.pc.col < s.cfg.C
  /-- `upc` never holds a reserved code (rules R25, R116). -/
  upc : s.pc.upc.toNat < 14
  /-- A row boundary stands at plane 0, column 0 (rules R183, R197). -/
  boundary : s.pc.upc = Upc.ROWCHK → s.pc.plane = 0 ∧ s.pc.col = 0
  /-- During the plane tail `col` is `C - 1` (rule R23). -/
  tail : 7 ≤ s.pc.upc.toNat → s.pc.col + 1 = s.cfg.C
  /-- An engine that does not run stands where the next scan starts (rules R45, R183, R197). -/
  rest : s.run ≠ .running → s.pc = Pos.origin
  /-- Only available lines are configured (rule R37). -/
  dir : s.dir &&& s.cfg.availableMask = s.dir
  /-- A running engine has its lines configured (rule R144). -/
  lines : s.run = .running → s.linesConfigured = true
  /-- `paused` is 1 only while the engine holds at a row boundary in mode `CONT` (rule R31). -/
  paused : s.paused = true → s.run = .running ∧ s.mode = .cont ∧ s.pc.upc = Upc.ROWCHK
  /-- The host's operation in progress stays inside the buffer (rule R64). -/
  work : ∀ w ∈ s.work, w.ok s.cfg

/-- The lines while the engine runs, by the micro-operation that comes next (rules R188, R192 to R196,
R200). -/
structure State.LineInv (s : State) : Prop where
  /-- Blanked from after `BLANK` to `UNBLANK`. -/
  blanked : s.run = .running → 8 ≤ s.pc.upc.toNat → s.pc.upc.toNat ≤ 12 → s.level s.cfg.oeBit = true
  /-- Unblanked at `DWELL`. -/
  lit : s.run = .running → s.pc.upc = Upc.DWELL → s.level s.cfg.oeBit = false
  /-- The clock is low from after `COL_CLR` to `COL_CLK`. -/
  clockLow : s.run = .running → 2 ≤ s.pc.upc.toNat → s.pc.upc.toNat ≤ 5 → s.level s.cfg.clkBit = false
  /-- The clock stays high after `COL_CLK`, through the plane tail. -/
  clockHigh : s.run = .running → 6 ≤ s.pc.upc.toNat → s.pc.upc.toNat ≤ 13 → s.level s.cfg.clkBit = true
  /-- The latch is high between its two writes and low after them. -/
  latchHigh : s.run = .running → s.pc.upc = Upc.LAT_CLR → s.level s.cfg.latBit = true
  latchLow : s.run = .running → 12 ≤ s.pc.upc.toNat → s.pc.upc.toNat ≤ 13 → s.level s.cfg.latBit = false
  /-- The row field equals `row` from after `ROW_CLR` to the end of the tail. -/
  rowAddress : s.run = .running → 10 ≤ s.pc.upc.toNat → s.pc.upc.toNat ≤ 13 →
    rowField s.cfg s.out = s.pc.row

/-! The events of the document's repaint cycle (rules R180, R198), with a frame buffer that does not change
meanwhile. -/

/-- The event of one stabilize delay (rules R185, R225). -/
def stabEvent (c : Config) : Event := .delay c.stabilizeNs (waitFor c c.stabilizeNs)

/-- `COLUMN(r,b,k)` (rules R120, R184 to R189). -/
def columnEvents (c : Config) (fb : Memory) (r b k : Nat) : List Event :=
  [.fbRead ⟨b, r, k⟩ (fb.read ⟨b, r, k⟩), .clr (wordNot c (fb.read ⟨b, r, k⟩) &&& serialMask c), stabEvent c,
   .fbRead ⟨b, r, k⟩ (fb.read ⟨b, r, k⟩), .set (fb.read ⟨b, r, k⟩ &&& serialMask c), stabEvent c,
   .set (clkMask c), stabEvent c]

/-- The event of one dwell (rules R197, R222). -/
def dwellEvent (c : Config) (b : Nat) : Event :=
  .delay (dwellSlot c (planeSlot c b)) (waitFor c (dwellSlot c (planeSlot c b)))

/-- `TAIL(r,b)` (rules R120, R191 to R197). -/
def tailEvents (c : Config) (r b : Nat) : List Event :=
  [.set (oeMask c), .set (rowbits c r &&& rowMask c), .clr (wordNot c (rowbits c r) &&& rowMask c),
   .set (latMask c), .clr (latMask c), .clr (oeMask c), dwellEvent c b]

/-- `PLANE(r,b)` (rule R120). -/
def planeEvents (c : Config) (fb : Memory) (r b : Nat) : List Event :=
  (List.range c.C).flatMap (columnEvents c fb r b) ++ tailEvents c r b

/-- `ROWSCAN(r)` (rule R120). -/
def rowEvents (c : Config) (fb : Memory) (r : Nat) : List Event :=
  .rowChk r .go :: (List.range c.P).flatMap (planeEvents c fb r)

/-- How many events of `COLUMN` are recorded before the micro-operation `upc` of it (rules R184 to R189): a
port write of `COL_CLR` or `COL_SET` comes with the read before it. -/
def columnDone (upc : BitVec 4) : Nat :=
  match upc.toNat with
  | 0 => 0
  | 1 => 0
  | 2 => 2
  | 3 => 3
  | 4 => 5
  | 5 => 6
  | 6 => 7
  | _ => 8

/-- What is left of the row at a position in the middle of it, its micro-operation included (rules R120, R189,
R197): the rest of the column and the columns after it and the tail, or the rest of the tail; then the planes
after it. -/
def rowRest (c : Config) (fb : Memory) (p : Pos) : List Event :=
  (if p.upc.toNat ≤ 6 then
      (columnEvents c fb p.row p.plane p.col).drop (columnDone p.upc) ++
        ((List.range c.C).drop (p.col + 1)).flatMap (columnEvents c fb p.row p.plane) ++
        tailEvents c p.row p.plane
    else (tailEvents c p.row p.plane).drop (p.upc.toNat - 7)) ++
  ((List.range c.P).drop (p.plane + 1)).flatMap (planeEvents c fb p.row)

/-- How many micro-operations are left of the row at a position in the middle of it. -/
def rowRestLength (c : Config) (p : Pos) : Nat :=
  (if p.upc.toNat ≤ 6 then 7 - p.upc.toNat + 6 * (c.C - 1 - p.col) + 7 else 14 - p.upc.toNat) +
    (c.P - 1 - p.plane) * (6 * c.C + 7)

/-- `PASS` (rule R120): one full repaint cycle. -/
def passEvents (c : Config) (fb : Memory) : List Event := (List.range c.R).flatMap (rowEvents c fb)

/-- The number of micro-operations of a pass (rule R198). -/
def passLength (c : Config) : Nat := c.R * (1 + c.P * (6 * c.C + 7))

/-- An event that is a store to the output port (rule R12). -/
def Event.isPortWrite : Event → Bool
  | .set _ => true
  | .clr _ => true
  | .delay _ _ => false
  | .fbRead _ _ => false
  | .rowChk _ _ => false
  | .fbWrite _ _ => false
  | .cmd _ => false

/-- An event that is a frame-buffer read (rule R12). -/
def Event.isFbRead : Event → Bool
  | .fbRead _ _ => true
  | .set _ => false
  | .clr _ => false
  | .delay _ _ => false
  | .rowChk _ _ => false
  | .fbWrite _ _ => false
  | .cmd _ => false

/-- An event that is a delay (rule R12). -/
def Event.isDelay : Event → Bool
  | .delay _ _ => true
  | .set _ => false
  | .clr _ => false
  | .fbRead _ _ => false
  | .rowChk _ _ => false
  | .fbWrite _ _ => false
  | .cmd _ => false

/-- The address that the next access of the host's operation in progress stores to, if it stores at all:
the cell of a write half, or the cell that a clear takes (rules R165, R167). -/
def State.nextStore (s : State) : Option FbAddr :=
  match s.work with
  | [] => none
  | .update _ _ _ :: _ => none
  | .store a _ :: _ => some a
  | .clear first others :: _ => some (takeCell first others (Config.clearPick s.tick)).1

/-! The pseudo-operations of rule R120 that are sequences of commands. -/

/-- `setup`: what the host issues before the engine's rules hold (rules R120, R302). -/
def setupCommands (c : Config) : List Instr := [.init, .setupout (engineMask c)]

/-- The commands of `shutdown`, before the first of which, and after the first and the last, the host
waits until `run` is `IDLE` (rules R120, R246). -/
def shutdownCommands : List Instr := [.stop, .clearbuf, .refreshPass]

end Sys2Proof.Machine
end

