-- ==== Sys2Proof/Certificates/Slice0/Obligations.lean ====
section
/-! DEFINITION. The statements about the machine, each with the rule of the spec it formalises. -/

open Sys2Proof Sys2Proof.Machine

/-! ## Encoding -/

/-- Rules R114, R115: decoding what the encoder writes gives the operation back, with every operand, at every
width of a word in which the operation's masks fit (rules R8, R10). The codes are decisions D21 and D22. -/
def Obligations.DecodeUndoesEncode : Prop :=
  ∀ (w : Nat) (i : Instr), i.fits w = true → decode w (encode i) = .ok i

/-- Rules R109, R114 to R116: at every width of a word (rules R8, R10), the decoder accepts the operations as
the spec lets them be presented and no others, and what it reads is the operation presented, whole: encoding it
gives the presentation back, so no two presentations decode to one operation. The codes are decisions D21 and
D22. That a mask wider than `WORD_W` is refused is the model's choice (log entry 22). -/
def Obligations.DecoderAcceptsExactlyTheWellFormed : Prop :=
  (∀ (w : Nat) (e : Encoded), e.wf w = true ↔ ∃ i, decode w e = .ok i) ∧
  ∀ (w : Nat) (e : Encoded) (i : Instr), decode w e = .ok i → encode i = e

/-- Rule R116: the reserved codes are refused (decision D21), by the decoder and by a step that meets one: the
host's that issues one, whatever stands beside it, and the engine's (in a state that no run reaches, as
`StepKeepsTheInvariant` says). -/
def Obligations.ReservedCodesAreRefused : Prop :=
  (∀ (w : Nat) (u : BitVec 4), 14 ≤ u.toNat → decode w (.uop u) = .error (.reservedUop u)) ∧
  (∀ (w : Nat) (u : BitVec 4) (ops : List Operand), 12 ≤ u.toNat →
    decode w (.cmd u ops) = .error (.reservedCmd u)) ∧
  (∀ (s : State) (p : Packet) (rest : List Packet), s.cfg.wf = true → s.mover = .host → s.work = [] →
    s.inbox = p :: rest → 12 ≤ p.code.toNat → step s = .refused (.undecodable (.reservedCmd p.code))) ∧
  (∀ s : State, s.cfg.wf = true → s.mover = .engine → s.run = .running → 14 ≤ s.pc.upc.toNat →
    step s = .refused (.undecodable (.reservedUop s.pc.upc)))

/-- Rules R114, R115: some codes, written out from the tables (decisions D21, D22), for words of 32 bits. -/
def Obligations.WrittenCodesDecode : Prop :=
  decode 32 (.uop 0b0000#4) = .ok .rowchk ∧ decode 32 (.uop 0b0011#4) = .ok .colSet ∧
  decode 32 (.uop 0b1101#4) = .ok .dwell ∧ decode 32 (.cmd 0b0000#4 []) = .ok .init ∧
  decode 32 (.cmd 0b0001#4 [.hw 0x03C6079C]) = .ok (.setupout 0x03C6079C) ∧
  decode 32 (.cmd 0b0100#4 [.int (-1), .int 40, .color 255 0 128]) =
    .ok (.setpixel (-1) 40 ⟨0xFF#8, 0x00#8, 0x80#8⟩) ∧
  decode 32 (.cmd 0b1010#4 []) = .ok .refreshPass ∧
  decode 32 (.cmd 0b1011#4 [.nat 31000]) = .ok (.delay 31000)

/-! ## The step -/

/-- Rules R5, R25, R182: a step of the engine runs the micro-operation that `upc` names, and a step of the
host runs the command it issues next. Around `exec` the step uses up a turn and counts itself, and hands the
command the environment's answer. -/
def Obligations.StepRunsTheDecodedOperation : Prop :=
  (∀ (s : State) (i : Instr), s.cfg.wf = true → s.mover = .engine → s.run = .running →
    decode s.cfg.wordW (.uop s.pc.upc) = .ok i →
    step s = exec i { s with turns := s.turns.tail, tick := s.tick + 1 }) ∧
  (∀ (s : State) (i : Instr) (p : Packet) (rest : List Packet), s.cfg.wf = true → s.mover = .host →
    s.work = [] → s.inbox = p :: rest → decode s.cfg.wordW (.cmd p.code p.ops) = .ok i →
    step s = exec i { s with turns := s.turns.tail, tick := s.tick + 1, inbox := rest, env := p.answer })

/-- What a step is when it runs no operation. A configuration that breaks a constraint is refused (rule R7),
and a host with an operation in progress goes on with it (rules R5, R67). The rest is the model's own choice:
the rules give an agent that has nothing to do no step at all (rules R5, R13, R182), and here its turn is a
counted next state in which nothing of the spec's has changed (log entries 18 and 19); and that the turns given
are taken in order is log entry 6. -/
def Obligations.StepWithNoOperationToRun : Prop :=
  (∀ (s : State) (a : Agent) (rest : List Agent), s.turns = a :: rest → s.mover = a) ∧
  (∀ s : State, s.cfg.wf = false → step s = .refused .configRefused) ∧
  (∀ s : State, s.cfg.wf = true → s.mover = .engine → s.run ≠ .running →
    step s = .next { s with turns := s.turns.tail, tick := s.tick + 1 }) ∧
  (∀ s : State, s.cfg.wf = true → s.mover = .host → s.work = [] → s.inbox = [] →
    step s = .next { s with turns := s.turns.tail, tick := s.tick + 1 }) ∧
  (∀ s : State, s.cfg.wf = true → s.mover = .host → s.work ≠ [] →
    step s = workStep { s with turns := s.turns.tail, tick := s.tick + 1 })

/-! ## Register primitives -/

/-- Rule R140: `INIT` takes the environment's answer (a latch the step loads, log entry 7), once; a second
one is refused by decision D32. That it is recorded as a `Cmd` event is log entry 11. -/
def Obligations.InitTakesTheEnvironmentsAnswer : Prop :=
  ∀ s : State,
    (s.run = .uninit → exec .init s = .next { s with
      run := if s.env then RunState.idle else RunState.failed
      ret := some (.ok s.env)
      hist := s.hist ++ [.cmd .init] }) ∧
    (s.run ≠ .uninit → exec .init s = .refused .initTwice)

/-- Rule R143: `SETUPOUT` configures and returns exactly the available lines among those requested; outside
`IDLE` it is refused by decision D34. That it is recorded as a `Cmd` event is log entry 11. -/
def Obligations.SetupoutConfiguresAvailableLines : Prop :=
  ∀ (m : Word) (s : State),
    (s.run = .idle → exec (.setupout m) s = .next { s with
      dir := s.dir ||| (m &&& s.cfg.availableMask)
      ret := some (.mask (m &&& s.cfg.availableMask))
      hist := s.hist ++ [.cmd (.setupout m)] }) ∧
    (s.run ≠ .idle → exec (.setupout m) s = .refused .setupInWrongState)

/-- Rule R141: `SETBITS` raises the lines of its mask, keeps the others, and is recorded whatever the mask.
(Of the observer, `ClockShiftsAndLatchCopies` speaks.) -/
def Obligations.SetbitsRaisesItsLines : Prop :=
  ∀ (m : Word) (s : State),
    (s.run = .idle → ∃ p : Panel, exec (.setbits m) s = .next { s with
      out := s.out ||| m
      panel := p
      hist := s.hist ++ [.set m] }) ∧
    (s.run ≠ .idle → exec (.setbits m) s = .refused .portInWrongState)

/-- Rule R142: `CLRBITS` lowers the lines of its mask, keeps the others, and is recorded whatever the mask.
(Of the observer, `ClockShiftsAndLatchCopies` speaks.) -/
def Obligations.ClrbitsLowersItsLines : Prop :=
  ∀ (m : Word) (s : State),
    (s.run = .idle → ∃ p : Panel, exec (.clrbits m) s = .next { s with
      out := s.out &&& wordNot s.cfg m
      panel := p
      hist := s.hist ++ [.clr m] }) ∧
    (s.run ≠ .idle → exec (.clrbits m) s = .refused .portInWrongState)

/-- Rules R65, R142: `SETBITS m` then `CLRBITS m` leaves the lines of `m` low and the reverse leaves them
high, the other lines as they were; and a second write of a mask to a port changes no line. -/
def Obligations.PairsOfPortWrites : Prop :=
  ∀ (m : Word) (s t u : State) (i : Nat), i < s.cfg.wordW →
    (exec (.setbits m) s = .next t → exec (.clrbits m) t = .next u →
      u.level i = (s.level i && !m.testBit i)) ∧
    (exec (.clrbits m) s = .next t → exec (.setbits m) t = .next u →
      u.level i = (s.level i || m.testBit i)) ∧
    (exec (.setbits m) s = .next t → exec (.setbits m) t = .next u → u.level i = t.level i) ∧
    (exec (.clrbits m) s = .next t → exec (.clrbits m) t = .next u → u.level i = t.level i)

/-- Rules R260 to R263: each of the three error kinds is reported by value, exactly when its cause holds. -/
def Obligations.ErrorKindsAreReportedByValue : Prop :=
  (∀ s t : State, exec .init s = .next t →
    (reportedError .init t = some .setupFailure ↔ s.env = false) ∧ (t.run = .failed ↔ s.env = false)) ∧
  (∀ (m : Word) (s t : State), exec (.setupout m) s = .next t →
    (reportedError (.setupout m) t = some .configMismatch ↔
      ∃ i, m.testBit i = true ∧ s.cfg.availableMask.testBit i = false)) ∧
  (∀ (p : Priority) (s t : State), exec (.start p) s = .next t →
    (reportedError (.start p) t = some .priorityDenied ↔ s.env = false) ∧ t.run = .running)

/-- Rules R262, R302: after a successful `INIT`, `SETUPOUT ENGINE_MASK` returns the mask requested, and
`START` then succeeds whatever the environment answers to it. -/
def Obligations.SetupBringsTheEngineUp : Prop :=
  ∀ (s a b : State) (p : Priority) (granted : Bool), s.cfg.wf = true → s.run = .uninit → s.env = true →
    exec .init s = .next a → exec (.setupout (engineMask s.cfg)) a = .next b →
    b.ret = some (.mask (engineMask s.cfg)) ∧
    ∃ t, exec (.start p) { b with env := granted } = .next t ∧ t.run = .running ∧ t.mode = .cont ∧
      t.pc = ⟨0, 0, 0, Upc.ROWCHK⟩ ∧ t.out = s.out ∧ t.fb = s.fb

/-! ## Frame-buffer operations -/

/-- Rule R161: `SETPIXEL` outside the logical area changes nothing and records nothing. -/
def Obligations.SetpixelOutsideTheAreaIsSilent : Prop :=
  ∀ (x y : Int) (color : Color) (s : State), s.run ≠ .failed →
    (x < 0 ∨ s.cfg.W ≤ x ∨ y < 0 ∨ s.cfg.H ≤ y) → exec (.setpixel x y color) s = .next s

/-- Rules R160, R162 to R166: `SETPIXEL` inside the logical area issues one cell update a plane, in
ascending plane order (decision D27), at the folded coordinates. Where the pixel is folded is decision D14,
and which half is sub-row 1 decision D15. -/
def Obligations.SetpixelIssuesAnUpdatePerPlane : Prop :=
  ∀ (x y : Nat) (color : Color) (s : State),
    (s.run ≠ .failed → x < s.cfg.W → y < s.cfg.H → exec (.setpixel x y color) s = .next { s with
      work := s.work ++ (List.range s.cfg.P).map fun b =>
        if 2 * s.cfg.R ≤ y then
          .update ⟨b, (s.cfg.H - 1 - y) % s.cfg.R, s.cfg.C - 1 - x⟩
            (if s.cfg.H - 1 - y < s.cfg.R then .one else .two) (planeBits s.cfg color b)
        else
          .update ⟨b, y % s.cfg.R, x⟩ (if y < s.cfg.R then .one else .two) (planeBits s.cfg color b) }) ∧
    (s.run = .failed → exec (.setpixel x y color) s = .refused .failed)

/-- Rule R162: the fold of decision D14 keeps every pixel in the addressable range, and reproduces the
document's example on `EX64` with `W = 128`: `(x, 40)` is `(127 - x, 23)`. -/
def Obligations.FoldStaysInTheAddressableRange : Prop :=
  (∀ (c : Config) (x y : Nat), c.wf = true → x < c.W → y < c.H →
    (fold c x y).1 < c.C ∧ (fold c x y).2 < 2 * c.R ∧ (y < 2 * c.R → fold c x y = (x, y)) ∧
    (2 * c.R ≤ y → (fold c x y).1 + x + 1 = c.C ∧ (fold c x y).2 + y + 1 = c.H)) ∧
  ∀ x : Nat, x ≤ 127 → fold { Config.ex64 with W := 128 } x 40 = (127 - x, 23)

/-- Rules R110, R111: the reduced channel is the top `P` bits, and plane `b` holds bit `b + 8 - P` of the
8-bit channel. -/
def Obligations.ReducedChannelKeepsTheTopBits : Prop :=
  ∀ (c : Config) (v : BitVec 8), c.wf = true →
    (reduce c v).toNat = v.toNat / 2 ^ (8 - c.P) ∧ (reduce c v).toNat < 2 ^ c.P ∧
    ∀ b, b < c.P → (reduce c v).getLsbD b = v.getLsbD (b + 8 - c.P)

/-- Rule R165: a cell update reads the cell and then writes it, and in what it writes the three fields of
the selected sub-row have the plane's bits and every other bit its old value. -/
def Obligations.CellUpdateOverwritesThreeFields : Prop :=
  (∀ (s : State) (a : FbAddr) (sub : SubRow) (q : PlaneBits) (later : List HostWork),
    s.work = .update a sub q :: later → a.plane < s.cfg.P ∧ a.row < s.cfg.R ∧ a.col < s.cfg.C →
    workStep s = .next { s with
      work := .store a (mergePixel s.cfg sub q (s.fb.read a)) :: later
      hist := s.hist ++ [.fbRead a (s.fb.read a)] }) ∧
  (∀ (s : State) (a : FbAddr) (v : Word) (later : List HostWork),
    s.work = .store a v :: later → a.plane < s.cfg.P ∧ a.row < s.cfg.R ∧ a.col < s.cfg.C →
    workStep s = .next { s with work := later, fb := s.fb.write a v, hist := s.hist ++ [.fbWrite a v] }) ∧
  ∀ (c : Config) (q : PlaneBits) (v : Word), c.wf = true →
    ((mergePixel c .one q v).testBit c.r1Bit = q.r ∧ (mergePixel c .one q v).testBit c.g1Bit = q.g ∧
      (mergePixel c .one q v).testBit c.b1Bit = q.b ∧
      ∀ i, i ≠ c.r1Bit → i ≠ c.g1Bit → i ≠ c.b1Bit → (mergePixel c .one q v).testBit i = v.testBit i) ∧
    ((mergePixel c .two q v).testBit c.r2Bit = q.r ∧ (mergePixel c .two q v).testBit c.g2Bit = q.g ∧
      (mergePixel c .two q v).testBit c.b2Bit = q.b ∧
      ∀ i, i ≠ c.r2Bit → i ≠ c.g2Bit → i ≠ c.b2Bit → (mergePixel c .two q v).testBit i = v.testBit i)

/-- Rule R169: the `P` planes of a field, put together, are the reduced channel that `CHANNEL_MAP` sends to
the field; with the identity map red feeds `R`, green `G` and blue `B` (rule R112). -/
def Obligations.PlanesReadBackTheReducedChannel : Prop :=
  ∀ (c : Config) (color : Color), c.wf = true →
    ((∑ b ∈ Finset.range c.P, (planeBits c color b).r.toNat * 2 ^ b) =
      (channelOf color c.channelMap.toR).toNat / 2 ^ (8 - c.P)) ∧
    ((∑ b ∈ Finset.range c.P, (planeBits c color b).g.toNat * 2 ^ b) =
      (channelOf color c.channelMap.toG).toNat / 2 ^ (8 - c.P)) ∧
    ((∑ b ∈ Finset.range c.P, (planeBits c color b).b.toNat * 2 ^ b) =
      (channelOf color c.channelMap.toB).toNat / 2 ^ (8 - c.P)) ∧
    (c.channelMap = .identity → channelOf color c.channelMap.toR = color.red ∧
      channelOf color c.channelMap.toG = color.green ∧ channelOf color c.channelMap.toB = color.blue)

/-- Rules R160, R165, R166: after `SETPIXEL` and the `2 P` accesses it issues, every cell of the pixel holds
the plane's bits in the pixel's fields and every other cell what it held, and no line, register, flag or
position has changed. (The history has, as `CellUpdateOverwritesThreeFields` says.) -/
def Obligations.SetpixelRunsToItsCells : Prop :=
  ∀ (x y : Nat) (color : Color) (s t : State) (rest : List Agent), s.Inv → s.work = [] →
    x < s.cfg.W → y < s.cfg.H → exec (.setpixel x y color) s = .next t →
    t.turns = List.replicate (2 * s.cfg.P) .host ++ rest →
    ∃ u, Host.Core.run Sys2Proof.core (2 * s.cfg.P) t = .next u ∧ u.work = [] ∧ u.turns = rest ∧
      u.out = s.out ∧ u.dir = s.dir ∧ u.pc = s.pc ∧ u.cell = s.cell ∧ u.run = s.run ∧ u.mode = s.mode ∧
      u.stopReq = s.stopReq ∧ u.pauseReq = s.pauseReq ∧ u.paused = s.paused ∧
      u.prioDenied = s.prioDenied ∧ u.panel = s.panel ∧ u.ret = s.ret ∧ u.cfg = s.cfg ∧
      ∀ a : FbAddr, u.fb.read a =
        if a.plane < s.cfg.P ∧ a.row = (fold s.cfg x y).2 % s.cfg.R ∧ a.col = (fold s.cfg x y).1 then
          mergePixel s.cfg (pixelSub s.cfg (fold s.cfg x y).2) (planeBits s.cfg color a.plane) (s.fb.read a)
        else s.fb.read a

/-- Rule R167: `CLEARBUF` issues the clearing of every cell of the buffer, each once, and each access of it
takes one of the cells left, whichever, and writes 0 to it (decision D13: in any order, not atomic). -/
def Obligations.ClearbufIssuesEveryCellOnce : Prop :=
  (∀ s : State,
    (s.run ≠ .failed → s.cfg.wf = true → ∃ first others, exec .clearbuf s = .next { s with
      work := s.work ++ [.clear first others] } ∧ (first :: others).Nodup ∧
      ∀ a : FbAddr, a ∈ first :: others ↔ a.plane < s.cfg.P ∧ a.row < s.cfg.R ∧ a.col < s.cfg.C) ∧
    (s.run = .failed → exec .clearbuf s = .refused .failed)) ∧
  ∀ (s : State) (first : FbAddr) (others : List FbAddr) (later : List HostWork),
    s.work = .clear first others :: later →
    (∀ a ∈ first :: others, a.plane < s.cfg.P ∧ a.row < s.cfg.R ∧ a.col < s.cfg.C) →
    ∃ a left, (a :: left).Perm (first :: others) ∧ workStep s = .next { s with
      work := match left with
        | [] => later
        | b :: more => .clear b more :: later
      fb := s.fb.write a 0
      hist := s.hist ++ [.fbWrite a 0] }

/-- Rule R167: "When it returns, every cell is 0", and no line, register, flag or position has changed; the
history has one event more for each cell. -/
def Obligations.ClearbufRunsToAnEmptyBuffer : Prop :=
  ∀ (s t : State) (rest : List Agent), s.Inv → s.work = [] → exec .clearbuf s = .next t →
    t.turns = List.replicate (s.cfg.P * s.cfg.R * s.cfg.C) .host ++ rest →
    ∃ u, Host.Core.run Sys2Proof.core (s.cfg.P * s.cfg.R * s.cfg.C) t = .next u ∧ u.work = [] ∧
      u.turns = rest ∧ u.out = s.out ∧ u.dir = s.dir ∧ u.pc = s.pc ∧ u.cell = s.cell ∧ u.run = s.run ∧
      u.mode = s.mode ∧ u.stopReq = s.stopReq ∧ u.pauseReq = s.pauseReq ∧ u.paused = s.paused ∧
      u.prioDenied = s.prioDenied ∧ u.panel = s.panel ∧ u.ret = s.ret ∧ u.cfg = s.cfg ∧
      (∀ a : FbAddr, u.fb.read a = 0) ∧
      u.hist.length = s.hist.length + s.cfg.P * s.cfg.R * s.cfg.C

/-- Rules R66, R71 (decision D12): a cell reads as what was last written to it and every other cell as
before. The model's canonical form (log entry 15) is kept, and buffers that read alike are equal data. -/
def Obligations.CellsReadBackWhatWasWritten : Prop :=
  (∀ (m : Memory) (a b : FbAddr) (v : Word), m.wf = true →
    (m.write a v).wf = true ∧ (m.write a v).read b = if b = a then v else m.read b) ∧
  ∀ m m' : Memory, m.wf = true → m'.wf = true → (∀ a, m.read a = m'.read a) → m = m'

/-! ## The scan sequence -/

/-- Rules R183, R265, R266: `ROWCHK` samples the requests in mode `CONT` only, the stop first. The pause,
the precedence of the stop and the masking in mode `ONESHOT` are decisions D7, D8 and D9. -/
def Obligations.RowchkSamplesTheRequests : Prop :=
  ∀ s : State,
    (s.mode = .cont → s.stopReq = true → exec .rowchk s = .next { s with
      paused := false, run := .idle, pc := ⟨0, 0, 0, Upc.ROWCHK⟩
      hist := s.hist ++ [.rowChk s.pc.row .stopped] }) ∧
    (s.mode = .cont → s.stopReq = false → s.pauseReq = true → s.paused = false →
      exec .rowchk s = .next { s with
        paused := true
        hist := s.hist ++ [.rowChk s.pc.row .paused] }) ∧
    (s.mode = .cont → s.stopReq = false → s.pauseReq = true → s.paused = true →
      exec .rowchk s = .next s) ∧
    (s.mode = .oneshot ∨ (s.stopReq = false ∧ s.pauseReq = false) → exec .rowchk s = .next { s with
      paused := false, pc := ⟨s.pc.row, 0, 0, Upc.COL_CLR⟩
      hist := s.hist ++ [.rowChk s.pc.row .go] })

/-- Rules R184, R186: `COL_CLR` and `COL_SET` each load the cell of `(plane, row, col)` and write the clear,
or the set, port with the mask made of it. The position is inside the buffer; of one that is not,
`AccessesOutsideTheSpacesStop` speaks. (Of the observer, `ClockShiftsAndLatchCopies` speaks.) -/
def Obligations.ColumnWritesFollowTheCell : Prop :=
  ∀ (s : State) (v m : Word), s.pc.plane < s.cfg.P → s.pc.row < s.cfg.R → s.pc.col < s.cfg.C →
    v = s.fb.read ⟨s.pc.plane, s.pc.row, s.pc.col⟩ →
    (m = wordNot s.cfg v &&& serialMask s.cfg → ∃ p : Panel, exec .colClr s = .next { s with
      cell := v, out := s.out &&& wordNot s.cfg m, panel := p
      pc := ⟨s.pc.row, s.pc.plane, s.pc.col, Upc.STAB_A⟩
      hist := s.hist ++ [.fbRead ⟨s.pc.plane, s.pc.row, s.pc.col⟩ v] ++ [.clr m] }) ∧
    (m = v &&& serialMask s.cfg → ∃ p : Panel, exec .colSet s = .next { s with
      cell := v, out := s.out ||| m, panel := p
      pc := ⟨s.pc.row, s.pc.plane, s.pc.col, Upc.STAB_B⟩
      hist := s.hist ++ [.fbRead ⟨s.pc.plane, s.pc.row, s.pc.col⟩ v] ++ [.set m] })

/-- The model's own choice (log entry 14): an access to a cell or a table slot that does not exist stops by
name. The spec says that none can occur (rules R39, R64), and `InvariantStatesNeverFault` that none does. -/
def Obligations.AccessesOutsideTheSpacesStop : Prop :=
  (∀ s : State, ¬ (s.pc.plane < s.cfg.P ∧ s.pc.row < s.cfg.R ∧ s.pc.col < s.cfg.C) →
    exec .colClr s = .fault (.noSuchCell ⟨s.pc.plane, s.pc.row, s.pc.col⟩) ∧
    exec .colSet s = .fault (.noSuchCell ⟨s.pc.plane, s.pc.row, s.pc.col⟩)) ∧
  (∀ s : State, s.cfg.P ≤ s.pc.plane →
    exec .dwell s = .fault (.noSuchSlot (s.pc.plane + 7 - s.cfg.P))) ∧
  (∀ (s : State) (a : FbAddr) (sub : SubRow) (q : PlaneBits) (v : Word) (later : List HostWork),
    ¬ (a.plane < s.cfg.P ∧ a.row < s.cfg.R ∧ a.col < s.cfg.C) →
    s.work = .update a sub q :: later ∨ s.work = .store a v :: later →
    workStep s = .fault (.noSuchCell a)) ∧
  ∀ (s : State) (first : FbAddr) (others : List FbAddr) (later : List HostWork),
    s.work = .clear first others :: later →
    (∀ a ∈ first :: others, ¬ (a.plane < s.cfg.P ∧ a.row < s.cfg.R ∧ a.col < s.cfg.C)) →
    ∃ a ∈ first :: others, workStep s = .fault (.noSuchCell a)

/-- Rules R185, R187, R189: the three stabilize delays, at the sites of decision D17, and the column advance
of the third. -/
def Obligations.StabilizeDelaysAdvance : Prop :=
  ∀ s : State,
    exec .stabA s = .next { s with
      pc := ⟨s.pc.row, s.pc.plane, s.pc.col, Upc.COL_SET⟩
      hist := s.hist ++ [.delay s.cfg.stabilizeNs (waitFor s.cfg s.cfg.stabilizeNs)] } ∧
    exec .stabB s = .next { s with
      pc := ⟨s.pc.row, s.pc.plane, s.pc.col, Upc.COL_CLK⟩
      hist := s.hist ++ [.delay s.cfg.stabilizeNs (waitFor s.cfg s.cfg.stabilizeNs)] } ∧
    exec .stabC s = .next { s with
      pc := if s.pc.col + 1 < s.cfg.C then ⟨s.pc.row, s.pc.plane, s.pc.col + 1, Upc.COL_CLR⟩
        else ⟨s.pc.row, s.pc.plane, s.pc.col, Upc.BLANK⟩
      hist := s.hist ++ [.delay s.cfg.stabilizeNs (waitFor s.cfg s.cfg.stabilizeNs)] }

/-- Rules R191, R194, R195, R196, and of R188, R192, R193 what the micro-operation itself does: the seven
micro-operations that write a port with a constant mask or with the row bits. (Of the observer,
`ClockShiftsAndLatchCopies` speaks.) -/
def Obligations.ConstantPortWritesOfTheEngine : Prop :=
  (∀ (i : Instr) (m : Word) (next : BitVec 4) (s : State),
    (i, m, next) ∈ [(Instr.colClk, clkMask s.cfg, Upc.STAB_C), (.blank, oeMask s.cfg, Upc.ROW_SET),
      (.rowSet, rowbits s.cfg s.pc.row &&& rowMask s.cfg, Upc.ROW_CLR),
      (.latSet, latMask s.cfg, Upc.LAT_CLR)] →
    ∃ p : Panel, exec i s = .next { s with
      out := s.out ||| m, panel := p
      pc := ⟨s.pc.row, s.pc.plane, s.pc.col, next⟩
      hist := s.hist ++ [.set m] }) ∧
  ∀ (i : Instr) (m : Word) (next : BitVec 4) (s : State),
    (i, m, next) ∈ [(Instr.rowClr, wordNot s.cfg (rowbits s.cfg s.pc.row) &&& rowMask s.cfg, Upc.LAT_SET),
      (.latClr, latMask s.cfg, Upc.UNBLANK), (.unblank, oeMask s.cfg, Upc.DWELL)] →
    ∃ p : Panel, exec i s = .next { s with
      out := s.out &&& wordNot s.cfg m, panel := p
      pc := ⟨s.pc.row, s.pc.plane, s.pc.col, next⟩
      hist := s.hist ++ [.clr m] }

/-- Rule R197: `DWELL` asks for the plane's dwell and then advances the plane, the row or the pass, and ends
the pass in mode `ONESHOT`. The plane is one of the buffer's; of one that is not,
`AccessesOutsideTheSpacesStop` speaks. (Of how the time is spent, `DelayRecordsTheRequest` speaks.) -/
def Obligations.DwellWaitsThenAdvances : Prop :=
  ∀ (s : State) (n : Nat), s.cfg.wf = true → s.pc.plane < s.cfg.P →
    n = 2 ^ (s.pc.plane + 7 - s.cfg.P) * s.cfg.rowClockTime - s.cfg.rowClockTime →
    ∃ how : Wait, exec .dwell s = .next { s with
      hist := s.hist ++ [.delay n how]
      run := if s.pc.plane + 1 < s.cfg.P ∨ s.pc.row + 1 < s.cfg.R ∨ s.mode = .cont then s.run
        else .idle
      pc := if s.pc.plane + 1 < s.cfg.P then ⟨s.pc.row, s.pc.plane + 1, 0, Upc.COL_CLR⟩
        else if s.pc.row + 1 < s.cfg.R then ⟨s.pc.row + 1, 0, 0, Upc.ROWCHK⟩
        else ⟨0, 0, 0, Upc.ROWCHK⟩ }

/-- Rule R190: what a column step leaves on a colour line, from the two values read, which may differ. -/
def Obligations.ColumnStepLeavesTheLines : Prop :=
  ∀ (s t u v : State) (i : Nat), s.cfg.wf = true → exec .colClr s = .next t → u.cfg = s.cfg →
    u.out = t.out → exec .colSet u = .next v → i ∈ s.cfg.colorLines →
    v.level i = (v.cell.testBit i || (t.cell.testBit i && s.level i)) ∧
    (v.cell = t.cell → v.level i = v.cell.testBit i)

/-- Rules R107, R193: `ROW_SET` then `ROW_CLR` leave `row` in the `ROW` field whatever it held; the bits
cleared are those of the complement. -/
def Obligations.RowWritesSetTheRowField : Prop :=
  (∀ s t u : State, s.cfg.wf = true → s.pc.row < s.cfg.R → exec .rowSet s = .next t →
    exec .rowClr t = .next u → rowField s.cfg u.out = s.pc.row ∧
    ∀ i, i < s.cfg.wordW → i ∉ s.cfg.rowLines → u.level i = s.level i) ∧
  ∀ (c : Config) (r : Nat), c.wf = true → r < 16 →
    rowbits c r &&& rowMask c = rowbits c r ∧ wordNot c (rowbits c r) &&& rowMask c = rowbits c (15 - r)

/-- Rules R77, R182, R201: the frame of the fourteen micro-operations. None changes a cell of the buffer, a
request, the mode, a line outside `ENGINE_MASK` or anything of the host's; the other lines and the observer
change only by a port write, `cell` only by a read, and `run` and `paused` only as `ROWCHK` and `DWELL` say.
-/
def Obligations.EngineFrame : Prop :=
  ∀ (i : Instr) (s t : State), i.isUop = true → exec i s = .next t →
    (∀ a : FbAddr, t.fb.read a = s.fb.read a) ∧ t.fb = s.fb ∧ t.cfg = s.cfg ∧ t.dir = s.dir ∧
    t.mode = s.mode ∧ t.stopReq = s.stopReq ∧ t.pauseReq = s.pauseReq ∧ t.prioDenied = s.prioDenied ∧
    t.ret = s.ret ∧ t.env = s.env ∧ t.work = s.work ∧ t.inbox = s.inbox ∧ t.turns = s.turns ∧
    t.tick = s.tick ∧
    t.out &&& wordNot s.cfg (engineMask s.cfg) = s.out &&& wordNot s.cfg (engineMask s.cfg) ∧
    (i ≠ .colClr → i ≠ .colSet → t.cell = s.cell) ∧ (i ≠ .rowchk → t.paused = s.paused) ∧
    (i ≠ .rowchk → i ≠ .dwell → t.run = s.run) ∧
    (i ∈ [Instr.rowchk, .stabA, .stabB, .stabC, .dwell] → t.out = s.out ∧ t.panel = s.panel)

/-- Rules R140 to R143, R160, R167, R220, R240 to R245: the frame of the twelve commands. A command changes
no cell at once (the accesses of `SETPIXEL` and `CLEARBUF` are steps of their own), and each register only
where its rule writes it. -/
def Obligations.CommandFrame : Prop :=
  ∀ (i : Instr) (s t : State), i.isUop = false → exec i s = .next t →
    (∀ a : FbAddr, t.fb.read a = s.fb.read a) ∧ t.fb = s.fb ∧ t.cfg = s.cfg ∧ t.cell = s.cell ∧
    t.env = s.env ∧ t.inbox = s.inbox ∧ t.turns = s.turns ∧ t.tick = s.tick ∧
    ((∀ m, i ≠ .setbits m) → (∀ m, i ≠ .clrbits m) → t.out = s.out ∧ t.panel = s.panel) ∧
    ((∀ m, i ≠ .setupout m) → t.dir = s.dir ∧ (i ≠ .init → t.ret = s.ret)) ∧
    ((∀ x y c, i ≠ .setpixel x y c) → i ≠ .clearbuf → t.work = s.work) ∧
    ((∀ p, i ≠ .start p) → t.prioDenied = s.prioDenied ∧ (i ≠ .stop → t.stopReq = s.stopReq) ∧
      (i ≠ .pause → i ≠ .resume → t.pauseReq = s.pauseReq) ∧
      (i ≠ .refreshPass → t.pc = s.pc ∧ t.mode = s.mode ∧ t.paused = s.paused ∧
        (i ≠ .init → t.run = s.run)))

/-- Rules R66, R165, R167: the frame of one access of the host's operation in progress. It changes the
operation, the history, and at most the cell it stores to. -/
def Obligations.AccessFrame : Prop :=
  ∀ s t : State, s.Inv → workStep s = .next t →
    t = { s with work := t.work, fb := t.fb, hist := t.hist } ∧
    ∀ a : FbAddr, s.nextStore ≠ some a → t.fb.read a = s.fb.read a

/-- Rules R188, R192 to R196, R200: every step keeps the invariant of the lines. -/
def Obligations.StepKeepsTheLineInvariant : Prop :=
  ∀ s t : State, s.Inv → s.LineInv → step s = .next t → t.LineInv

/-- Rule R200: while the engine runs, the row address and the latch change only while the panel is blanked,
before and after the step. -/
def Obligations.RowAndLatchChangeOnlyWhileBlanked : Prop :=
  ∀ (s t : State) (i : Nat), s.Inv → s.LineInv → s.run = .running → step s = .next t →
    i ∈ s.cfg.latBit :: s.cfg.rowLines → t.level i ≠ s.level i →
    s.level s.cfg.oeBit = true ∧ t.level s.cfg.oeBit = true

/-- Rules R42, R81, R82, R188: the panel sees every change of `OUT` and nothing else; each `COL_CLK` is a
rising edge that shifts one sample into it, and the latch pulse copies the last `C` samples. The register's
length is decision D31; at which edge of the pulse it copies is the model's choice (log entry 12). -/
def Obligations.ClockShiftsAndLatchCopies : Prop :=
  (∀ s t : State, s.Inv → s.LineInv → s.run = .running → s.mover = .engine → s.pc.upc = Upc.COL_CLK →
    step s = .next t →
    s.level s.cfg.clkBit = false ∧ t.level s.cfg.clkBit = true ∧
    t.panel.shift = lastSamples s.cfg.C (s.panel.shift ++ [sampleOf s.cfg s.out]) ∧
    t.panel.latched = s.panel.latched) ∧
  (∀ s t u : State, s.cfg.wf = true → exec .latSet s = .next t → exec .latClr t = .next u →
    u.panel.latched = lastSamples s.cfg.C s.panel.shift ∧ u.panel.shift = s.panel.shift) ∧
  ∀ (i : Instr) (s t : State), exec i s = .next t → t.panel = s.panel.observe s.cfg s.out t.out

/-- Rules R83, R84: a blanked panel shows nothing; an unblanked one shows, for each sample of its output
register, one LED of each sub-panel on the addressed row. -/
def Obligations.PanelShowsTheAddressedRow : Prop :=
  ∀ s : State,
    (s.level s.cfg.oeBit = true → s.shown = []) ∧
    (s.level s.cfg.oeBit = false → s.shown.length = 2 * s.panel.latched.length ∧
      (∀ led ∈ s.shown, led.row = rowField s.cfg s.out) ∧
      ∀ (k : Nat) (q : Sample), s.panel.latched[k]? = some q →
        ⟨.one, rowField s.cfg s.out, Config.ledColumn k, q.r1, q.g1, q.b1⟩ ∈ s.shown ∧
        ⟨.two, rowField s.cfg s.out, Config.ledColumn k, q.r2, q.g2, q.b2⟩ ∈ s.shown)

/-! ## Whole scans -/

/-- Rules R182, R183, R189, R197, S6: a row in flight is scanned to its end from wherever it stands, all the
planes and dwells left of it, whatever requests stand; they stand unread, and the engine is then at the next row
boundary (in mode `ONESHOT`, after the last row, it has ended). -/
def Obligations.RowInFlightFinishes : Prop :=
  ∀ (s : State) (rest : List Agent), s.Inv → s.run = .running → s.pc.upc ≠ Upc.ROWCHK →
    s.turns = List.replicate (rowRestLength s.cfg s.pc) .engine ++ rest →
    ∃ t, Host.Core.run Sys2Proof.core (rowRestLength s.cfg s.pc) s = .next t ∧
      t.hist = s.hist ++ rowRest s.cfg s.fb s.pc ∧ t.turns = rest ∧ t.fb = s.fb ∧ t.mode = s.mode ∧
      t.stopReq = s.stopReq ∧ t.pauseReq = s.pauseReq ∧
      t.run = (if s.pc.row + 1 < s.cfg.R ∨ s.mode = .cont then .running else .idle) ∧
      t.pc = if s.pc.row + 1 < s.cfg.R then ⟨s.pc.row + 1, 0, 0, Upc.ROWCHK⟩ else ⟨0, 0, 0, Upc.ROWCHK⟩

/-- Rules R180, R198, R199, R245: one pass is the document's repaint cycle. Run alone from the start of a
pass in mode `ONESHOT`, the engine takes `R (1 + P (6 C + 7))` steps, its events are exactly those of the
loop nest over rows, planes and columns, and it ends in `IDLE` at the origin. -/
def Obligations.OnePassIsTheRepaintCycle : Prop :=
  ∀ (s : State) (rest : List Agent), s.Inv → s.run = .running → s.mode = .oneshot →
    s.pc = ⟨0, 0, 0, Upc.ROWCHK⟩ → s.turns = List.replicate (passLength s.cfg) .engine ++ rest →
    ∃ t, Host.Core.run Sys2Proof.core (passLength s.cfg) s = .next t ∧
      t.hist = s.hist ++ passEvents s.cfg s.fb ∧ t.run = .idle ∧ t.pc = ⟨0, 0, 0, Upc.ROWCHK⟩ ∧
      t.fb = s.fb ∧ t.turns = rest ∧
      t.out &&& wordNot s.cfg (engineMask s.cfg) = s.out &&& wordNot s.cfg (engineMask s.cfg)

/-- Rule R198: the counts of a pass. -/
def Obligations.CountsOfAPass : Prop :=
  ∀ (c : Config) (fb : Memory),
    ((passEvents c fb).filter Event.isPortWrite).length = c.R * c.P * (3 * c.C + 6) ∧
    ((passEvents c fb).filter Event.isFbRead).length = 2 * c.R * c.P * c.C ∧
    ((passEvents c fb).filter Event.isDelay).length = c.R * c.P + 3 * c.R * c.P * c.C

/-- Rules R246, R202: a pass over an empty buffer, the last step of the shutdown sequence, leaves the panel
dark although it is unblanked: the output register holds zeros, and the lines are the ones the rule gives,
whatever they were before. What the panel shows rests on the informative rules R80 to R84. -/
def Obligations.EmptyPassLeavesThePanelDark : Prop :=
  ∀ (s : State) (rest : List Agent), s.Inv → s.run = .running → s.mode = .oneshot →
    s.pc = ⟨0, 0, 0, Upc.ROWCHK⟩ → (∀ a : FbAddr, s.fb.read a = 0) →
    s.turns = List.replicate (passLength s.cfg) .engine ++ rest →
    ∃ t, Host.Core.run Sys2Proof.core (passLength s.cfg) s = .next t ∧ t.run = .idle ∧
      t.out &&& engineMask s.cfg = clkMask s.cfg ||| rowbits s.cfg (s.cfg.R - 1) ∧
      t.panel.latched = List.replicate s.cfg.C ⟨false, false, false, false, false, false⟩ ∧
      t.shown.length = 2 * s.cfg.C ∧ ∀ led ∈ t.shown, led.r = false ∧ led.g = false ∧ led.b = false

/-- Rules R199, R202: a pass forgets the lines it started from. Run from two states that differ in `OUT` and
the observer only, it has the same events and ends with the same engine lines, and the lines outside
`ENGINE_MASK` are left as they were. -/
def Obligations.PassForgetsTheLinesItStartedFrom : Prop :=
  ∀ (s : State) (w : Word) (p : Panel) (rest : List Agent), s.Inv → s.run = .running → s.mode = .oneshot →
    s.pc = ⟨0, 0, 0, Upc.ROWCHK⟩ → s.turns = List.replicate (passLength s.cfg) .engine ++ rest →
    ∃ t u, Host.Core.run Sys2Proof.core (passLength s.cfg) s = .next t ∧
      Host.Core.run Sys2Proof.core (passLength s.cfg) { s with out := w, panel := p } = .next u ∧
      u.hist = t.hist ∧ u.out &&& engineMask s.cfg = t.out &&& engineMask s.cfg ∧
      u.out &&& wordNot s.cfg (engineMask s.cfg) = w &&& wordNot s.cfg (engineMask s.cfg)

/-- Rules R183, R242, R267: a stop takes effect within one row. Whatever the position, a running engine in
mode `CONT` with a stop pending terminates within `P (6 C + 7) + 1` of its own steps. -/
def Obligations.StopTakesEffectWithinARow : Prop :=
  ∀ (s : State) (rest : List Agent), s.Inv → s.run = .running → s.mode = .cont → s.stopReq = true →
    s.turns = List.replicate (s.cfg.P * (6 * s.cfg.C + 7) + 1) .engine ++ rest →
    ∃ n t, n ≤ s.cfg.P * (6 * s.cfg.C + 7) + 1 ∧ Host.Core.run Sys2Proof.core n s = .next t ∧
      t.run = .idle ∧ t.pc = ⟨0, 0, 0, Upc.ROWCHK⟩ ∧ t.paused = false ∧ t.stopReq = true ∧ t.fb = s.fb

/-- Rules R73, R183, R244, R268: a paused engine reads nothing and writes nothing, however many turns it is
given, until the host acts; after `RESUME` it goes on with the row it was about to start. -/
def Obligations.PausedEngineHoldsUntilResumed : Prop :=
  (∀ (s : State) (n : Nat), s.Inv → s.paused = true → s.pauseReq = true → s.stopReq = false →
    s.turns = List.replicate n .engine →
    Host.Core.run Sys2Proof.core n s = .next { s with turns := [], tick := s.tick + n }) ∧
  (∀ s t u : State, s.Inv → s.paused = true → s.stopReq = false → exec .resume s = .next t →
    exec .rowchk t = .next u →
    u.paused = false ∧ u.run = .running ∧ u.pc = ⟨s.pc.row, 0, 0, Upc.COL_CLR⟩ ∧ u.out = s.out ∧
    u.fb = s.fb)

/-- Rule R85: after the column steps of a plane and its tail, with no host write between, the panel's output
register holds the colour fields of the plane's row of cells, in column order, the row address is `row`, and
the panel is unblanked. -/
def Obligations.PlaneTailLatchesThePlane : Prop :=
  ∀ (s : State) (rest : List Agent), s.Inv → s.LineInv → s.run = .running → s.pc.upc = Upc.COL_CLR →
    s.pc.col = 0 → s.turns = List.replicate (6 * s.cfg.C + 6) .engine ++ rest →
    ∃ t, Host.Core.run Sys2Proof.core (6 * s.cfg.C + 6) s = .next t ∧ t.pc.upc = Upc.DWELL ∧
      t.panel.latched = (List.range s.cfg.C).map
        (fun k => sampleOf s.cfg (s.fb.read ⟨s.pc.plane, s.pc.row, k⟩)) ∧
      rowField s.cfg t.out = s.pc.row ∧ t.level s.cfg.oeBit = false

/-! ## Timing -/

/-- Rule R220: `DELAY` records the request and changes nothing else; it sleeps above the threshold and spins at or
below it (decision D18 for the threshold itself). How many iterations a busy-wait takes is a free value (log
entry 9). It has this effect in every run state but `FAILED`; after a failed `INIT` it is refused or has it as the
configuration says, a parameter by which the model covers both things that the spec says there (log entry 25).
-/
def Obligations.DelayRecordsTheRequest : Prop :=
  (∀ (n : Nat) (s : State), s.run ≠ .failed ∨ s.cfg.delayWhenFailed = true →
    exec (.delay n) s = .next { s with hist := s.hist ++ [.delay n (waitFor s.cfg n)] }) ∧
  (∀ (n : Nat) (s : State), s.run = .failed → s.cfg.delayWhenFailed = false →
    exec (.delay n) s = .refused .failed) ∧
  (∀ (c : Config) (n : Nat), c.delayThresholdNs < n → waitFor c n = .sleep (n - c.sleepOvershootNs)) ∧
  (∀ (c : Config) (n : Nat), n ≤ c.delayThresholdNs → n ≠ 0 → waitFor c n = .spin (Config.spinIters n)) ∧
  (∀ c : Config, waitFor c 0 = .spin 0)

/-- Rules R221, R223: the dwell table has seven slots, `(2^k - 1) * T`; each is twice the one before plus
`T`, by slot and by plane, and the table is strictly increasing. -/
def Obligations.DwellTableDoubles : Prop :=
  ∀ c : Config, (dwellTable c).length = 7 ∧
    (∀ k, k < 7 → (dwellTable c)[k]? = some ((2 ^ k - 1) * c.rowClockTime)) ∧
    (∀ k, dwellSlot c (k + 1) = 2 * dwellSlot c k + c.rowClockTime) ∧
    (c.wf = true → ∀ k, dwellSlot c k < dwellSlot c (k + 1)) ∧
    (c.wf = true → ∀ b, b + 1 < c.P →
      dwellSlot c (planeSlot c (b + 1)) = 2 * dwellSlot c (planeSlot c b) + c.rowClockTime)

/-- Rule R222: plane `b` uses slot `b + 7 - P`, so the most significant plane uses slot 6 and the least
significant slot `7 - P`, and the dwells of a row add up as the rule says. -/
def Obligations.PlanesUseTheHighSlots : Prop :=
  ∀ c : Config, c.wf = true →
    (∀ b, b < c.P → planeSlot c b ≤ 6 ∧ planeSlot c b + c.P = b + 7) ∧
    planeSlot c (c.P - 1) = 6 ∧ planeSlot c 0 = 7 - c.P ∧
    ∀ T, T = c.rowClockTime → (∑ b ∈ Finset.range c.P, dwellSlot c (planeSlot c b)) =
      (2 ^ 7 - 2 ^ (7 - c.P)) * T - c.P * T

/-! ## Control commands -/

/-- Rules R240, R241: `START`. Where a start begins and the check of the lines are decisions D10 and D26,
and that it is recorded as a `Cmd` event is log entry 11. -/
def Obligations.StartEntersTheScan : Prop :=
  ∀ (p : Priority) (s : State),
    (s.run = .idle → s.dir &&& engineMask s.cfg = engineMask s.cfg → exec (.start p) s = .next { s with
      stopReq := false, pauseReq := false, paused := false, prioDenied := !s.env, mode := .cont
      pc := ⟨0, 0, 0, Upc.ROWCHK⟩, run := .running, hist := s.hist ++ [.cmd (.start p)] }) ∧
    (s.run = .idle → s.dir &&& engineMask s.cfg ≠ engineMask s.cfg →
      exec (.start p) s = .refused .linesNotConfigured) ∧
    (s.run ≠ .idle → exec (.start p) s = .refused .startInWrongState)

/-- Rules R240, R242 to R244: `STOP`, `PAUSE` and `RESUME` write their request flag and nothing else, when
the machine is set up (decisions D7, D10, D30); the `Cmd` events are log entry 11. -/
def Obligations.RequestsWriteTheirFlag : Prop :=
  ∀ s : State,
    (s.run = .idle ∨ s.run = .running →
      exec .stop s = .next { s with stopReq := true, hist := s.hist ++ [.cmd .stop] } ∧
      exec .pause s = .next { s with pauseReq := true, hist := s.hist ++ [.cmd .pause] } ∧
      exec .resume s = .next { s with pauseReq := false, hist := s.hist ++ [.cmd .resume] }) ∧
    (s.run = .uninit ∨ s.run = .failed → exec .stop s = .refused .stopInWrongState ∧
      exec .pause s = .refused .pauseInWrongState ∧ exec .resume s = .refused .resumeInWrongState)

/-- Rules R240, R245: `REFRESH_PASS`, the one pass of decision D9, which leaves the requests as they stand;
the check of the lines is decision D26, the `Cmd` event log entry 11. -/
def Obligations.RefreshPassEntersOnePass : Prop :=
  ∀ s : State,
    (s.run = .idle → s.dir &&& engineMask s.cfg = engineMask s.cfg → exec .refreshPass s = .next { s with
      paused := false, mode := .oneshot, pc := ⟨0, 0, 0, Upc.ROWCHK⟩, run := .running
      hist := s.hist ++ [.cmd .refreshPass] }) ∧
    (s.run = .idle → s.dir &&& engineMask s.cfg ≠ engineMask s.cfg →
      exec .refreshPass s = .refused .linesNotConfigured) ∧
    (s.run ≠ .idle → exec .refreshPass s = .refused .passInWrongState)

/-- Rule R240 (decisions D10, D32 to D35): a command has a meaning exactly in the run states its table gives,
`START` and `REFRESH_PASS` with the lines configured besides. After a failed `INIT` every command is refused
(rules R140, R261); for `DELAY`, which the table allows there, that is so where the configuration does not follow
the table (log entry 25). -/
def Obligations.CommandsFollowTheRunStateTable : Prop :=
  ∀ (i : Instr) (s : State), s.cfg.wf = true → i.isUop = false →
    ((∃ t, exec i s = .next t) ↔ commandAllowed s.cfg i s.run = true ∧
      ((∃ p, i = .start p) ∨ i = .refreshPass → s.linesConfigured = true)) ∧
    (∀ f, exec i s ≠ .fault f) ∧
    (s.run = .failed → (∀ n, i ≠ .delay n) ∨ s.cfg.delayWhenFailed = false → ∃ r, exec i s = .refused r)

/-- Rules R27, R240 (decision D10): how a step changes `run`. `FAILED` is terminal, nothing leads back to
`UNINIT`, and the engine leaves `RUNNING` for `IDLE` only, at a sampled stop or at the last `DWELL` of a
one-shot pass. -/
def Obligations.RunChangesOnlyAsTheTableSays : Prop :=
  ∀ s t : State, s.Inv → step s = .next t → t.run = s.run ∨
    (s.run = .uninit ∧ (t.run = .idle ∨ t.run = .failed) ∧ s.mover = .host) ∨
    (s.run = .idle ∧ t.run = .running ∧ s.mover = .host ∧ s.linesConfigured = true) ∨
    (s.run = .running ∧ t.run = .idle ∧ s.mover = .engine ∧ t.pc = ⟨0, 0, 0, Upc.ROWCHK⟩ ∧
      ((s.pc.upc = Upc.ROWCHK ∧ s.mode = .cont ∧ s.stopReq = true) ∨
        (s.pc.upc = Upc.DWELL ∧ s.mode = .oneshot ∧ s.pc.plane + 1 = s.cfg.P ∧
          s.pc.row + 1 = s.cfg.R)))

/-- Rules R78, R277: while the engine runs, no step of the host changes its position, its working register,
a line, the panel or the run state; the frame buffer and the requests are all the two share. -/
def Obligations.HostLeavesTheScanAlone : Prop :=
  ∀ s t : State, s.run = .running → s.mover = .host → step s = .next t →
    t.pc = s.pc ∧ t.cell = s.cell ∧ t.out = s.out ∧ t.panel = s.panel ∧ t.run = s.run ∧ t.mode = s.mode ∧
    t.dir = s.dir ∧ t.paused = s.paused ∧ t.prioDenied = s.prioDenied ∧ t.ret = s.ret

/-- Rules R12, R37, R75: what no step takes back (the model's step counter among it, log entry 6). The
configuration stays, the history only grows, and bits of `DIR` only go from 0 to 1. -/
def Obligations.StepsOnlyAdd : Prop :=
  ∀ s t : State, step s = .next t →
    t.cfg = s.cfg ∧ (∃ es, t.hist = s.hist ++ es) ∧ (∀ i, s.dir.testBit i = true → t.dir.testBit i = true) ∧
    t.tick = s.tick + 1

/-! ## Reset and the invariant -/

/-- The state right after reset, for every configuration: the reset column of the state table (rule R45), most
of whose values are decision D20. `OUT` and `cell` are draws, free values, of which a block takes its `WORD_W`
lines and nothing more is said (log entry 4, the model's choice). The machine's own reset state is this one for
an admitted configuration; which one is the model's choice (log entry 3). -/
def Obligations.ResetValues : Prop :=
  (∃ c : Config, c.wf = true ∧ State.reset = State.resetWith c) ∧
  ∀ c : Config, (∀ a : FbAddr, (State.resetWith c).fb.read a = 0) ∧
    (State.resetWith c).run = .uninit ∧ (State.resetWith c).mode = .cont ∧
    (State.resetWith c).pc = ⟨0, 0, 0, Upc.ROWCHK⟩ ∧ (State.resetWith c).stopReq = false ∧
    (State.resetWith c).pauseReq = false ∧ (State.resetWith c).paused = false ∧
    (State.resetWith c).prioDenied = false ∧ (State.resetWith c).dir = 0 ∧
    (State.resetWith c).hist = [] ∧ (State.resetWith c).out = Config.outAtReset % 2 ^ c.wordW ∧
    (State.resetWith c).cell = Config.cellAtReset % 2 ^ c.wordW ∧
    ∀ k, k < 7 → (dwellTable c)[k]? = some ((2 ^ k - 1) * c.rowClockTime)

/-- Rules R41, R45: the state right after reset meets both invariants, for every admitted configuration,
`EX64` among them. -/
def Obligations.ResetMeetsTheInvariants : Prop :=
  State.reset.Inv ∧ ∀ c : Config, c.wf = true → (State.resetWith c).Inv ∧ (State.resetWith c).LineInv

/-- Rules R21 to R23, R25, R31, R37, R41, R64, R116, R144: every step keeps the invariant. -/
def Obligations.StepKeepsTheInvariant : Prop :=
  ∀ s t : State, s.Inv → step s = .next t → t.Inv

/-- Rules R13, R64, R121, R182: a step of a machine in the invariant never faults, and the engine always has its
next step while it runs: a refusal answers only what the host asks. That an engine which does not run has a next
state too is the model's choice (log entries 18 and 19): rule R182 gives it no step. -/
def Obligations.InvariantStatesNeverFault : Prop :=
  ∀ s : State, s.Inv →
    (∀ f, step s ≠ .fault f) ∧ (s.mover = .engine → ∃ t, step s = .next t)
end

