-- ==== Sys2Proof/Laws/State.lean ====
section
/-! SUPPORT. One lemma per field and update of `State`: what each shared operation makes of it. -/

namespace Sys2Proof.Machine.State

@[simp] theorem record_cfg (s : State) (e : Event) : (s.record e).cfg = s.cfg := rfl
@[simp] theorem record_pc (s : State) (e : Event) : (s.record e).pc = s.pc := rfl
@[simp] theorem record_cell (s : State) (e : Event) : (s.record e).cell = s.cell := rfl
@[simp] theorem record_run (s : State) (e : Event) : (s.record e).run = s.run := rfl
@[simp] theorem record_mode (s : State) (e : Event) : (s.record e).mode = s.mode := rfl
@[simp] theorem record_stopReq (s : State) (e : Event) : (s.record e).stopReq = s.stopReq := rfl
@[simp] theorem record_pauseReq (s : State) (e : Event) : (s.record e).pauseReq = s.pauseReq := rfl
@[simp] theorem record_paused (s : State) (e : Event) : (s.record e).paused = s.paused := rfl
@[simp] theorem record_prioDenied (s : State) (e : Event) : (s.record e).prioDenied = s.prioDenied := rfl
@[simp] theorem record_out (s : State) (e : Event) : (s.record e).out = s.out := rfl
@[simp] theorem record_dir (s : State) (e : Event) : (s.record e).dir = s.dir := rfl
@[simp] theorem record_fb (s : State) (e : Event) : (s.record e).fb = s.fb := rfl
@[simp] theorem record_hist (s : State) (e : Event) : (s.record e).hist = s.hist ++ [e] := rfl
@[simp] theorem record_panel (s : State) (e : Event) : (s.record e).panel = s.panel := rfl
@[simp] theorem record_ret (s : State) (e : Event) : (s.record e).ret = s.ret := rfl
@[simp] theorem record_env (s : State) (e : Event) : (s.record e).env = s.env := rfl
@[simp] theorem record_work (s : State) (e : Event) : (s.record e).work = s.work := rfl
@[simp] theorem record_inbox (s : State) (e : Event) : (s.record e).inbox = s.inbox := rfl
@[simp] theorem record_turns (s : State) (e : Event) : (s.record e).turns = s.turns := rfl
@[simp] theorem record_tick (s : State) (e : Event) : (s.record e).tick = s.tick := rfl

@[simp] theorem drive_cfg (s : State) (w : Word) : (s.drive w).cfg = s.cfg := rfl
@[simp] theorem drive_pc (s : State) (w : Word) : (s.drive w).pc = s.pc := rfl
@[simp] theorem drive_cell (s : State) (w : Word) : (s.drive w).cell = s.cell := rfl
@[simp] theorem drive_run (s : State) (w : Word) : (s.drive w).run = s.run := rfl
@[simp] theorem drive_mode (s : State) (w : Word) : (s.drive w).mode = s.mode := rfl
@[simp] theorem drive_stopReq (s : State) (w : Word) : (s.drive w).stopReq = s.stopReq := rfl
@[simp] theorem drive_pauseReq (s : State) (w : Word) : (s.drive w).pauseReq = s.pauseReq := rfl
@[simp] theorem drive_paused (s : State) (w : Word) : (s.drive w).paused = s.paused := rfl
@[simp] theorem drive_prioDenied (s : State) (w : Word) : (s.drive w).prioDenied = s.prioDenied := rfl
@[simp] theorem drive_out (s : State) (w : Word) : (s.drive w).out = w := rfl
@[simp] theorem drive_dir (s : State) (w : Word) : (s.drive w).dir = s.dir := rfl
@[simp] theorem drive_fb (s : State) (w : Word) : (s.drive w).fb = s.fb := rfl
@[simp] theorem drive_hist (s : State) (w : Word) : (s.drive w).hist = s.hist := rfl
@[simp] theorem drive_panel (s : State) (w : Word) : (s.drive w).panel = s.panel.observe s.cfg s.out w := rfl
@[simp] theorem drive_ret (s : State) (w : Word) : (s.drive w).ret = s.ret := rfl
@[simp] theorem drive_env (s : State) (w : Word) : (s.drive w).env = s.env := rfl
@[simp] theorem drive_work (s : State) (w : Word) : (s.drive w).work = s.work := rfl
@[simp] theorem drive_inbox (s : State) (w : Word) : (s.drive w).inbox = s.inbox := rfl
@[simp] theorem drive_turns (s : State) (w : Word) : (s.drive w).turns = s.turns := rfl
@[simp] theorem drive_tick (s : State) (w : Word) : (s.drive w).tick = s.tick := rfl

@[simp] theorem portSet_cfg (s : State) (m : Word) : (s.portSet m).cfg = s.cfg := rfl
@[simp] theorem portSet_pc (s : State) (m : Word) : (s.portSet m).pc = s.pc := rfl
@[simp] theorem portSet_cell (s : State) (m : Word) : (s.portSet m).cell = s.cell := rfl
@[simp] theorem portSet_run (s : State) (m : Word) : (s.portSet m).run = s.run := rfl
@[simp] theorem portSet_mode (s : State) (m : Word) : (s.portSet m).mode = s.mode := rfl
@[simp] theorem portSet_stopReq (s : State) (m : Word) : (s.portSet m).stopReq = s.stopReq := rfl
@[simp] theorem portSet_pauseReq (s : State) (m : Word) : (s.portSet m).pauseReq = s.pauseReq := rfl
@[simp] theorem portSet_paused (s : State) (m : Word) : (s.portSet m).paused = s.paused := rfl
@[simp] theorem portSet_prioDenied (s : State) (m : Word) : (s.portSet m).prioDenied = s.prioDenied := rfl
@[simp] theorem portSet_out (s : State) (m : Word) : (s.portSet m).out = s.out ||| m := rfl
@[simp] theorem portSet_dir (s : State) (m : Word) : (s.portSet m).dir = s.dir := rfl
@[simp] theorem portSet_fb (s : State) (m : Word) : (s.portSet m).fb = s.fb := rfl
@[simp] theorem portSet_hist (s : State) (m : Word) : (s.portSet m).hist = s.hist ++ [.set m] := rfl
@[simp] theorem portSet_panel (s : State) (m : Word) : (s.portSet m).panel = s.panel.observe s.cfg s.out (s.out ||| m) := rfl
@[simp] theorem portSet_ret (s : State) (m : Word) : (s.portSet m).ret = s.ret := rfl
@[simp] theorem portSet_env (s : State) (m : Word) : (s.portSet m).env = s.env := rfl
@[simp] theorem portSet_work (s : State) (m : Word) : (s.portSet m).work = s.work := rfl
@[simp] theorem portSet_inbox (s : State) (m : Word) : (s.portSet m).inbox = s.inbox := rfl
@[simp] theorem portSet_turns (s : State) (m : Word) : (s.portSet m).turns = s.turns := rfl
@[simp] theorem portSet_tick (s : State) (m : Word) : (s.portSet m).tick = s.tick := rfl

@[simp] theorem portClr_cfg (s : State) (m : Word) : (s.portClr m).cfg = s.cfg := rfl
@[simp] theorem portClr_pc (s : State) (m : Word) : (s.portClr m).pc = s.pc := rfl
@[simp] theorem portClr_cell (s : State) (m : Word) : (s.portClr m).cell = s.cell := rfl
@[simp] theorem portClr_run (s : State) (m : Word) : (s.portClr m).run = s.run := rfl
@[simp] theorem portClr_mode (s : State) (m : Word) : (s.portClr m).mode = s.mode := rfl
@[simp] theorem portClr_stopReq (s : State) (m : Word) : (s.portClr m).stopReq = s.stopReq := rfl
@[simp] theorem portClr_pauseReq (s : State) (m : Word) : (s.portClr m).pauseReq = s.pauseReq := rfl
@[simp] theorem portClr_paused (s : State) (m : Word) : (s.portClr m).paused = s.paused := rfl
@[simp] theorem portClr_prioDenied (s : State) (m : Word) : (s.portClr m).prioDenied = s.prioDenied := rfl
@[simp] theorem portClr_out (s : State) (m : Word) : (s.portClr m).out = s.out &&& wordNot s.cfg m := rfl
@[simp] theorem portClr_dir (s : State) (m : Word) : (s.portClr m).dir = s.dir := rfl
@[simp] theorem portClr_fb (s : State) (m : Word) : (s.portClr m).fb = s.fb := rfl
@[simp] theorem portClr_hist (s : State) (m : Word) : (s.portClr m).hist = s.hist ++ [.clr m] := rfl
@[simp] theorem portClr_panel (s : State) (m : Word) : (s.portClr m).panel = s.panel.observe s.cfg s.out (s.out &&& wordNot s.cfg m) := rfl
@[simp] theorem portClr_ret (s : State) (m : Word) : (s.portClr m).ret = s.ret := rfl
@[simp] theorem portClr_env (s : State) (m : Word) : (s.portClr m).env = s.env := rfl
@[simp] theorem portClr_work (s : State) (m : Word) : (s.portClr m).work = s.work := rfl
@[simp] theorem portClr_inbox (s : State) (m : Word) : (s.portClr m).inbox = s.inbox := rfl
@[simp] theorem portClr_turns (s : State) (m : Word) : (s.portClr m).turns = s.turns := rfl
@[simp] theorem portClr_tick (s : State) (m : Word) : (s.portClr m).tick = s.tick := rfl

@[simp] theorem delayFor_cfg (s : State) (n : Nat) : (s.delayFor n).cfg = s.cfg := rfl
@[simp] theorem delayFor_pc (s : State) (n : Nat) : (s.delayFor n).pc = s.pc := rfl
@[simp] theorem delayFor_cell (s : State) (n : Nat) : (s.delayFor n).cell = s.cell := rfl
@[simp] theorem delayFor_run (s : State) (n : Nat) : (s.delayFor n).run = s.run := rfl
@[simp] theorem delayFor_mode (s : State) (n : Nat) : (s.delayFor n).mode = s.mode := rfl
@[simp] theorem delayFor_stopReq (s : State) (n : Nat) : (s.delayFor n).stopReq = s.stopReq := rfl
@[simp] theorem delayFor_pauseReq (s : State) (n : Nat) : (s.delayFor n).pauseReq = s.pauseReq := rfl
@[simp] theorem delayFor_paused (s : State) (n : Nat) : (s.delayFor n).paused = s.paused := rfl
@[simp] theorem delayFor_prioDenied (s : State) (n : Nat) : (s.delayFor n).prioDenied = s.prioDenied := rfl
@[simp] theorem delayFor_out (s : State) (n : Nat) : (s.delayFor n).out = s.out := rfl
@[simp] theorem delayFor_dir (s : State) (n : Nat) : (s.delayFor n).dir = s.dir := rfl
@[simp] theorem delayFor_fb (s : State) (n : Nat) : (s.delayFor n).fb = s.fb := rfl
@[simp] theorem delayFor_hist (s : State) (n : Nat) : (s.delayFor n).hist = s.hist ++ [.delay n (waitFor s.cfg n)] := rfl
@[simp] theorem delayFor_panel (s : State) (n : Nat) : (s.delayFor n).panel = s.panel := rfl
@[simp] theorem delayFor_ret (s : State) (n : Nat) : (s.delayFor n).ret = s.ret := rfl
@[simp] theorem delayFor_env (s : State) (n : Nat) : (s.delayFor n).env = s.env := rfl
@[simp] theorem delayFor_work (s : State) (n : Nat) : (s.delayFor n).work = s.work := rfl
@[simp] theorem delayFor_inbox (s : State) (n : Nat) : (s.delayFor n).inbox = s.inbox := rfl
@[simp] theorem delayFor_turns (s : State) (n : Nat) : (s.delayFor n).turns = s.turns := rfl
@[simp] theorem delayFor_tick (s : State) (n : Nat) : (s.delayFor n).tick = s.tick := rfl

@[simp] theorem goUpc_cfg (s : State) (u : BitVec 4) : (s.goUpc u).cfg = s.cfg := rfl
@[simp] theorem goUpc_pc (s : State) (u : BitVec 4) : (s.goUpc u).pc = ⟨s.pc.row, s.pc.plane, s.pc.col, u⟩ := rfl
@[simp] theorem goUpc_cell (s : State) (u : BitVec 4) : (s.goUpc u).cell = s.cell := rfl
@[simp] theorem goUpc_run (s : State) (u : BitVec 4) : (s.goUpc u).run = s.run := rfl
@[simp] theorem goUpc_mode (s : State) (u : BitVec 4) : (s.goUpc u).mode = s.mode := rfl
@[simp] theorem goUpc_stopReq (s : State) (u : BitVec 4) : (s.goUpc u).stopReq = s.stopReq := rfl
@[simp] theorem goUpc_pauseReq (s : State) (u : BitVec 4) : (s.goUpc u).pauseReq = s.pauseReq := rfl
@[simp] theorem goUpc_paused (s : State) (u : BitVec 4) : (s.goUpc u).paused = s.paused := rfl
@[simp] theorem goUpc_prioDenied (s : State) (u : BitVec 4) : (s.goUpc u).prioDenied = s.prioDenied := rfl
@[simp] theorem goUpc_out (s : State) (u : BitVec 4) : (s.goUpc u).out = s.out := rfl
@[simp] theorem goUpc_dir (s : State) (u : BitVec 4) : (s.goUpc u).dir = s.dir := rfl
@[simp] theorem goUpc_fb (s : State) (u : BitVec 4) : (s.goUpc u).fb = s.fb := rfl
@[simp] theorem goUpc_hist (s : State) (u : BitVec 4) : (s.goUpc u).hist = s.hist := rfl
@[simp] theorem goUpc_panel (s : State) (u : BitVec 4) : (s.goUpc u).panel = s.panel := rfl
@[simp] theorem goUpc_ret (s : State) (u : BitVec 4) : (s.goUpc u).ret = s.ret := rfl
@[simp] theorem goUpc_env (s : State) (u : BitVec 4) : (s.goUpc u).env = s.env := rfl
@[simp] theorem goUpc_work (s : State) (u : BitVec 4) : (s.goUpc u).work = s.work := rfl
@[simp] theorem goUpc_inbox (s : State) (u : BitVec 4) : (s.goUpc u).inbox = s.inbox := rfl
@[simp] theorem goUpc_turns (s : State) (u : BitVec 4) : (s.goUpc u).turns = s.turns := rfl
@[simp] theorem goUpc_tick (s : State) (u : BitVec 4) : (s.goUpc u).tick = s.tick := rfl

@[simp] theorem goPos_cfg (s : State) (p : Pos) : (s.goPos p).cfg = s.cfg := rfl
@[simp] theorem goPos_pc (s : State) (p : Pos) : (s.goPos p).pc = p := rfl
@[simp] theorem goPos_cell (s : State) (p : Pos) : (s.goPos p).cell = s.cell := rfl
@[simp] theorem goPos_run (s : State) (p : Pos) : (s.goPos p).run = s.run := rfl
@[simp] theorem goPos_mode (s : State) (p : Pos) : (s.goPos p).mode = s.mode := rfl
@[simp] theorem goPos_stopReq (s : State) (p : Pos) : (s.goPos p).stopReq = s.stopReq := rfl
@[simp] theorem goPos_pauseReq (s : State) (p : Pos) : (s.goPos p).pauseReq = s.pauseReq := rfl
@[simp] theorem goPos_paused (s : State) (p : Pos) : (s.goPos p).paused = s.paused := rfl
@[simp] theorem goPos_prioDenied (s : State) (p : Pos) : (s.goPos p).prioDenied = s.prioDenied := rfl
@[simp] theorem goPos_out (s : State) (p : Pos) : (s.goPos p).out = s.out := rfl
@[simp] theorem goPos_dir (s : State) (p : Pos) : (s.goPos p).dir = s.dir := rfl
@[simp] theorem goPos_fb (s : State) (p : Pos) : (s.goPos p).fb = s.fb := rfl
@[simp] theorem goPos_hist (s : State) (p : Pos) : (s.goPos p).hist = s.hist := rfl
@[simp] theorem goPos_panel (s : State) (p : Pos) : (s.goPos p).panel = s.panel := rfl
@[simp] theorem goPos_ret (s : State) (p : Pos) : (s.goPos p).ret = s.ret := rfl
@[simp] theorem goPos_env (s : State) (p : Pos) : (s.goPos p).env = s.env := rfl
@[simp] theorem goPos_work (s : State) (p : Pos) : (s.goPos p).work = s.work := rfl
@[simp] theorem goPos_inbox (s : State) (p : Pos) : (s.goPos p).inbox = s.inbox := rfl
@[simp] theorem goPos_turns (s : State) (p : Pos) : (s.goPos p).turns = s.turns := rfl
@[simp] theorem goPos_tick (s : State) (p : Pos) : (s.goPos p).tick = s.tick := rfl

@[simp] theorem fbStore_cfg (s : State) (a : FbAddr) (v : Word) : (s.fbStore a v).cfg = s.cfg := rfl
@[simp] theorem fbStore_pc (s : State) (a : FbAddr) (v : Word) : (s.fbStore a v).pc = s.pc := rfl
@[simp] theorem fbStore_cell (s : State) (a : FbAddr) (v : Word) : (s.fbStore a v).cell = s.cell := rfl
@[simp] theorem fbStore_run (s : State) (a : FbAddr) (v : Word) : (s.fbStore a v).run = s.run := rfl
@[simp] theorem fbStore_mode (s : State) (a : FbAddr) (v : Word) : (s.fbStore a v).mode = s.mode := rfl
@[simp] theorem fbStore_stopReq (s : State) (a : FbAddr) (v : Word) : (s.fbStore a v).stopReq = s.stopReq := rfl
@[simp] theorem fbStore_pauseReq (s : State) (a : FbAddr) (v : Word) : (s.fbStore a v).pauseReq = s.pauseReq := rfl
@[simp] theorem fbStore_paused (s : State) (a : FbAddr) (v : Word) : (s.fbStore a v).paused = s.paused := rfl
@[simp] theorem fbStore_prioDenied (s : State) (a : FbAddr) (v : Word) : (s.fbStore a v).prioDenied = s.prioDenied := rfl
@[simp] theorem fbStore_out (s : State) (a : FbAddr) (v : Word) : (s.fbStore a v).out = s.out := rfl
@[simp] theorem fbStore_dir (s : State) (a : FbAddr) (v : Word) : (s.fbStore a v).dir = s.dir := rfl
@[simp] theorem fbStore_fb (s : State) (a : FbAddr) (v : Word) : (s.fbStore a v).fb = s.fb.write a v := rfl
@[simp] theorem fbStore_hist (s : State) (a : FbAddr) (v : Word) : (s.fbStore a v).hist = s.hist ++ [.fbWrite a v] := rfl
@[simp] theorem fbStore_panel (s : State) (a : FbAddr) (v : Word) : (s.fbStore a v).panel = s.panel := rfl
@[simp] theorem fbStore_ret (s : State) (a : FbAddr) (v : Word) : (s.fbStore a v).ret = s.ret := rfl
@[simp] theorem fbStore_env (s : State) (a : FbAddr) (v : Word) : (s.fbStore a v).env = s.env := rfl
@[simp] theorem fbStore_work (s : State) (a : FbAddr) (v : Word) : (s.fbStore a v).work = s.work := rfl
@[simp] theorem fbStore_inbox (s : State) (a : FbAddr) (v : Word) : (s.fbStore a v).inbox = s.inbox := rfl
@[simp] theorem fbStore_turns (s : State) (a : FbAddr) (v : Word) : (s.fbStore a v).turns = s.turns := rfl
@[simp] theorem fbStore_tick (s : State) (a : FbAddr) (v : Word) : (s.fbStore a v).tick = s.tick := rfl

@[simp] theorem loadCell_cfg (s : State) (a : FbAddr) : (s.loadCell a).cfg = s.cfg := rfl
@[simp] theorem loadCell_pc (s : State) (a : FbAddr) : (s.loadCell a).pc = s.pc := rfl
@[simp] theorem loadCell_cell (s : State) (a : FbAddr) : (s.loadCell a).cell = s.fb.read a := rfl
@[simp] theorem loadCell_run (s : State) (a : FbAddr) : (s.loadCell a).run = s.run := rfl
@[simp] theorem loadCell_mode (s : State) (a : FbAddr) : (s.loadCell a).mode = s.mode := rfl
@[simp] theorem loadCell_stopReq (s : State) (a : FbAddr) : (s.loadCell a).stopReq = s.stopReq := rfl
@[simp] theorem loadCell_pauseReq (s : State) (a : FbAddr) : (s.loadCell a).pauseReq = s.pauseReq := rfl
@[simp] theorem loadCell_paused (s : State) (a : FbAddr) : (s.loadCell a).paused = s.paused := rfl
@[simp] theorem loadCell_prioDenied (s : State) (a : FbAddr) : (s.loadCell a).prioDenied = s.prioDenied := rfl
@[simp] theorem loadCell_out (s : State) (a : FbAddr) : (s.loadCell a).out = s.out := rfl
@[simp] theorem loadCell_dir (s : State) (a : FbAddr) : (s.loadCell a).dir = s.dir := rfl
@[simp] theorem loadCell_fb (s : State) (a : FbAddr) : (s.loadCell a).fb = s.fb := rfl
@[simp] theorem loadCell_hist (s : State) (a : FbAddr) : (s.loadCell a).hist = s.hist ++ [.fbRead a (s.fb.read a)] := rfl
@[simp] theorem loadCell_panel (s : State) (a : FbAddr) : (s.loadCell a).panel = s.panel := rfl
@[simp] theorem loadCell_ret (s : State) (a : FbAddr) : (s.loadCell a).ret = s.ret := rfl
@[simp] theorem loadCell_env (s : State) (a : FbAddr) : (s.loadCell a).env = s.env := rfl
@[simp] theorem loadCell_work (s : State) (a : FbAddr) : (s.loadCell a).work = s.work := rfl
@[simp] theorem loadCell_inbox (s : State) (a : FbAddr) : (s.loadCell a).inbox = s.inbox := rfl
@[simp] theorem loadCell_turns (s : State) (a : FbAddr) : (s.loadCell a).turns = s.turns := rfl
@[simp] theorem loadCell_tick (s : State) (a : FbAddr) : (s.loadCell a).tick = s.tick := rfl

@[simp] theorem takeStop_cfg (s : State) : (s.takeStop).cfg = s.cfg := rfl
@[simp] theorem takeStop_pc (s : State) : (s.takeStop).pc = Pos.origin := rfl
@[simp] theorem takeStop_cell (s : State) : (s.takeStop).cell = s.cell := rfl
@[simp] theorem takeStop_run (s : State) : (s.takeStop).run = .idle := rfl
@[simp] theorem takeStop_mode (s : State) : (s.takeStop).mode = s.mode := rfl
@[simp] theorem takeStop_stopReq (s : State) : (s.takeStop).stopReq = s.stopReq := rfl
@[simp] theorem takeStop_pauseReq (s : State) : (s.takeStop).pauseReq = s.pauseReq := rfl
@[simp] theorem takeStop_paused (s : State) : (s.takeStop).paused = false := rfl
@[simp] theorem takeStop_prioDenied (s : State) : (s.takeStop).prioDenied = s.prioDenied := rfl
@[simp] theorem takeStop_out (s : State) : (s.takeStop).out = s.out := rfl
@[simp] theorem takeStop_dir (s : State) : (s.takeStop).dir = s.dir := rfl
@[simp] theorem takeStop_fb (s : State) : (s.takeStop).fb = s.fb := rfl
@[simp] theorem takeStop_hist (s : State) : (s.takeStop).hist = s.hist ++ [.rowChk s.pc.row .stopped] := rfl
@[simp] theorem takeStop_panel (s : State) : (s.takeStop).panel = s.panel := rfl
@[simp] theorem takeStop_ret (s : State) : (s.takeStop).ret = s.ret := rfl
@[simp] theorem takeStop_env (s : State) : (s.takeStop).env = s.env := rfl
@[simp] theorem takeStop_work (s : State) : (s.takeStop).work = s.work := rfl
@[simp] theorem takeStop_inbox (s : State) : (s.takeStop).inbox = s.inbox := rfl
@[simp] theorem takeStop_turns (s : State) : (s.takeStop).turns = s.turns := rfl
@[simp] theorem takeStop_tick (s : State) : (s.takeStop).tick = s.tick := rfl

@[simp] theorem goRow_cfg (s : State) : (s.goRow).cfg = s.cfg := rfl
@[simp] theorem goRow_pc (s : State) : (s.goRow).pc = ⟨s.pc.row, 0, 0, Upc.COL_CLR⟩ := rfl
@[simp] theorem goRow_cell (s : State) : (s.goRow).cell = s.cell := rfl
@[simp] theorem goRow_run (s : State) : (s.goRow).run = s.run := rfl
@[simp] theorem goRow_mode (s : State) : (s.goRow).mode = s.mode := rfl
@[simp] theorem goRow_stopReq (s : State) : (s.goRow).stopReq = s.stopReq := rfl
@[simp] theorem goRow_pauseReq (s : State) : (s.goRow).pauseReq = s.pauseReq := rfl
@[simp] theorem goRow_paused (s : State) : (s.goRow).paused = false := rfl
@[simp] theorem goRow_prioDenied (s : State) : (s.goRow).prioDenied = s.prioDenied := rfl
@[simp] theorem goRow_out (s : State) : (s.goRow).out = s.out := rfl
@[simp] theorem goRow_dir (s : State) : (s.goRow).dir = s.dir := rfl
@[simp] theorem goRow_fb (s : State) : (s.goRow).fb = s.fb := rfl
@[simp] theorem goRow_hist (s : State) : (s.goRow).hist = s.hist ++ [.rowChk s.pc.row .go] := rfl
@[simp] theorem goRow_panel (s : State) : (s.goRow).panel = s.panel := rfl
@[simp] theorem goRow_ret (s : State) : (s.goRow).ret = s.ret := rfl
@[simp] theorem goRow_env (s : State) : (s.goRow).env = s.env := rfl
@[simp] theorem goRow_work (s : State) : (s.goRow).work = s.work := rfl
@[simp] theorem goRow_inbox (s : State) : (s.goRow).inbox = s.inbox := rfl
@[simp] theorem goRow_turns (s : State) : (s.goRow).turns = s.turns := rfl
@[simp] theorem goRow_tick (s : State) : (s.goRow).tick = s.tick := rfl

@[simp] theorem enterScan_cfg (s : State) (d : Mode) : (s.enterScan d).cfg = s.cfg := rfl
@[simp] theorem enterScan_pc (s : State) (d : Mode) : (s.enterScan d).pc = Pos.origin := rfl
@[simp] theorem enterScan_cell (s : State) (d : Mode) : (s.enterScan d).cell = s.cell := rfl
@[simp] theorem enterScan_run (s : State) (d : Mode) : (s.enterScan d).run = .running := rfl
@[simp] theorem enterScan_mode (s : State) (d : Mode) : (s.enterScan d).mode = d := rfl
@[simp] theorem enterScan_stopReq (s : State) (d : Mode) : (s.enterScan d).stopReq = s.stopReq := rfl
@[simp] theorem enterScan_pauseReq (s : State) (d : Mode) : (s.enterScan d).pauseReq = s.pauseReq := rfl
@[simp] theorem enterScan_paused (s : State) (d : Mode) : (s.enterScan d).paused = false := rfl
@[simp] theorem enterScan_prioDenied (s : State) (d : Mode) : (s.enterScan d).prioDenied = s.prioDenied := rfl
@[simp] theorem enterScan_out (s : State) (d : Mode) : (s.enterScan d).out = s.out := rfl
@[simp] theorem enterScan_dir (s : State) (d : Mode) : (s.enterScan d).dir = s.dir := rfl
@[simp] theorem enterScan_fb (s : State) (d : Mode) : (s.enterScan d).fb = s.fb := rfl
@[simp] theorem enterScan_hist (s : State) (d : Mode) : (s.enterScan d).hist = s.hist := rfl
@[simp] theorem enterScan_panel (s : State) (d : Mode) : (s.enterScan d).panel = s.panel := rfl
@[simp] theorem enterScan_ret (s : State) (d : Mode) : (s.enterScan d).ret = s.ret := rfl
@[simp] theorem enterScan_env (s : State) (d : Mode) : (s.enterScan d).env = s.env := rfl
@[simp] theorem enterScan_work (s : State) (d : Mode) : (s.enterScan d).work = s.work := rfl
@[simp] theorem enterScan_inbox (s : State) (d : Mode) : (s.enterScan d).inbox = s.inbox := rfl
@[simp] theorem enterScan_turns (s : State) (d : Mode) : (s.enterScan d).turns = s.turns := rfl
@[simp] theorem enterScan_tick (s : State) (d : Mode) : (s.enterScan d).tick = s.tick := rfl

@[simp] theorem recordCmd_cfg (s : State) (i : Instr) : (s.recordCmd i).cfg = s.cfg := rfl
@[simp] theorem recordCmd_pc (s : State) (i : Instr) : (s.recordCmd i).pc = s.pc := rfl
@[simp] theorem recordCmd_cell (s : State) (i : Instr) : (s.recordCmd i).cell = s.cell := rfl
@[simp] theorem recordCmd_run (s : State) (i : Instr) : (s.recordCmd i).run = s.run := rfl
@[simp] theorem recordCmd_mode (s : State) (i : Instr) : (s.recordCmd i).mode = s.mode := rfl
@[simp] theorem recordCmd_stopReq (s : State) (i : Instr) : (s.recordCmd i).stopReq = s.stopReq := rfl
@[simp] theorem recordCmd_pauseReq (s : State) (i : Instr) : (s.recordCmd i).pauseReq = s.pauseReq := rfl
@[simp] theorem recordCmd_paused (s : State) (i : Instr) : (s.recordCmd i).paused = s.paused := rfl
@[simp] theorem recordCmd_prioDenied (s : State) (i : Instr) : (s.recordCmd i).prioDenied = s.prioDenied := rfl
@[simp] theorem recordCmd_out (s : State) (i : Instr) : (s.recordCmd i).out = s.out := rfl
@[simp] theorem recordCmd_dir (s : State) (i : Instr) : (s.recordCmd i).dir = s.dir := rfl
@[simp] theorem recordCmd_fb (s : State) (i : Instr) : (s.recordCmd i).fb = s.fb := rfl
@[simp] theorem recordCmd_hist (s : State) (i : Instr) : (s.recordCmd i).hist = s.hist ++ [.cmd i] := rfl
@[simp] theorem recordCmd_panel (s : State) (i : Instr) : (s.recordCmd i).panel = s.panel := rfl
@[simp] theorem recordCmd_ret (s : State) (i : Instr) : (s.recordCmd i).ret = s.ret := rfl
@[simp] theorem recordCmd_env (s : State) (i : Instr) : (s.recordCmd i).env = s.env := rfl
@[simp] theorem recordCmd_work (s : State) (i : Instr) : (s.recordCmd i).work = s.work := rfl
@[simp] theorem recordCmd_inbox (s : State) (i : Instr) : (s.recordCmd i).inbox = s.inbox := rfl
@[simp] theorem recordCmd_turns (s : State) (i : Instr) : (s.recordCmd i).turns = s.turns := rfl
@[simp] theorem recordCmd_tick (s : State) (i : Instr) : (s.recordCmd i).tick = s.tick := rfl

@[simp] theorem advance_cfg (s : State) : (s.advance).cfg = s.cfg := rfl
@[simp] theorem advance_pc (s : State) : (s.advance).pc = s.pc := rfl
@[simp] theorem advance_cell (s : State) : (s.advance).cell = s.cell := rfl
@[simp] theorem advance_run (s : State) : (s.advance).run = s.run := rfl
@[simp] theorem advance_mode (s : State) : (s.advance).mode = s.mode := rfl
@[simp] theorem advance_stopReq (s : State) : (s.advance).stopReq = s.stopReq := rfl
@[simp] theorem advance_pauseReq (s : State) : (s.advance).pauseReq = s.pauseReq := rfl
@[simp] theorem advance_paused (s : State) : (s.advance).paused = s.paused := rfl
@[simp] theorem advance_prioDenied (s : State) : (s.advance).prioDenied = s.prioDenied := rfl
@[simp] theorem advance_out (s : State) : (s.advance).out = s.out := rfl
@[simp] theorem advance_dir (s : State) : (s.advance).dir = s.dir := rfl
@[simp] theorem advance_fb (s : State) : (s.advance).fb = s.fb := rfl
@[simp] theorem advance_hist (s : State) : (s.advance).hist = s.hist := rfl
@[simp] theorem advance_panel (s : State) : (s.advance).panel = s.panel := rfl
@[simp] theorem advance_ret (s : State) : (s.advance).ret = s.ret := rfl
@[simp] theorem advance_env (s : State) : (s.advance).env = s.env := rfl
@[simp] theorem advance_work (s : State) : (s.advance).work = s.work := rfl
@[simp] theorem advance_inbox (s : State) : (s.advance).inbox = s.inbox := rfl
@[simp] theorem advance_turns (s : State) : (s.advance).turns = s.turns.tail := rfl
@[simp] theorem advance_tick (s : State) : (s.advance).tick = s.tick + 1 := rfl

@[simp] theorem receive_cfg (s : State) (p : Packet) (rest : List Packet) : (s.receive p rest).cfg = s.cfg := rfl
@[simp] theorem receive_pc (s : State) (p : Packet) (rest : List Packet) : (s.receive p rest).pc = s.pc := rfl
@[simp] theorem receive_cell (s : State) (p : Packet) (rest : List Packet) : (s.receive p rest).cell = s.cell := rfl
@[simp] theorem receive_run (s : State) (p : Packet) (rest : List Packet) : (s.receive p rest).run = s.run := rfl
@[simp] theorem receive_mode (s : State) (p : Packet) (rest : List Packet) : (s.receive p rest).mode = s.mode := rfl
@[simp] theorem receive_stopReq (s : State) (p : Packet) (rest : List Packet) : (s.receive p rest).stopReq = s.stopReq := rfl
@[simp] theorem receive_pauseReq (s : State) (p : Packet) (rest : List Packet) : (s.receive p rest).pauseReq = s.pauseReq := rfl
@[simp] theorem receive_paused (s : State) (p : Packet) (rest : List Packet) : (s.receive p rest).paused = s.paused := rfl
@[simp] theorem receive_prioDenied (s : State) (p : Packet) (rest : List Packet) : (s.receive p rest).prioDenied = s.prioDenied := rfl
@[simp] theorem receive_out (s : State) (p : Packet) (rest : List Packet) : (s.receive p rest).out = s.out := rfl
@[simp] theorem receive_dir (s : State) (p : Packet) (rest : List Packet) : (s.receive p rest).dir = s.dir := rfl
@[simp] theorem receive_fb (s : State) (p : Packet) (rest : List Packet) : (s.receive p rest).fb = s.fb := rfl
@[simp] theorem receive_hist (s : State) (p : Packet) (rest : List Packet) : (s.receive p rest).hist = s.hist := rfl
@[simp] theorem receive_panel (s : State) (p : Packet) (rest : List Packet) : (s.receive p rest).panel = s.panel := rfl
@[simp] theorem receive_ret (s : State) (p : Packet) (rest : List Packet) : (s.receive p rest).ret = s.ret := rfl
@[simp] theorem receive_env (s : State) (p : Packet) (rest : List Packet) : (s.receive p rest).env = p.answer := rfl
@[simp] theorem receive_work (s : State) (p : Packet) (rest : List Packet) : (s.receive p rest).work = s.work := rfl
@[simp] theorem receive_inbox (s : State) (p : Packet) (rest : List Packet) : (s.receive p rest).inbox = rest := rfl
@[simp] theorem receive_turns (s : State) (p : Packet) (rest : List Packet) : (s.receive p rest).turns = s.turns.tail := rfl
@[simp] theorem receive_tick (s : State) (p : Packet) (rest : List Packet) : (s.receive p rest).tick = s.tick + 1 := rfl

/-- Taking a pause touches `paused` and the history only. -/
theorem takePause_of_paused {s : State} (h : s.paused = true) : s.takePause = s := if_pos h

theorem takePause_of_not_paused {s : State} (h : s.paused = false) :
    s.takePause = { s with paused := true, hist := s.hist ++ [.rowChk s.pc.row .paused] } := by
  simp [takePause, h, record]

@[simp] theorem takePause_cfg (s : State) : s.takePause.cfg = s.cfg := by unfold takePause; split <;> rfl
@[simp] theorem takePause_pc (s : State) : s.takePause.pc = s.pc := by unfold takePause; split <;> rfl
@[simp] theorem takePause_cell (s : State) : s.takePause.cell = s.cell := by unfold takePause; split <;> rfl
@[simp] theorem takePause_run (s : State) : s.takePause.run = s.run := by unfold takePause; split <;> rfl
@[simp] theorem takePause_mode (s : State) : s.takePause.mode = s.mode := by unfold takePause; split <;> rfl
@[simp] theorem takePause_stopReq (s : State) : s.takePause.stopReq = s.stopReq := by unfold takePause; split <;> rfl
@[simp] theorem takePause_pauseReq (s : State) : s.takePause.pauseReq = s.pauseReq := by unfold takePause; split <;> rfl
@[simp] theorem takePause_prioDenied (s : State) : s.takePause.prioDenied = s.prioDenied := by unfold takePause; split <;> rfl
@[simp] theorem takePause_out (s : State) : s.takePause.out = s.out := by unfold takePause; split <;> rfl
@[simp] theorem takePause_dir (s : State) : s.takePause.dir = s.dir := by unfold takePause; split <;> rfl
@[simp] theorem takePause_fb (s : State) : s.takePause.fb = s.fb := by unfold takePause; split <;> rfl
@[simp] theorem takePause_panel (s : State) : s.takePause.panel = s.panel := by unfold takePause; split <;> rfl
@[simp] theorem takePause_ret (s : State) : s.takePause.ret = s.ret := by unfold takePause; split <;> rfl
@[simp] theorem takePause_env (s : State) : s.takePause.env = s.env := by unfold takePause; split <;> rfl
@[simp] theorem takePause_work (s : State) : s.takePause.work = s.work := by unfold takePause; split <;> rfl
@[simp] theorem takePause_inbox (s : State) : s.takePause.inbox = s.inbox := by unfold takePause; split <;> rfl
@[simp] theorem takePause_turns (s : State) : s.takePause.turns = s.turns := by unfold takePause; split <;> rfl
@[simp] theorem takePause_tick (s : State) : s.takePause.tick = s.tick := by unfold takePause; split <;> rfl
@[simp] theorem takePause_paused (s : State) : s.takePause.paused = true := by
  unfold takePause; split
  · assumption
  · rfl

@[simp] theorem fbValue_eq (s : State) (a : FbAddr) : s.fbValue a = s.fb.read a := rfl

theorem level_eq (s : State) (i : Nat) : s.level i = s.out.testBit i := rfl

/-- `advance` uses up a turn and counts the step, and nothing else. -/
theorem advance_eq (s : State) : s.advance = { s with turns := s.turns.tail, tick := s.tick + 1 } := rfl

@[simp] theorem mover_cons (s : State) (a : Agent) (l : List Agent) (h : s.turns = a :: l) :
    s.mover = a := by simp [mover, h]

/-- `linesConfigured` reads the configuration and `DIR` only. -/
theorem linesConfigured_congr {s t : State} (hc : t.cfg = s.cfg) (hd : t.dir = s.dir) :
    t.linesConfigured = s.linesConfigured := by simp [linesConfigured, hc, hd]

end Sys2Proof.Machine.State
end

