-- ==== Sys2Proof/Laws/Memory.lean ====
section
/-! SUPPORT. The laws of the frame buffer: the order of its addresses, read after write, the canonical
form. -/

namespace Sys2Proof.Machine

namespace FbAddr

theorem ext_iff' {a b : FbAddr} : a = b ↔ a.plane = b.plane ∧ a.row = b.row ∧ a.col = b.col := by
  cases a; cases b; simp

theorem before_iff {a b : FbAddr} : a.before b = true ↔
    a.plane < b.plane ∨ (a.plane = b.plane ∧ (a.row < b.row ∨ (a.row = b.row ∧ a.col < b.col))) := by
  simp [before]

theorem before_irrefl (a : FbAddr) : a.before a = false := by
  simp [before]

theorem before_trans {a b d : FbAddr} (h : a.before b = true) (h' : b.before d = true) :
    a.before d = true := by
  rw [before_iff] at *; omega

theorem before_total {a b : FbAddr} (h : a ≠ b) (h' : a.before b = false) : b.before a = true := by
  have h'' : ¬ a.before b = true := by simp [h']
  rw [before_iff] at *
  rw [Ne, ext_iff'] at h
  omega

theorem ne_of_before {a b : FbAddr} (h : a.before b = true) : a ≠ b := by
  rintro rfl; simp [before_irrefl] at h

theorem inRange_iff {c : Config} {a : FbAddr} :
    a.inRange c = true ↔ a.plane < c.P ∧ a.row < c.R ∧ a.col < c.C := by
  simp [inRange, and_assoc]

end FbAddr

namespace Memory

@[simp] theorem read_nil (a : FbAddr) : read [] a = 0 := rfl

theorem read_cons (b : FbAddr) (w : Word) (m : Memory) (a : FbAddr) :
    read ((b, w) :: m) a = if a = b then w else read m a := rfl

theorem above_cons {a b : FbAddr} {w : Word} {m : Memory} :
    above a ((b, w) :: m) = true ↔ a.before b = true ∧ above a m = true := by
  simp [above]

theorem above_trans {a b : FbAddr} {m : Memory} (h : a.before b = true) (hm : above b m = true) :
    above a m = true := by
  simp only [above, List.all_eq_true] at *
  exact fun e he => FbAddr.before_trans h (hm e he)

theorem wf_cons {a : FbAddr} {v : Word} {m : Memory} :
    wf ((a, v) :: m) = true ↔ v ≠ 0 ∧ above a m = true ∧ wf m = true := by
  simp [wf, and_assoc]

/-- A cell below every listed address holds 0. -/
theorem read_of_above {a : FbAddr} {m : Memory} (h : above a m = true) : read m a = 0 := by
  induction m with
  | nil => rfl
  | cons e m ih =>
    obtain ⟨b, w⟩ := e
    rw [above_cons] at h
    rw [read_cons, if_neg (FbAddr.ne_of_before h.1), ih h.2]

theorem read_place (a : FbAddr) (v : Word) (m : Memory) (b : FbAddr) (h : above a m = true) :
    read (place a v m) b = if b = a then v else read m b := by
  unfold place
  by_cases hv : v = 0
  · by_cases hb : b = a
    · simp [hv, hb, read_of_above h]
    · simp [hv, hb]
  · simp [hv, read_cons]

/-- Read after write (rules R66, R71): the cell written has the value written, every other its own. -/
theorem read_write {m : Memory} (hm : m.wf = true) (a : FbAddr) (v : Word) (b : FbAddr) :
    read (write m a v) b = if b = a then v else read m b := by
  induction m with
  | nil => exact read_place a v [] b rfl
  | cons e m ih =>
    obtain ⟨d, w⟩ := e
    obtain ⟨-, habove, hwf⟩ := wf_cons.1 hm
    unfold write
    by_cases had : a = d
    · subst had
      rw [if_pos rfl, read_place a v m b habove, read_cons]
      by_cases hb : b = a <;> simp [hb]
    · rw [if_neg had]
      by_cases hbef : a.before d = true
      · rw [if_pos hbef, read_place a v _ b (above_cons.2 ⟨hbef, above_trans hbef habove⟩)]
      · rw [if_neg hbef, read_cons, ih hwf, read_cons]
        by_cases hbd : b = d
        · subst hbd; simp [Ne.symm had]
        · simp [hbd]

theorem above_place {a b : FbAddr} {v : Word} {m : Memory} (h : b.before a = true)
    (hm : above b m = true) : above b (place a v m) = true := by
  unfold place; split
  · exact hm
  · exact above_cons.2 ⟨h, hm⟩

theorem above_write {b : FbAddr} {m : Memory} {a : FbAddr} {v : Word} (h : b.before a = true)
    (hm : above b m = true) : above b (write m a v) = true := by
  induction m with
  | nil => exact above_place h hm
  | cons e m ih =>
    obtain ⟨d, w⟩ := e
    obtain ⟨hd, hm⟩ := above_cons.1 hm
    unfold write
    split
    · exact above_place h hm
    · split
      · exact above_place h (above_cons.2 ⟨hd, hm⟩)
      · exact above_cons.2 ⟨hd, ih hm⟩

theorem wf_place {a : FbAddr} {v : Word} {m : Memory} (h : above a m = true) (hm : m.wf = true) :
    (place a v m).wf = true := by
  unfold place; split
  · exact hm
  · exact wf_cons.2 ⟨‹_›, h, hm⟩

/-- A write keeps the canonical form. -/
theorem wf_write {m : Memory} (hm : m.wf = true) (a : FbAddr) (v : Word) : (write m a v).wf = true := by
  induction m with
  | nil => exact wf_place rfl rfl
  | cons e m ih =>
    obtain ⟨d, w⟩ := e
    obtain ⟨hw, habove, hwf⟩ := wf_cons.1 hm
    unfold write
    by_cases had : a = d
    · subst had; rw [if_pos rfl]; exact wf_place habove hwf
    · rw [if_neg had]
      by_cases hbef : a.before d = true
      · rw [if_pos hbef]
        exact wf_place (above_cons.2 ⟨hbef, above_trans hbef habove⟩) hm
      · rw [if_neg hbef]
        refine wf_cons.2 ⟨hw, above_write (FbAddr.before_total had (by simpa using hbef)) habove, ih hwf⟩

/-- What a written list holds was there before or is the cell written. -/
theorem mem_write {m : Memory} {a : FbAddr} {v : Word} {e : FbAddr × Word} (h : e ∈ write m a v) :
    e = (a, v) ∨ e ∈ m := by
  have place_mem : ∀ {l : Memory}, e ∈ place a v l → e = (a, v) ∨ e ∈ l := by
    intro l hl; unfold place at hl; split at hl
    · exact .inr hl
    · simpa using hl
  induction m with
  | nil => exact place_mem h
  | cons d m ih =>
    obtain ⟨b, w⟩ := d
    unfold write at h
    split at h
    · rcases place_mem h with h | h
      · exact .inl h
      · exact .inr (List.mem_cons_of_mem _ h)
    · split at h
      · exact place_mem h
      · rcases List.mem_cons.1 h with h | h
        · exact .inr (h ▸ List.mem_cons_self)
        · rcases ih h with h | h
          · exact .inl h
          · exact .inr (List.mem_cons_of_mem _ h)

/-- A cell reads as 0 or as one of the listed values. -/
theorem read_mem (m : Memory) (a : FbAddr) : read m a = 0 ∨ (a, read m a) ∈ m := by
  induction m with
  | nil => exact .inl rfl
  | cons e m ih =>
    obtain ⟨b, w⟩ := e
    rw [read_cons]
    by_cases h : a = b
    · subst h; simp
    · rw [if_neg h]
      rcases ih with h | h
      · exact .inl h
      · exact .inr (List.mem_cons_of_mem _ h)

end Memory

end Sys2Proof.Machine
end

