-- ==== Sys2Proof/Laws/Bits.lean ====
section
/-! SUPPORT. What an admitted configuration gives (rules R7 to R9, R112), the masks of rule R106 bit by
bit, and the three fields of a pixel (rule R165). -/

namespace Sys2Proof

namespace Config

variable {c : Config}

theorem wf_iff : c.wf = true ↔ c.planesOk = true ∧ c.rowsOk = true ∧ c.columnsOk = true ∧
    c.heightOk = true ∧ c.linesDistinct = true ∧ c.linesAvailable = true ∧ c.channelMapOk = true ∧
    c.timingOk = true := by
  simp [wf, and_assoc]

theorem wf_planes (h : c.wf = true) : 1 ≤ c.P ∧ c.P ≤ 7 := by
  have := (wf_iff.1 h).1; simpa [planesOk] using this

theorem wf_rows (h : c.wf = true) : 1 ≤ c.R ∧ c.R ≤ 16 := by
  have := (wf_iff.1 h).2.1; simpa [rowsOk] using this

theorem wf_columns (h : c.wf = true) :
    1 ≤ c.colsPerSubPanel ∧ 1 ≤ c.chainedBoardsCnt ∧ 1 ≤ c.W ∧ c.W ≤ c.C := by
  have := (wf_iff.1 h).2.2.1; simpa [columnsOk, and_assoc] using this

theorem wf_C_pos (h : c.wf = true) : 1 ≤ c.C := by
  have := wf_columns h; omega

theorem wf_height (h : c.wf = true) : c.H = 2 * c.R ∨ c.H = 4 * c.R := by
  have := (wf_iff.1 h).2.2.2.1; simpa [heightOk] using this

theorem wf_nodup (h : c.wf = true) : c.lines.Nodup := by
  have := (wf_iff.1 h).2.2.2.2.1; simpa [linesDistinct] using this

theorem wf_available (h : c.wf = true) {i : Nat} (hi : i ∈ c.lines) :
    i < c.wordW ∧ c.availableMask.testBit i = true := by
  have := (wf_iff.1 h).2.2.2.2.2.1
  simp only [linesAvailable, Bool.and_eq_true, List.all_eq_true, decide_eq_true_eq] at this
  exact this.1 i hi

/-- The mask of the available lines is a word (rules R8, R10). -/
theorem wf_availableMask (h : c.wf = true) : c.availableMask < 2 ^ c.wordW := by
  have := (wf_iff.1 h).2.2.2.2.2.1
  simp only [linesAvailable, wordFits, Bool.and_eq_true, decide_eq_true_eq] at this
  exact this.2

theorem wf_timing (h : c.wf = true) : 1 ≤ c.rowClockTime ∧ c.sleepOvershootNs ≤ c.delayThresholdNs := by
  have := (wf_iff.1 h).2.2.2.2.2.2.2; simpa [timingOk] using this

/-- The thirteen lines are below `WORD_W` (rule R8). -/
theorem wf_lines_lt (h : c.wf = true) : c.oeBit < c.wordW ∧ c.clkBit < c.wordW ∧ c.latBit < c.wordW ∧
    c.rowLsb + 3 < c.wordW ∧ c.r1Bit < c.wordW ∧ c.g1Bit < c.wordW ∧ c.b1Bit < c.wordW ∧ c.r2Bit < c.wordW ∧ c.g2Bit < c.wordW ∧
    c.b2Bit < c.wordW := by
  have := fun i (hi : i ∈ c.lines) => (wf_available h hi).1
  simp only [lines, rowLines, colorLines, List.cons_append, List.nil_append, List.forall_mem_cons] at this
  omega

/-- The control lines are pairwise distinct, and none is a row or a colour line (rule R8). -/
theorem wf_control_distinct (h : c.wf = true) :
    c.oeBit ≠ c.clkBit ∧ c.oeBit ≠ c.latBit ∧ c.clkBit ≠ c.latBit ∧
    c.oeBit ∉ c.rowLines ∧ c.clkBit ∉ c.rowLines ∧ c.latBit ∉ c.rowLines ∧
    c.oeBit ∉ c.colorLines ∧ c.clkBit ∉ c.colorLines ∧ c.latBit ∉ c.colorLines := by
  have := wf_nodup h
  simp only [lines, List.cons_append, List.nil_append, List.nodup_cons, List.mem_cons,
    List.mem_append, not_or] at this
  tauto

/-- No colour line is a row line (rule R8). -/
theorem wf_color_row (h : c.wf = true) {i : Nat} (hi : i ∈ c.colorLines) : i ∉ c.rowLines := by
  have := wf_nodup h
  simp only [lines, List.cons_append, List.nil_append, List.nodup_cons] at this
  have h4 := (List.nodup_append.1 this.2.2.2).2.2
  intro hr
  exact h4 _ hr _ hi rfl

/-- The six colour lines are pairwise distinct (rule R8). -/
theorem wf_color_nodup (h : c.wf = true) : c.colorLines.Nodup := by
  have := wf_nodup h
  simp only [lines, List.cons_append, List.nil_append, List.nodup_cons] at this
  exact (List.nodup_append.1 this.2.2.2).2.1

end Config

namespace Machine

variable {c : Config}

theorem testBit_bit (i j : Nat) : (bit i).testBit j = decide (i = j) := by
  simp [bit, Nat.testBit_two_pow]

/-- A word is known by its bits below `WORD_W` (rule R10). -/
theorem testBit_of_fits {w : Nat} {v : Word} (h : v < 2 ^ w) {i : Nat} (hi : v.testBit i = true) : i < w := by
  by_contra hw
  rw [Nat.testBit_lt_two_pow (h.trans_le (Nat.pow_le_pow_right (by omega) (by omega)))] at hi
  cases hi

/-- A value whose bits are all below `w` is a word of `w` bits. -/
theorem fits_of_testBit {w : Nat} {v : Word} (h : ∀ i, v.testBit i = true → i < w) : v < 2 ^ w := by
  apply Nat.lt_pow_two_of_testBit
  intro i hi
  by_contra hv
  have := h i (by simpa using hv)
  omega

/-- `~v` bit by bit (rule R10). -/
theorem testBit_wordNot (v : Word) (i : Nat) :
    (wordNot c v).testBit i = (decide (i < c.wordW) && !v.testBit i) := by
  rw [wordNot, Nat.testBit_xor, Nat.testBit_two_pow_sub_one, Nat.testBit_mod_two_pow]
  by_cases hi : i < c.wordW <;> simp [hi]

/-- `~v` is a word of the block's width, whatever `v` is (rule R10). -/
theorem wordNot_fits (v : Word) : wordNot c v < 2 ^ c.wordW :=
  fits_of_testBit fun i hi => by
    rw [testBit_wordNot, Bool.and_eq_true, decide_eq_true_eq] at hi
    exact hi.1

theorem wordFits_iff {w : Nat} {v : Word} : wordFits w v = true ↔ v < 2 ^ w := by
  simp [wordFits]

/-- Raising lines keeps a word a word (rule R141). -/
theorem wordFits_or {w : Nat} {u v : Word} (hu : wordFits w u = true) (hv : wordFits w v = true) :
    wordFits w (u ||| v) = true := by
  rw [wordFits_iff] at *; exact Nat.or_lt_two_pow hu hv

/-- Choosing lines of a word gives a word. -/
theorem wordFits_and {w : Nat} (u : Word) {v : Word} (hv : wordFits w v = true) :
    wordFits w (u &&& v) = true := by
  rw [wordFits_iff] at *; exact Nat.and_lt_two_pow u hv

theorem mem_rowLines {i : Nat} : i ∈ c.rowLines ↔ c.rowLsb ≤ i ∧ i < c.rowLsb + 4 := by
  simp [Config.rowLines]; omega

theorem testBit_oeMask (i : Nat) : (oeMask c).testBit i = decide (i = c.oeBit) := by
  simp [oeMask, testBit_bit, eq_comm]

theorem testBit_clkMask (i : Nat) : (clkMask c).testBit i = decide (i = c.clkBit) := by
  simp [clkMask, testBit_bit, eq_comm]

theorem testBit_latMask (i : Nat) : (latMask c).testBit i = decide (i = c.latBit) := by
  simp [latMask, testBit_bit, eq_comm]

/-- A nibble's bits. -/
theorem testBit_nibble (r k : Nat) : (r % 16).testBit k = (decide (k < 4) && r.testBit k) := by
  rw [show r % 16 = r % 2 ^ 4 from rfl, Nat.testBit_mod_two_pow]

theorem testBit_rowbits (r i : Nat) : (rowbits c r).testBit i =
    (decide (i ∈ c.rowLines) && r.testBit (i - c.rowLsb)) := by
  rw [rowbits, Nat.testBit_shiftLeft, testBit_nibble]
  by_cases hi : i ∈ c.rowLines
  · obtain ⟨h1, h2⟩ := mem_rowLines.1 hi
    simp [hi, h1, show i - c.rowLsb < 4 by omega]
  · have hi' : i < c.rowLsb ∨ c.rowLsb + 4 ≤ i := by rw [mem_rowLines] at hi; omega
    rcases hi' with h1 | h1
    · simp [hi, show ¬ c.rowLsb ≤ i by omega]
    · simp [hi, show ¬ i - c.rowLsb < 4 by omega]

theorem testBit_rowMask (i : Nat) : (rowMask c).testBit i = decide (i ∈ c.rowLines) := by
  have : rowMask c = rowbits c 15 := rfl
  rw [this, testBit_rowbits]
  by_cases hi : i ∈ c.rowLines
  · obtain ⟨h1, h2⟩ := mem_rowLines.1 hi
    obtain ⟨k, rfl⟩ := Nat.exists_eq_add_of_le h1
    have : k = 0 ∨ k = 1 ∨ k = 2 ∨ k = 3 := by omega
    rcases this with rfl | rfl | rfl | rfl <;> simp [hi] <;> decide
  · simp [hi]

theorem testBit_colorMask (i : Nat) : (colorMask c).testBit i = decide (i ∈ c.colorLines) := by
  simp [colorMask, testBit_bit, Config.colorLines, eq_comm, Bool.or_assoc]

theorem testBit_serialMask (i : Nat) :
    (serialMask c).testBit i = decide (i ∈ c.colorLines ∨ i = c.clkBit) := by
  simp [serialMask, testBit_colorMask, testBit_clkMask]

theorem testBit_engineMask (i : Nat) : (engineMask c).testBit i = decide (i ∈ c.lines) := by
  simp only [engineMask, Nat.testBit_or, testBit_serialMask, testBit_oeMask, testBit_latMask,
    testBit_rowMask, Config.lines, List.mem_append, List.mem_cons, List.not_mem_nil, or_false]
  by_cases h1 : i ∈ c.colorLines <;> by_cases h2 : i ∈ c.rowLines <;>
    simp [h1, h2, Bool.or_comm, Bool.or_assoc]

/-- A mask of assigned lines is a word (rules R8, R106). -/
theorem wordFits_of_lines (h : c.wf = true) {m : Word} (hm : ∀ i, m.testBit i = true → i ∈ c.lines) :
    wordFits c.wordW m = true :=
  wordFits_iff.2 (fits_of_testBit fun i hi => (Config.wf_available h (hm i hi)).1)

/-- A word in which only colour bits are 1, bit by bit (rule R41). -/
theorem colorOnly_iff {v : Word} : v &&& colorMask c = v ↔
    ∀ i, v.testBit i = true → i ∈ c.colorLines := by
  constructor
  · intro hv i hi
    rw [← hv, Nat.testBit_and, testBit_colorMask, Bool.and_eq_true, decide_eq_true_eq] at hi
    exact hi.2
  · intro hv
    apply Nat.eq_of_testBit_eq
    intro i
    rw [Nat.testBit_and, testBit_colorMask]
    by_cases hvi : v.testBit i = true
    · simp [hvi, hv i hvi]
    · simp [hvi]

/-- A word in which only colour bits are 1 is a word of the block's width (rules R10, R41). -/
theorem colorOnly_fits (h : c.wf = true) {v : Word} (hv : v &&& colorMask c = v) : v < 2 ^ c.wordW :=
  fits_of_testBit fun i hi => (Config.wf_available h
    (List.mem_append_right _ (colorOnly_iff.1 hv i hi))).1

theorem testBit_setLine (w : Word) (i : Nat) (b : Bool) (j : Nat) :
    (setLine w i b).testBit j = if j = i then b else w.testBit j := by
  unfold setLine
  by_cases hw : w.testBit i = b
  · by_cases hj : j = i
    · subst hj; simp [hw]
    · simp [hw, hj]
  · by_cases hj : j = i
    · subst hj; revert hw; cases b <;> cases hwj : w.testBit j <;> simp [hwj, testBit_bit]
    · simp [hw, hj, testBit_bit, Ne.symm hj]

/-- The lines of a sub-row, in the order red, green, blue field (rule R101). -/
def subLines (c : Config) : SubRow → List Nat
  | .one => [c.r1Bit, c.g1Bit, c.b1Bit]
  | .two => [c.r2Bit, c.g2Bit, c.b2Bit]

/-- Rule R165, bit by bit: outside the three fields of the sub-row every bit keeps its value. -/
theorem mergePixel_other (sub : SubRow) (q : PlaneBits) (v : Word) {i : Nat}
    (hi : i ∉ subLines c sub) : (mergePixel c sub q v).testBit i = v.testBit i := by
  cases sub <;> simp only [subLines, List.mem_cons, List.not_mem_nil, or_false, not_or] at hi <;>
    simp [mergePixel, testBit_setLine, hi]

/-- A merge keeps a word free of other bits than colour bits (rules R41, R165). -/
theorem mergePixel_colorOnly (sub : SubRow) (q : PlaneBits) {v : Word}
    (hv : v &&& colorMask c = v) : mergePixel c sub q v &&& colorMask c = mergePixel c sub q v := by
  rw [colorOnly_iff] at *
  intro i hi
  by_cases hm : i ∈ subLines c sub
  · cases sub <;> simp only [subLines, List.mem_cons, List.not_mem_nil, or_false] at hm <;>
      simp [Config.colorLines] <;> tauto
  · rw [mergePixel_other sub q v hm] at hi
    exact hv i hi

/-- The row field of a word (rule R104), bit by bit. -/
theorem rowField_eq_iff {w : Word} {r : Nat} (hr : r < 16) :
    rowField c w = r ↔ ∀ k, k < 4 → w.testBit (c.rowLsb + k) = r.testBit k := by
  have key : ∀ k, (rowField c w).testBit k = (decide (k < 4) && w.testBit (c.rowLsb + k)) := by
    intro k
    rw [rowField, testBit_nibble, Nat.testBit_shiftRight]
  constructor
  · rintro rfl k hk
    simp [key, hk]
  · intro hk
    apply Nat.eq_of_testBit_eq
    intro k
    rw [key]
    by_cases h4 : k < 4
    · simp [h4, hk k h4]
    · have : r.testBit k = false := by
        apply Nat.testBit_lt_two_pow
        calc r < 2 ^ 4 := hr
          _ ≤ 2 ^ k := Nat.pow_le_pow_right (by omega) (by omega)
      simp [h4, this]

end Machine

end Sys2Proof
end

