-- ==== Sys2Proof/Laws/Ops.lean ====
section
/-! SUPPORT. What each shared operation can do, said once: a cell access, the host's accesses in progress,
the dwell table, the fetch and the step. -/

namespace Sys2Proof.Machine

/-- A cell access goes on exactly when the cell exists (rule R60). -/
theorem withCell_next {s t : State} {a : FbAddr} {r : Result} :
    withCell s a r = .next t ↔ a.inRange s.cfg = true ∧ r = .next t := by
  unfold withCell; split <;> simp_all

theorem withCell_of_inRange {s : State} {a : FbAddr} {r : Result} (h : a.inRange s.cfg = true) :
    withCell s a r = r := if_pos h

/-- A cell taken out and the cells left are those there were (rule R167). -/
theorem takeCell_perm (first : FbAddr) (others : List FbAddr) (k : Nat) :
    ((takeCell first others k).1 :: (takeCell first others k).2).Perm (first :: others) := by
  induction others generalizing first k with
  | nil => exact .refl _
  | cons second others ih =>
    cases k with
    | zero => exact .refl _
    | succ k => exact (List.Perm.swap _ _ _).trans ((ih second k).cons first)

/-- What one access of the host's operation in progress can do. -/
theorem workStep_next {s t : State} (h : workStep s = .next t) :
    (s.work = [] ∧ t = s) ∨
    (∃ a sub q later, s.work = .update a sub q :: later ∧ a.inRange s.cfg = true ∧
      t = { s with
        work := .store a (mergePixel s.cfg sub q (s.fb.read a)) :: later
        hist := s.hist ++ [.fbRead a (s.fb.read a)] }) ∨
    (∃ a v later, s.work = .store a v :: later ∧ a.inRange s.cfg = true ∧
      t = { s with work := later, fb := s.fb.write a v, hist := s.hist ++ [.fbWrite a v] }) ∨
    (∃ first others later a rest more, s.work = .clear first others :: later ∧
      takeCell first others (Config.clearPick s.tick) = (a, rest) ∧ a.inRange s.cfg = true ∧
      ((rest = [] ∧ more = []) ∨ ∃ b l, rest = b :: l ∧ more = [.clear b l]) ∧
      t = { s with work := more ++ later, fb := s.fb.write a 0, hist := s.hist ++ [.fbWrite a 0] }) := by
  unfold workStep at h
  split at h
  · next hw => left; exact ⟨hw, by simpa using h.symm⟩
  · next a sub q later hw =>
    obtain ⟨ha, h⟩ := withCell_next.1 h
    exact .inr (.inl ⟨a, sub, q, later, hw, ha, by simpa [State.record] using h.symm⟩)
  · next a v later hw =>
    obtain ⟨ha, h⟩ := withCell_next.1 h
    exact .inr (.inr (.inl ⟨a, v, later, hw, ha, by simpa [State.record, State.fbStore] using h.symm⟩))
  · next first others later hw =>
    right; right; right
    split at h
    · next a heq =>
      obtain ⟨ha, h⟩ := withCell_next.1 h
      exact ⟨first, others, later, a, [], [], hw, heq, ha, .inl ⟨rfl, rfl⟩,
        by simpa [State.record, State.fbStore] using h.symm⟩
    · next a b l heq =>
      obtain ⟨ha, h⟩ := withCell_next.1 h
      exact ⟨first, others, later, a, b :: l, [.clear b l], hw, heq, ha, .inr ⟨b, l, rfl, rfl⟩,
        by simpa [State.record, State.fbStore] using h.symm⟩

/-- A slot of the table (rules R39, R221). -/
theorem dwellTable_getElem? (c : Config) {k : Nat} (hk : k < 7) :
    (dwellTable c)[k]? = some (dwellSlot c k) := by
  simp [dwellTable, hk]

/-- A plane's slot is one of the seven (rule R121 (h)). -/
theorem planeSlot_lt {c : Config} {b : Nat} (hb : b < c.P) : planeSlot c b < 7 := by
  unfold planeSlot; omega

/-- The cells of the buffer are those of rule R60 (a). -/
theorem mem_allCells {c : Config} {a : FbAddr} : a ∈ allCells c ↔ a.inRange c = true := by
  rw [FbAddr.inRange_iff]
  simp only [allCells, List.mem_flatMap, List.mem_range, List.mem_map]
  constructor
  · rintro ⟨b, hb, r, hr, k, hk, rfl⟩; exact ⟨hb, hr, hk⟩
  · rintro ⟨hb, hr, hk⟩; exact ⟨_, hb, _, hr, _, hk, rfl⟩

/-- An operation is fetched in one of two ways: by the engine from `upc`, or by the host from its
commands, when it has no operation in progress. -/
theorem fetch_operation {s t : State} {i : Instr} (h : s.fetch = .operation i t) : s.cfg.wf = true ∧
    ((s.mover = .engine ∧ s.run = .running ∧ decodeUop s.pc.upc = .ok i ∧ t = s.advance) ∨
      ∃ p rest, s.mover = .host ∧ s.work = [] ∧ s.inbox = p :: rest ∧ decodeCmd s.cfg.wordW p.code p.ops = .ok i ∧
        t = s.receive p rest) := by
  unfold State.fetch at h
  split at h
  · next hwf =>
    refine ⟨hwf, ?_⟩
    split at h
    · next hm =>
      left
      unfold State.fetchEngine at h
      split at h
      · next hr =>
        split at h
        · next hd => simp only [Fetched.operation.injEq] at h; obtain ⟨rfl, rfl⟩ := h; exact ⟨hm, hr, hd, rfl⟩
        · cases h
      · cases h
    · next hm =>
      right
      unfold State.fetchHost at h
      split at h
      · cases h
      · next hw =>
        split at h
        · cases h
        · next p rest hi =>
          split at h
          · next hd =>
            simp only [Fetched.operation.injEq] at h
            obtain ⟨rfl, rfl⟩ := h
            exact ⟨p, rest, hm, hw, hi, hd, rfl⟩
          · cases h
  · cases h

/-- An agent that has nothing to do leaves the state but for its turn. -/
theorem fetch_idle {s t : State} (h : s.fetch = .idle t) : t = s.advance := by
  unfold State.fetch State.fetchEngine State.fetchHost at h
  repeat' split at h
  all_goals first | (injection h with h; exact h.symm) | cases h

theorem fetch_access {s t : State} (h : s.fetch = .access t) :
    s.cfg.wf = true ∧ s.mover = .host ∧ s.work ≠ [] ∧ t = s.advance := by
  unfold State.fetch State.fetchEngine State.fetchHost at h
  split at h
  · next hwf =>
    split at h
    · repeat' split at h
      all_goals cases h
    · next hm =>
      split at h
      · next hw => injection h with h; exact ⟨hwf, hm, by simp [hw], h.symm⟩
      · repeat' split at h
        all_goals cases h
  · cases h

/-- What a step that goes on can be: nothing to do, an access in progress, or an operation. -/
theorem step_next {s t : State} (h : step s = .next t) :
    t = s.advance ∨
    (s.mover = .host ∧ s.work ≠ [] ∧ workStep s.advance = .next t) ∨
    (∃ i, s.mover = .engine ∧ s.run = .running ∧ decodeUop s.pc.upc = .ok i ∧
      exec i s.advance = .next t) ∨
    (∃ i p rest, s.mover = .host ∧ s.work = [] ∧ s.inbox = p :: rest ∧
      decodeCmd s.cfg.wordW p.code p.ops = .ok i ∧ exec i (s.receive p rest) = .next t) := by
  unfold step at h
  split at h
  · cases h
  · next hf => left; cases h; exact fetch_idle hf
  · next hf =>
    obtain ⟨-, hm, hw, rfl⟩ := fetch_access hf
    exact .inr (.inl ⟨hm, hw, h⟩)
  · cases h
  · next i u hf =>
    obtain ⟨-, ⟨hm, hr, hd, rfl⟩ | ⟨p, rest, hm, hw, hi, hd, rfl⟩⟩ := fetch_operation hf
    · exact .inr (.inr (.inl ⟨i, hm, hr, hd, h⟩))
    · exact .inr (.inr (.inr ⟨i, p, rest, hm, hw, hi, hd, h⟩))

/-- The engine's step, computed (rule R182). -/
theorem step_engine {s : State} {i : Instr} (hc : s.cfg.wf = true) (hm : s.mover = .engine)
    (hr : s.run = .running) (hd : decodeUop s.pc.upc = .ok i) : step s = exec i s.advance := by
  simp [step, State.fetch, hc, hm, State.fetchEngine, hr, decode, hd]

/-- The host's step while an operation of its is in progress, computed. -/
theorem step_access {s : State} (hc : s.cfg.wf = true) (hm : s.mover = .host) (hw : s.work ≠ []) :
    step s = workStep s.advance := by
  simp only [step, State.fetch, hc, hm, State.fetchHost]
  cases h : s.work with
  | nil => exact absurd h hw
  | cons w l => simp

/-- The host's step with no operation in progress, computed. -/
theorem step_command {s : State} {i : Instr} {p : Packet} {rest : List Packet} (hc : s.cfg.wf = true)
    (hm : s.mover = .host) (hw : s.work = []) (hi : s.inbox = p :: rest)
    (hd : decodeCmd s.cfg.wordW p.code p.ops = .ok i) : step s = exec i (s.receive p rest) := by
  simp [step, State.fetch, hc, hm, State.fetchHost, hw, hi, decode, hd]

/-- A command is no micro-operation, and its masks are words of the width it was decoded for (rules R10,
R115). -/
theorem decodeCmd_ok {w : Nat} {u : BitVec 4} {ops : List Operand} {i : Instr}
    (h : decodeCmd w u ops = .ok i) : i.isUop = false ∧ i.fits w = true := by
  unfold decodeCmd noOperands oneMask pixelOperands priorityOperand delayOperand at h
  repeat' split at h
  all_goals cases h
  all_goals exact ⟨rfl, by first | rfl | assumption⟩

/-- The fourteen codes a micro-operation decodes from (rule R114). -/
theorem decodeUop_ok {u : BitVec 4} {i : Instr} (h : decodeUop u = .ok i) : encode i = .uop u := by
  revert h
  have : ∀ u : BitVec 4, u = BitVec.ofNat 4 u.toNat := fun u => by simp
  rw [this u]
  have hu := u.isLt
  generalize u.toNat = n at *
  revert i
  interval_cases n <;> intro i h <;> first | (cases h; rfl) | cases h

/-- Every code below 14 decodes (rules R114, R116). -/
theorem decodeUop_of_lt {u : BitVec 4} (h : u.toNat < 14) : ∃ i, decodeUop u = .ok i := by
  unfold decodeUop
  generalize hn : u.toNat = n at h
  interval_cases n <;> exact ⟨_, rfl⟩

end Sys2Proof.Machine
end

