-- ==== Sys2Proof/Laws/Fetch.lean ====
section
/-! SUPPORT. A table word that is placed is the operation the next step runs (log entry 5). -/

namespace Sys2Proof.Machine

/-- A table word below 16 is a micro-operation's code. -/
theorem decodeTableWord_uop {n w : Nat} {i : Instr} (hw : w < 16) (h : decodeTableWord n w = some i) :
    decodeUop (BitVec.ofNat 4 w) = .ok i := by
  simp only [decodeTableWord, tableWord, hw, if_true, decode] at h
  revert h
  cases decodeUop (BitVec.ofNat 4 w) <;> simp

/-- A table word from 16 on is a command's code, beside which the operands are zero. -/
theorem decodeTableWord_cmd {n w : Nat} {i : Instr} (hw : ¬ w < 16) (h : decodeTableWord n w = some i) :
    w < 32 ∧ decodeCmd 0 (BitVec.ofNat 4 w) (zeroOperands (BitVec.ofNat 4 w)) = .ok i := by
  simp only [decodeTableWord, tableWord, hw, if_false] at h
  by_cases h32 : w < 32
  · simp only [h32, if_true, decode] at h
    refine ⟨h32, ?_⟩
    revert h
    cases decodeCmd 0 (BitVec.ofNat 4 w) (zeroOperands (BitVec.ofNat 4 w)) <;> simp
  · simp [h32] at h

/-- Zero operands decode alike at every width of a word: zero fits in any. -/
theorem decodeCmd_zeroOperands (v w : Nat) (code : BitVec 4) :
    decodeCmd v code (zeroOperands code) = decodeCmd w code (zeroOperands code) := by
  have zero : ∀ n, wordFits n 0 = true := fun n => by simp [wordFits]
  unfold decodeCmd zeroOperands
  split <;> simp_all [oneMask]

/-- A micro-operation that is placed runs next, on the state as it was but for the run state and `upc`. -/
theorem step_withFetchWord_uop {s : State} {n w : Nat} {i : Instr} (hc : s.cfg.wf = true) (hw : w < 16)
    (h : decodeTableWord n w = some i) : step (s.withFetchWord n w) =
      exec i { s with run := .running, pc := { s.pc with upc := BitVec.ofNat 4 w }, tick := s.tick + 1 } := by
  have hp : s.withFetchWord n w = s.placeUop (BitVec.ofNat 4 w) := by
    simp [State.withFetchWord, State.placeWord, tableWord, hw]
  rw [hp, step_engine (i := i) (by simpa [State.placeUop] using hc) rfl rfl (decodeTableWord_uop hw h)]
  simp [State.placeUop, State.advance]

/-- A command that is placed runs next, on the state as it was but for the host's operation in progress. -/
theorem step_withFetchWord_cmd {s : State} {n w : Nat} {i : Instr} (hc : s.cfg.wf = true) (hw : ¬ w < 16)
    (h : decodeTableWord n w = some i) : step (s.withFetchWord n w) =
      exec i { s with work := [], tick := s.tick + 1 } := by
  obtain ⟨h32, hd⟩ := decodeTableWord_cmd hw h
  have hp : s.withFetchWord n w =
      s.placeCmd (BitVec.ofNat 4 w) (zeroOperands (BitVec.ofNat 4 w)) := by
    simp [State.withFetchWord, State.placeWord, tableWord, hw, h32]
  rw [hp, step_command (i := i) (by simpa [State.placeCmd] using hc) rfl rfl rfl
    ((decodeCmd_zeroOperands _ 0 _).trans hd)]
  simp [State.placeCmd, State.receive, State.advance]

end Sys2Proof.Machine
end

