-- ==== Sys2Proof/Laws/PerInstr.lean ====
section
/-! SUPPORT. What holds of every operation as syntax, one lemma per constructor. -/

namespace Sys2Proof.Laws.EncodeWf

/-- The encoder yields what the spec lets be presented to a block in whose words the operation's masks fit
(rules R10, R109, R114, R115). -/
def Statement (i : Instr) : Prop := ∀ w, i.fits w = true → (encode i).wf w = true

theorem rowchk : Statement .rowchk := fun _ _ => rfl
theorem colClr : Statement .colClr := fun _ _ => rfl
theorem stabA : Statement .stabA := fun _ _ => rfl
theorem colSet : Statement .colSet := fun _ _ => rfl
theorem stabB : Statement .stabB := fun _ _ => rfl
theorem colClk : Statement .colClk := fun _ _ => rfl
theorem stabC : Statement .stabC := fun _ _ => rfl
theorem blank : Statement .blank := fun _ _ => rfl
theorem rowSet : Statement .rowSet := fun _ _ => rfl
theorem rowClr : Statement .rowClr := fun _ _ => rfl
theorem latSet : Statement .latSet := fun _ _ => rfl
theorem latClr : Statement .latClr := fun _ _ => rfl
theorem unblank : Statement .unblank := fun _ _ => rfl
theorem dwell : Statement .dwell := fun _ _ => rfl
theorem init : Statement .init := fun _ _ => rfl
theorem setupout (m : Word) : Statement (.setupout m) := fun w h => by
  simpa [encode, Encoded.wf, Encoded.codeDefined, Encoded.operandsOk, Encoded.channelsOk, Encoded.wordsOk,
    Instr.fits] using h
theorem setbits (m : Word) : Statement (.setbits m) := fun w h => by
  simpa [encode, Encoded.wf, Encoded.codeDefined, Encoded.operandsOk, Encoded.channelsOk, Encoded.wordsOk,
    Instr.fits] using h
theorem clrbits (m : Word) : Statement (.clrbits m) := fun w h => by
  simpa [encode, Encoded.wf, Encoded.codeDefined, Encoded.operandsOk, Encoded.channelsOk, Encoded.wordsOk,
    Instr.fits] using h
theorem setpixel (x y : Int) (color : Color) : Statement (.setpixel x y color) := fun w _ => by
  have hr := color.red.isLt
  have hg := color.green.isLt
  have hb := color.blue.isLt
  simp [encode, Encoded.wf, Encoded.codeDefined, Encoded.operandsOk, Encoded.channelsOk, Encoded.wordsOk,
    hr, hg, hb]
theorem clearbuf : Statement .clearbuf := fun _ _ => rfl
theorem start (priority : Priority) : Statement (.start priority) := fun _ _ => rfl
theorem stop : Statement .stop := fun _ _ => rfl
theorem pause : Statement .pause := fun _ _ => rfl
theorem resume : Statement .resume := fun _ _ => rfl
theorem refreshPass : Statement .refreshPass := fun _ _ => rfl
theorem delay (n : Nat) : Statement (.delay n) := fun _ _ => rfl

end Sys2Proof.Laws.EncodeWf
end

