-- ==== Sys2Proof/Tests/Slice0.lean ====
section
/-! SUPPORT. The model's own tests. Expected values come from the spec's vectors (`95_test_vectors.md`, whose
names stand in the comments) and rules. Then, for every statement that has hypotheses, a concrete state and
operands that meet them. -/

namespace Sys2Proof.Tests

open Sys2Proof.Machine

/-! ## Ill-formed terms are refused -/

theorem test_ex64_is_admitted : Config.ex64.wf = true := by decide
theorem test_t2_is_admitted : Config.t2.wf = true := by decide
theorem test_wf_refuses_planes :
    { Config.t2 with P := 0 }.wf = false ∧ { Config.t2 with P := 8 }.wf = false := by decide
theorem test_wf_refuses_rows :
    { Config.t2 with R := 0, H := 0 }.wf = false ∧ { Config.t2 with R := 17, H := 34 }.wf = false := by decide
theorem test_wf_refuses_columns :
    { Config.t2 with colsPerSubPanel := 0, W := 0 }.wf = false ∧
    { Config.t2 with chainedBoardsCnt := 0, W := 0 }.wf = false ∧
    { Config.t2 with W := 0 }.wf = false ∧ { Config.t2 with W := 3 }.wf = false := by decide
theorem test_wf_refuses_height :
    { Config.t2 with H := 2 }.wf = false ∧ { Config.t2 with H := 12 }.wf = false := by decide
theorem test_wf_refuses_shared_line :
    { Config.t2 with oeBit := 3 }.wf = false ∧ { Config.t2 with b2Bit := 10 }.wf = false := by decide
theorem test_wf_refuses_unavailable_line :
    { Config.t2 with oeBit := 5 }.wf = false ∧ { Config.t2 with oeBit := 32 }.wf = false := by decide
/-- A mask of the available lines that is no word, and a line that lies in the mask but not below `WORD_W`. -/
theorem test_wf_refuses_words_too_wide :
    { Config.t2 with availableMask := 0x10BC6CF9F }.wf = false ∧ { Config.t2 with wordW := 25 }.wf = false ∧
    { Config.t2 with b2Bit := 32, availableMask := 0x10BC6CF9F }.wf = false := by decide
/-- `WORD_W` is a parameter: 28 bits hold the default lines and mask, 64 leave room for a line above 31. -/
theorem test_wf_admits_other_widths :
    { Config.t2 with wordW := 28 }.wf = true ∧ { Config.t2 with wordW := 64 }.wf = true ∧
    { Config.t2 with wordW := 64, b2Bit := 40, availableMask := 0x1000BC6CF9F }.wf = true := by decide
theorem test_wf_refuses_channel_map : { Config.t2 with channelMap := ⟨.red, .red, .blue⟩ }.wf = false := by decide
theorem test_wf_refuses_timing :
    { Config.t2 with rowClockTime := 0 }.wf = false ∧
    { Config.t2 with sleepOvershootNs := 28001 }.wf = false := by decide
theorem test_wf_refuses_reserved_code :
    (Encoded.uop 0b1110#4).wf 32 = false ∧ (Encoded.cmd 0b1100#4 []).wf 32 = false := by decide
theorem test_wf_refuses_operands :
    (Encoded.cmd 0b0000#4 [.nat 0]).wf 32 = false ∧ (Encoded.cmd 0b0010#4 []).wf 32 = false ∧
    (Encoded.cmd 0b0100#4 [.int 0, .int 0]).wf 32 = false ∧ (Encoded.cmd 0b0110#4 [.nat 0]).wf 32 = false ∧
    (Encoded.cmd 0b1011#4 [.hw 0]).wf 32 = false := by decide
theorem test_wf_refuses_channel :
    (Encoded.cmd 0b0100#4 [.int 0, .int 0, .color 256 0 0]).wf 32 = false ∧
    (Encoded.cmd 0b0100#4 [.int 0, .int 0, .color 0 256 0]).wf 32 = false ∧
    (Encoded.cmd 0b0100#4 [.int 0, .int 0, .color 0 0 256]).wf 32 = false := by decide

theorem test_wf_refuses_mask :
    (Encoded.cmd 0b0010#4 [.hw 0x100000000]).wf 32 = false ∧
    (Encoded.cmd 0b0010#4 [.hw 0x100000000]).wf 33 = true ∧
    (Instr.setupout 0x100000000).fits 32 = false ∧ (Instr.clrbits 0x100000000).fits 32 = false := by decide

/-! ## Decoding, by the codes of rules R114 and R115 -/

theorem test_decode_column_step :
    decode 32 (.uop 0b0000#4) = .ok .rowchk ∧ decode 32 (.uop 0b0001#4) = .ok .colClr ∧
    decode 32 (.uop 0b0010#4) = .ok .stabA ∧ decode 32 (.uop 0b0011#4) = .ok .colSet ∧
    decode 32 (.uop 0b0100#4) = .ok .stabB ∧ decode 32 (.uop 0b0101#4) = .ok .colClk ∧
    decode 32 (.uop 0b0110#4) = .ok .stabC := by decide
theorem test_decode_plane_tail :
    decode 32 (.uop 0b0111#4) = .ok .blank ∧ decode 32 (.uop 0b1000#4) = .ok .rowSet ∧
    decode 32 (.uop 0b1001#4) = .ok .rowClr ∧ decode 32 (.uop 0b1010#4) = .ok .latSet ∧
    decode 32 (.uop 0b1011#4) = .ok .latClr ∧ decode 32 (.uop 0b1100#4) = .ok .unblank ∧
    decode 32 (.uop 0b1101#4) = .ok .dwell := by decide
theorem test_decode_register_primitives :
    decode 32 (.cmd 0b0000#4 []) = .ok .init ∧
    decode 32 (.cmd 0b0001#4 [.hw 0x03C6079C]) = .ok (.setupout 0x03C6079C) ∧
    decode 32 (.cmd 0b0010#4 [.hw 0x00020008]) = .ok (.setbits 0x00020008) ∧
    decode 32 (.cmd 0b0011#4 [.hw 0x03C40008]) = .ok (.clrbits 0x03C40008) := by decide
theorem test_decode_pixels :
    decode 32 (.cmd 0b0100#4 [.int 1, .int 0, .color 255 0 128]) = .ok (.setpixel 1 0 ⟨0xFF#8, 0x00#8, 0x80#8⟩) ∧
    decode 32 (.cmd 0b0101#4 []) = .ok .clearbuf := by decide
theorem test_decode_control :
    decode 32 (.cmd 0b0110#4 [.prio 9]) = .ok (.start 9) ∧ decode 32 (.cmd 0b0111#4 []) = .ok .stop ∧
    decode 32 (.cmd 0b1000#4 []) = .ok .pause ∧ decode 32 (.cmd 0b1001#4 []) = .ok .resume ∧
    decode 32 (.cmd 0b1010#4 []) = .ok .refreshPass ∧
    decode 32 (.cmd 0b1011#4 [.nat 31000]) = .ok (.delay 31000) := by decide
theorem test_decode_refusals :
    decode 32 (.uop 0b1111#4) = .error (.reservedUop 0b1111#4) ∧
    decode 32 (.cmd 0b1100#4 []) = .error (.reservedCmd 0b1100#4) ∧
    decode 32 (.cmd 0b0101#4 [.nat 0]) = .error (.wrongOperands 0b0101#4) ∧
    decode 32 (.cmd 0b0100#4 [.int 0, .int 0, .color 0 256 0]) = .error .channelTooWide ∧
    decode 32 (.cmd 0b0011#4 [.hw 0x100000000]) = .error .wordTooWide := by decide
/-- The numbering of log entry 5. -/
theorem test_table_words :
    decodeTableWord 8 0x0D = some .dwell ∧ decodeTableWord 8 0x1A = some .refreshPass ∧
    decodeTableWord 8 0x0E = none ∧ decodeTableWord 8 0x1C = none ∧ decodeTableWord 8 0x20 = none := by decide

/-! ## Small states -/

/-- The buffer of V-FB14. -/
def cells : Memory :=
  [(⟨0, 0, 1⟩, 0x00020000), (⟨0, 1, 0⟩, 0x01800000), (⟨1, 0, 1⟩, 0x00420000),
   (⟨1, 1, 0⟩, 0x01000000)]

/-- `T2` right after reset, with the draws fixed. -/
def fresh : State :=
  { State.resetWith Config.t2 with out := 0, cell := 0, panel := ⟨[], []⟩, env := true }

/-- Set up and not running. -/
def ready : State := { fresh with run := .idle, dir := 0x03C6079C, fb := cells }

/-- Running, about to execute `upc`. -/
def running (row plane col : Nat) (upc : BitVec 4) (out : Word) : State :=
  { ready with run := .running, pc := ⟨row, plane, col, upc⟩, out := out }

/-- What an operation answers, if it goes on. -/
def after (i : Instr) (s : State) : Option State :=
  match exec i s with
  | .next t => some t
  | .fault _ => none
  | .refused _ => none

/-- Why an operation is refused, if it is. -/
def why (i : Instr) (s : State) : Option Refusal :=
  match exec i s with
  | .next _ => none
  | .fault _ => none
  | .refused r => some r

/-- `OUT`, the port write or row check recorded last, and where the scan goes. -/
def trace (i : Instr) (s : State) : Option (Word × Option Event × Pos) :=
  (after i s).map fun t => (t.out, t.hist.getLast?, t.pc)

/-! ## The scan sequence -/

/-- V-SC12, V-SC13. -/
theorem test_rowchk_stop_wins :
    ((after .rowchk { running 1 0 0 Upc.ROWCHK 0 with stopReq := true, pauseReq := true }).map fun t =>
      (t.run, t.paused, t.pc, t.hist)) =
      some (.idle, false, ⟨0, 0, 0, Upc.ROWCHK⟩, [.rowChk 1 .stopped]) ∧
    ((after .rowchk { running 1 0 0 Upc.ROWCHK 0 with pauseReq := true }).map fun t =>
      (t.run, t.paused, t.pc, t.hist)) =
      some (.running, true, ⟨1, 0, 0, Upc.ROWCHK⟩, [.rowChk 1 .paused]) := by decide
/-- V-SC1, V-SC14. -/
theorem test_rowchk_go :
    trace .rowchk (running 0 0 0 Upc.ROWCHK 0) =
      some (0, some (.rowChk 0 .go), ⟨0, 0, 0, Upc.COL_CLR⟩) ∧
    trace .rowchk { running 1 0 0 Upc.ROWCHK 0 with mode := .oneshot, stopReq := true, pauseReq := true } =
      some (0, some (.rowChk 1 .go), ⟨1, 0, 0, Upc.COL_CLR⟩) := by decide
/-- V-SC2, V-SC8. -/
theorem test_colClr :
    trace .colClr (running 0 0 1 Upc.COL_CLR 0x00000008) =
      some (0, some (.clr 0x03C40008), ⟨0, 0, 1, Upc.STAB_A⟩) ∧
    trace .colClr (running 0 0 0 Upc.COL_CLR 0) =
      some (0, some (.clr 0x03C60008), ⟨0, 0, 0, Upc.STAB_A⟩) := by decide
/-- V-SC3, V-SC8. -/
theorem test_colSet :
    trace .colSet (running 0 0 1 Upc.COL_SET 0) =
      some (0x00020000, some (.set 0x00020000), ⟨0, 0, 1, Upc.STAB_B⟩) ∧
    trace .colSet (running 0 0 0 Upc.COL_SET 0) =
      some (0, some (.set 0x00000000), ⟨0, 0, 0, Upc.STAB_B⟩) := by decide
/-- V-SC11: the cell is rewritten between the two reads. -/
theorem test_colSet_torn :
    trace .colSet { running 0 0 1 Upc.COL_SET 0x00020000 with fb := [(⟨0, 0, 1⟩, 0x00040000)] } =
      some (0x00060000, some (.set 0x00040000), ⟨0, 0, 1, Upc.STAB_B⟩) := by decide
/-- V-SC4. -/
theorem test_colClk :
    trace .colClk (running 0 0 1 Upc.COL_CLK 0x00020000) =
      some (0x00020008, some (.set 0x00000008), ⟨0, 0, 1, Upc.STAB_C⟩) := by decide
/-- V-SC5, V-SC16. -/
theorem test_stabC :
    ((after .stabC (running 0 0 0 Upc.STAB_C 0)).map State.pc) = some ⟨0, 0, 1, Upc.COL_CLR⟩ ∧
    ((after .stabC (running 0 0 1 Upc.STAB_C 0)).map State.pc) = some ⟨0, 0, 1, Upc.BLANK⟩ ∧
    ((after .stabC { running 1 1 0 Upc.STAB_C 0 with
      cfg := { Config.t2 with colsPerSubPanel := 1, W := 1 } }).map State.pc) =
      some ⟨1, 1, 0, Upc.BLANK⟩ := by decide
/-- The example of R185. -/
theorem test_stabA_stabB :
    after .stabA { running 0 0 0 Upc.STAB_A 0 with cfg := { Config.t2 with stabilizeNs := 256 } } =
      some { running 0 0 0 Upc.COL_SET 0 with
        cfg := { Config.t2 with stabilizeNs := 256 }
        hist := [.delay 256 (.spin (Config.spinIters 256))] } ∧
    ((after .stabB (running 0 0 0 Upc.STAB_B 0)).map State.pc) = some ⟨0, 0, 0, Upc.COL_CLK⟩ := by
  exact ⟨rfl, rfl⟩
/-- V-SC6: the tail of `(1, 0)`. -/
theorem test_tail_row :
    trace .blank (running 1 0 1 Upc.BLANK 0x08) =
      some (0x0C, some (.set 0x04), ⟨1, 0, 1, Upc.ROW_SET⟩) ∧
    trace .rowSet (running 1 0 1 Upc.ROW_SET 0x0C) =
      some (0x8C, some (.set 0x80), ⟨1, 0, 1, Upc.ROW_CLR⟩) ∧
    trace .rowClr (running 1 0 1 Upc.ROW_CLR 0x8C) =
      some (0x8C, some (.clr 0x700), ⟨1, 0, 1, Upc.LAT_SET⟩) := by decide
/-- V-SC6, continued. -/
theorem test_tail_latch :
    trace .latSet (running 1 0 1 Upc.LAT_SET 0x8C) =
      some (0x9C, some (.set 0x10), ⟨1, 0, 1, Upc.LAT_CLR⟩) ∧
    trace .latClr (running 1 0 1 Upc.LAT_CLR 0x9C) =
      some (0x8C, some (.clr 0x10), ⟨1, 0, 1, Upc.UNBLANK⟩) ∧
    trace .unblank (running 1 0 1 Upc.UNBLANK 0x8C) =
      some (0x88, some (.clr 0x04), ⟨1, 0, 1, Upc.DWELL⟩) := by decide
/-- V-SC10: row 5 over row 15. -/
theorem test_row_address :
    trace .rowSet { running 5 0 127 Upc.ROW_SET 0x780 with cfg := Config.ex64 } =
      some (0x780, some (.set 0x280), ⟨5, 0, 127, Upc.ROW_CLR⟩) ∧
    trace .rowClr { running 5 0 127 Upc.ROW_CLR 0x780 with cfg := Config.ex64 } =
      some (0x280, some (.clr 0x500), ⟨5, 0, 127, Upc.LAT_SET⟩) := by decide
/-- V-SC7. -/
theorem test_dwell_advances :
    trace .dwell (running 0 0 1 Upc.DWELL 0) =
      some (0, some (.delay 31000 (.sleep 31000)), ⟨0, 1, 0, Upc.COL_CLR⟩) ∧
    trace .dwell (running 0 1 1 Upc.DWELL 0) =
      some (0, some (.delay 63000 (.sleep 63000)), ⟨1, 0, 0, Upc.ROWCHK⟩) := by decide
/-- V-SC7: the end of a pass in both modes. -/
theorem test_dwell_ends_a_pass :
    ((after .dwell (running 1 1 1 Upc.DWELL 0)).map fun t => (t.run, t.pc)) =
      some (.running, ⟨0, 0, 0, Upc.ROWCHK⟩) ∧
    ((after .dwell { running 1 1 1 Upc.DWELL 0 with mode := .oneshot }).map fun t => (t.run, t.pc)) =
      some (.idle, ⟨0, 0, 0, Upc.ROWCHK⟩) := by decide

/-! ## Register primitives -/

/-- V-RG1, V-RG2, V-RG3. -/
theorem test_init :
    ((after .init fresh).map fun t => (t.run, t.ret, t.dir)) = some (.idle, some (.ok true), 0) ∧
    ((after .init { fresh with env := false }).map fun t => (t.run, t.ret)) = some (.failed, some (.ok false)) ∧
    why .init ready = some .initTwice := by decide
/-- V-RG6, V-RG7, V-RG8. -/
theorem test_setupout :
    ((after (.setupout 0x03C6079C) { ready with dir := 0 }).map fun t => (t.ret, t.dir)) =
      some (some (.mask 0x03C6079C), 0x03C6079C) ∧
    ((after (.setupout 0x03C607FC) { ready with dir := 0 }).map fun t => (t.ret, t.dir)) =
      some (some (.mask 0x03C6079C), 0x03C6079C) ∧
    ((after (.setupout 0xFFFFFFFF) { ready with dir := 0 }).map fun t => (t.ret, t.dir)) =
      some (some (.mask 0x0BC6CF9F), 0x0BC6CF9F) := by decide
/-- V-RG9, V-RG10. -/
theorem test_setupout_zero :
    ((after (.setupout 0) { ready with dir := 0x1C }).map fun t => (t.ret, t.dir)) =
      some (some (.mask 0), 0x1C) ∧
    why (.setupout 0x4) fresh = some .setupInWrongState := by decide
/-- V-RG4, V-RG11, V-RG14. -/
theorem test_setbits :
    ((after (.setbits 0x00020008) { ready with out := 0x00000080 }).map fun t => (t.out, t.hist)) =
      some (0x00020088, [.set 0x00020008]) ∧
    ((after (.setbits 0) { ready with out := 0xFFFFFFFF }).map fun t => (t.out, t.hist)) =
      some (0xFFFFFFFF, [.set 0]) ∧
    why (.setbits 0x4) (running 0 0 0 Upc.ROWCHK 0) = some .portInWrongState := by decide
/-- V-RG5, V-RG15. -/
theorem test_clrbits :
    ((after (.clrbits 0x03C40008) { ready with out := 0x00020088 }).map fun t => (t.out, t.hist)) =
      some (0x00020080, [.clr 0x03C40008]) ∧
    ((after (.clrbits 0xFFFFFFFF) { ready with out := 0xA5A5A5A5 }).map fun t => t.out) =
      some 0x00000000 := by decide

/-- Rules R8, R10, R142 at another width: `~m` has no bit at or above `WORD_W`, and a line above 31 moves. -/
theorem test_other_width :
    wordNot { Config.t2 with wordW := 28 } 0x03C6079C = 0x0C39F863 ∧
    ((after (.clrbits 0x10) { ready with cfg := { Config.t2 with wordW := 64 }, out := 0x10000000010 }).map
      fun t => t.out) = some 0x10000000000 ∧
    trace .colClr { running 0 0 1 Upc.COL_CLR 0x10000000008 with
      cfg := { Config.t2 with wordW := 64, b2Bit := 40, availableMask := 0x1000BC6CF9F } } =
      some (0, some (.clr 0x10001C40008), ⟨0, 0, 1, Upc.STAB_A⟩) := by decide

/-! ## Frame-buffer operations -/

/-- V-FB14, V-FB6: the cells, sub-row and plane bits of the updates. -/
theorem test_setpixel :
    ((after (.setpixel 1 0 ⟨255#8, 0#8, 128#8⟩) fresh).map State.work) =
      some [.update ⟨0, 0, 1⟩ .one ⟨true, false, false⟩, .update ⟨1, 0, 1⟩ .one ⟨true, false, true⟩] ∧
    ((after (.setpixel 0 40 ⟨255#8, 255#8, 255#8⟩) { fresh with cfg := Config.ex64 }).map fun t =>
      t.work.head?) = some (some (.update ⟨0, 7, 127⟩ .two ⟨true, true, true⟩)) := by decide
/-- V-FB5, V-FB16. -/
theorem test_setpixel_outside :
    after (.setpixel (-1) 0 ⟨9#8, 9#8, 9#8⟩) { fresh with cfg := Config.ex64 } =
      some { fresh with cfg := Config.ex64 } ∧
    ((after (.setpixel 64 0 ⟨9#8, 9#8, 9#8⟩) { fresh with cfg := Config.ex64 }).map State.work) = some [] ∧
    ((after (.setpixel 0 64 ⟨9#8, 9#8, 9#8⟩) { fresh with cfg := Config.ex64 }).map State.work) = some [] ∧
    why (.setpixel 0 0 ⟨9#8, 9#8, 9#8⟩) { fresh with run := .failed } = some .failed := by
  exact ⟨rfl, by decide⟩
/-- V-FB4, plane 2 (the `G2` bit of V-FB3 survives); V-FB13, plane 0, with green and blue exchanged. -/
theorem test_cell_update :
    mergePixel Config.ex64 .one (planeBits Config.ex64 ⟨0x5A#8, 0xFF#8, 0x80#8⟩ 2) 0x01000000 =
      0x01060000 ∧
    mergePixel Config.t2 .one (planeBits { Config.ex64 with P := 3, channelMap := .greenBlueSwapped }
      ⟨0xA0#8, 0x60#8, 0x1F#8⟩ 0) 0 = 0x00420000 := by decide
/-- R167: in `T2` eight cells are issued, and a clear writes 0. -/
theorem test_clearbuf :
    ((after .clearbuf ready).map State.work) = some [.clear ⟨0, 0, 0⟩ [⟨0, 0, 1⟩, ⟨0, 1, 0⟩, ⟨0, 1, 1⟩,
      ⟨1, 0, 0⟩, ⟨1, 0, 1⟩, ⟨1, 1, 0⟩, ⟨1, 1, 1⟩]] ∧
    workStep { ready with work := [.clear ⟨1, 0, 1⟩ []] } = .next { ready with
      fb := [(⟨0, 0, 1⟩, 0x00020000), (⟨0, 1, 0⟩, 0x01800000), (⟨1, 1, 0⟩, 0x01000000)]
      hist := [.fbWrite ⟨1, 0, 1⟩ 0] } := by
  exact ⟨by decide, rfl⟩

/-! ## Timing -/

/-- V-TM1, V-TM3. -/
theorem test_dwell_table :
    dwellTable Config.t2 = [0, 1000, 3000, 7000, 15000, 31000, 63000] ∧
    [0, 1, 2].map (planeSlot { Config.ex64 with P := 3 }) = [4, 5, 6] := by decide
/-- V-TM6, V-TM7. -/
theorem test_delay :
    ((after (.delay 28001) { fresh with cfg := { Config.t2 with sleepOvershootNs := 70 } }).map State.hist) =
      some [.delay 28001 (.sleep 27931)] ∧
    ((after (.delay 28000) fresh).map State.hist) = some [.delay 28000 (.spin (Config.spinIters 28000))] ∧
    ((after (.delay 0) fresh).map State.hist) = some [.delay 0 (.spin 0)] := by
  exact ⟨rfl, rfl, rfl⟩

/-- V-RG2, and V-CT12 where the configuration follows the table of R240. -/
theorem test_delay_after_failed_init :
    why (.delay 5) { fresh with run := .failed } = some .failed ∧
    ((after (.delay 0) { fresh with run := .failed, cfg := { Config.t2 with delayWhenFailed := true } }).map
      State.hist) = some [.delay 0 (.spin 0)] := by
  exact ⟨rfl, rfl⟩

/-! ## Control -/

/-- V-CT1, V-CT2. -/
theorem test_start :
    ((after (.start 9) { ready with stopReq := true }).map fun t => (t.run, t.mode, t.pc, t.stopReq, t.prioDenied)) =
      some (.running, .cont, ⟨0, 0, 0, Upc.ROWCHK⟩, false, false) ∧
    ((after (.start 9) { ready with env := false }).map fun t => (t.run, t.prioDenied)) =
      some (.running, true) := by decide
/-- V-CT3, V-CT4. -/
theorem test_start_refused :
    why (.start 9) { ready with dir := 0x03C6071C } = some .linesNotConfigured ∧
    why (.start 9) (running 0 0 0 Upc.ROWCHK 0) = some .startInWrongState := by decide
/-- R245, V-CT3. -/
theorem test_refreshPass :
    ((after .refreshPass { ready with stopReq := true }).map fun t => (t.run, t.mode, t.pc, t.stopReq)) =
      some (.running, .oneshot, ⟨0, 0, 0, Upc.ROWCHK⟩, true) ∧
    why .refreshPass { ready with dir := 0x03C6071C } = some .linesNotConfigured := by decide
/-- V-CT6, V-CT9, V-CT5. -/
theorem test_requests :
    ((after .stop ready).map State.stopReq) = some true ∧ ((after .pause ready).map State.pauseReq) = some true ∧
    ((after .resume { running 1 0 0 Upc.ROWCHK 0 with paused := true, pauseReq := true }).map fun t =>
      (t.pauseReq, t.paused)) = some (false, true) ∧
    why .stop fresh = some .stopInWrongState ∧ why .pause fresh = some .pauseInWrongState ∧
    why .resume fresh = some .resumeInWrongState := by decide

/-! ## The step -/

/-- A word that is placed runs as the first operation after reset. -/
theorem test_first_step :
    (∃ t, step (State.reset.withFetchWord 8 0x07) = .next t ∧ t.pc = ⟨0, 0, 0, Upc.ROW_SET⟩) ∧
    ∃ t, step (State.reset.withFetchWord 8 0x1B) = .next t ∧ t.hist = [.delay 0 (.spin 0)] :=
  ⟨⟨_, step_withFetchWord_uop (i := .blank) (by decide) (by decide) rfl, rfl⟩,
    ⟨_, step_withFetchWord_cmd (i := .delay 0) (by decide) (by decide) rfl, rfl⟩⟩

/-! ## Witnesses: for each statement with hypotheses, something that meets them -/

/-- The invariant, as a check. -/
def invCheck (s : State) : Bool :=
  s.cfg.wf && s.fb.wf &&
    s.fb.all (fun e => e.1.inRange s.cfg && decide (e.2 &&& colorMask s.cfg = e.2)) &&
    wordFits s.cfg.wordW s.out && wordFits s.cfg.wordW s.cell &&
    decide (s.pc.row < s.cfg.R ∧ s.pc.plane < s.cfg.P ∧ s.pc.col < s.cfg.C ∧ s.pc.upc.toNat < 14) &&
    decide (s.pc.upc = Upc.ROWCHK → s.pc.plane = 0 ∧ s.pc.col = 0) &&
    decide (7 ≤ s.pc.upc.toNat → s.pc.col + 1 = s.cfg.C) &&
    decide (s.run ≠ .running → s.pc = Pos.origin) &&
    decide (s.dir &&& s.cfg.availableMask = s.dir) &&
    decide (s.run = .running → s.linesConfigured = true) &&
    decide (s.paused = true → s.run = .running ∧ s.mode = .cont ∧ s.pc.upc = Upc.ROWCHK) &&
    decide (s.work = [])

theorem inv_of_check {s : State} (h : invCheck s = true) : s.Inv := by
  simp only [invCheck, Bool.and_eq_true, decide_eq_true_eq, List.all_eq_true] at h
  obtain ⟨⟨⟨⟨⟨⟨⟨⟨⟨⟨⟨⟨hcfg, hmem⟩, hcells⟩, ho⟩, hc⟩, hrow, hplane, hcol, hupc⟩, hb⟩, ht⟩, hrest⟩, hdir⟩, hl⟩,
    hp⟩, hw⟩ := h
  exact ⟨hcfg, hmem, fun e he => hcells e he, ho, hc, hrow, hplane, hcol, hupc, hb, ht, hrest, hdir, hl, hp,
    fun w hm => by rw [hw] at hm; cases hm⟩

/-- The invariant of the lines, as a check. -/
def lineCheck (s : State) : Bool :=
  decide (s.run = .running → 8 ≤ s.pc.upc.toNat → s.pc.upc.toNat ≤ 12 → s.level s.cfg.oeBit = true) &&
    decide (s.run = .running → s.pc.upc = Upc.DWELL → s.level s.cfg.oeBit = false) &&
    decide (s.run = .running → 2 ≤ s.pc.upc.toNat → s.pc.upc.toNat ≤ 5 → s.level s.cfg.clkBit = false) &&
    decide (s.run = .running → 6 ≤ s.pc.upc.toNat → s.pc.upc.toNat ≤ 13 → s.level s.cfg.clkBit = true) &&
    decide (s.run = .running → s.pc.upc = Upc.LAT_CLR → s.level s.cfg.latBit = true) &&
    decide (s.run = .running → 12 ≤ s.pc.upc.toNat → s.pc.upc.toNat ≤ 13 → s.level s.cfg.latBit = false) &&
    decide (s.run = .running → 10 ≤ s.pc.upc.toNat → s.pc.upc.toNat ≤ 13 → rowField s.cfg s.out = s.pc.row)

theorem lineInv_of_check {s : State} (h : lineCheck s = true) : s.LineInv := by
  simp only [lineCheck, Bool.and_eq_true, decide_eq_true_eq] at h
  obtain ⟨⟨⟨⟨⟨⟨h1, h2⟩, h3⟩, h4⟩, h5⟩, h6⟩, h7⟩ := h
  exact ⟨h1, h2, h3, h4, h5, h6, h7⟩

/-- It is the turn of an agent. -/
def turn (a : Agent) (s : State) : State := { s with turns := [a] }

/-- The host's next command. -/
def issue (code : BitVec 4) (ops : List Operand) (s : State) : State :=
  turn .host { s with inbox := [⟨code, ops, true⟩] }

/-- Nothing running, in each run state. -/
def resting (r : RunState) : State := { fresh with run := r }

theorem witness_DecodeUndoesEncode :
    (Instr.setbits 0xFFFFFFFF).fits 32 = true ∧ (Instr.setbits 0x10000000000).fits 41 = true ∧
    Instr.dwell.fits 0 = true := by decide

/-- One presentation on each side, and one that decodes. -/
theorem witness_DecoderAcceptsExactlyTheWellFormed :
    (Encoded.cmd 0b0011#4 [.hw 0xFFFFFFFF]).wf 32 = true ∧
    decode 32 (.cmd 0b0011#4 [.hw 0xFFFFFFFF]) = .ok (.clrbits 0xFFFFFFFF) ∧
    (Encoded.cmd 0b0101#4 [.nat 0]).wf 32 = false := by decide

theorem witness_ReservedCodesAreRefused :
    14 ≤ (0b1110#4).toNat ∧ 12 ≤ (0b1100#4).toNat ∧
    (let s := issue 0b1100#4 [.nat 0] (running 0 0 0 Upc.ROWCHK 0)
     s.cfg.wf = true ∧ s.mover = .host ∧ s.work = [] ∧ s.inbox = ⟨0b1100#4, [.nat 0], true⟩ :: [] ∧
     12 ≤ (⟨0b1100#4, [.nat 0], true⟩ : Packet).code.toNat) ∧
    (let s := turn .engine (running 0 0 0 0b1110#4 0)
     s.cfg.wf = true ∧ s.mover = .engine ∧ s.run = .running ∧ 14 ≤ s.pc.upc.toNat) := by decide

theorem witness_StepRunsTheDecodedOperation :
    (let s := turn .engine (running 1 1 1 Upc.DWELL 0)
     s.cfg.wf = true ∧ s.mover = .engine ∧ s.run = .running ∧ decode s.cfg.wordW (.uop s.pc.upc) = .ok .dwell) ∧
    (let s := issue 0b1011#4 [.nat 31000] ready
     s.cfg.wf = true ∧ s.mover = .host ∧ s.work = [] ∧ s.inbox = [⟨0b1011#4, [.nat 31000], true⟩] ∧
     decode s.cfg.wordW (.cmd 0b1011#4 [.nat 31000]) = .ok (.delay 31000)) := by decide

theorem witness_StepWithNoOperationToRun :
    (turn .host ready).turns = [.host] ∧ { fresh with cfg := { Config.t2 with P := 8 } }.cfg.wf = false ∧
    (turn .engine ready).cfg.wf = true ∧ (turn .engine ready).mover = .engine ∧
    (turn .engine ready).run ≠ .running ∧ (turn .host ready).mover = .host ∧ (turn .host ready).work = [] ∧
    (turn .host ready).inbox = [] ∧ { turn .host ready with work := [.store ⟨0, 0, 0⟩ 0] }.mover = .host ∧
    { turn .host ready with work := [.store ⟨0, 0, 0⟩ 0] }.work ≠ [] := by decide

theorem witness_InitTakesTheEnvironmentsAnswer :
    (resting .uninit).run = .uninit ∧ (resting .idle).run ≠ .uninit ∧ (resting .failed).run ≠ .uninit := by
  decide

/-- For `SETUPOUT`, `SETBITS` and `CLRBITS` (`SetupoutConfiguresAvailableLines`, `SetbitsRaisesItsLines`,
`ClrbitsLowersItsLines`). -/
theorem witness_port_commands :
    (resting .idle).run = .idle ∧ (resting .uninit).run ≠ .idle ∧ (resting .running).run ≠ .idle ∧
    (resting .failed).run ≠ .idle := by decide

theorem witness_PairsOfPortWrites :
    (∃ t u, exec (.setbits 0x10) ready = .next t ∧ exec (.clrbits 0x10) t = .next u) ∧
    (∃ t u, exec (.clrbits 0x10) ready = .next t ∧ exec (.setbits 0x10) t = .next u) ∧
    (∃ t u, exec (.setbits 0) ready = .next t ∧ exec (.setbits 0) t = .next u) ∧
    (∃ t u, exec (.clrbits 0) ready = .next t ∧ exec (.clrbits 0) t = .next u) ∧
    4 < ready.cfg.wordW ∧ 31 < ready.cfg.wordW :=
  ⟨⟨_, _, rfl, rfl⟩, ⟨_, _, rfl, rfl⟩, ⟨_, _, rfl, rfl⟩, ⟨_, _, rfl, rfl⟩, by decide, by decide⟩

theorem witness_ErrorKindsAreReportedByValue :
    (∃ t, exec .init { fresh with env := false } = .next t ∧ reportedError .init t = some .setupFailure) ∧
    (∃ t, exec .init fresh = .next t ∧ reportedError .init t = none) ∧
    (∃ t, exec (.setupout 0x20) ready = .next t ∧
      reportedError (.setupout 0x20) t = some .configMismatch) ∧
    (∃ t, exec (.setupout 0x4) ready = .next t ∧ reportedError (.setupout 0x4) t = none) ∧
    (∃ t, exec (.start 0) { ready with env := false } = .next t ∧
      reportedError (.start 0) t = some .priorityDenied) ∧
    ∃ t, exec (.start 0) ready = .next t ∧ reportedError (.start 0) t = none :=
  ⟨⟨_, rfl, rfl⟩, ⟨_, rfl, rfl⟩, ⟨_, rfl, rfl⟩, ⟨_, rfl, rfl⟩, ⟨_, rfl, rfl⟩, ⟨_, rfl, rfl⟩⟩

theorem witness_SetupBringsTheEngineUp :
    fresh.cfg.wf = true ∧ fresh.run = .uninit ∧ fresh.env = true ∧
    ∃ a b, exec .init fresh = .next a ∧ exec (.setupout (engineMask fresh.cfg)) a = .next b :=
  ⟨by decide, rfl, rfl, _, _, rfl, rfl⟩

theorem witness_SetpixelOutsideTheAreaIsSilent :
    fresh.run ≠ .failed ∧ ((-1 : Int) < 0) ∧ ((fresh.cfg.W : Int) ≤ 2) ∧ ((fresh.cfg.H : Int) ≤ 4) := by decide

/-- An unfolded and a folded pixel at the corners of the area. -/
theorem witness_SetpixelIssuesAnUpdatePerPlane :
    fresh.run ≠ .failed ∧ 1 < fresh.cfg.W ∧ 3 < fresh.cfg.H ∧ ¬ 2 * fresh.cfg.R ≤ 3 ∧
    63 < Config.ex64.W ∧ 63 < Config.ex64.H ∧ 2 * Config.ex64.R ≤ 32 ∧ 2 * Config.ex64.R ≤ 63 ∧
    (resting .failed).run = .failed := by decide

theorem witness_FoldStaysInTheAddressableRange :
    Config.ex64.wf = true ∧ 63 < Config.ex64.W ∧ 63 < Config.ex64.H ∧ 31 < 2 * Config.ex64.R ∧
    2 * Config.ex64.R ≤ 32 ∧ 127 ≤ 127 := by decide

/-- For `ReducedChannelKeepsTheTopBits` and `PlanesReadBackTheReducedChannel`: both ends of `P`, and the
identity map. -/
theorem witness_reduced_channel :
    { Config.t2 with P := 1 }.wf = true ∧ { Config.t2 with P := 7 }.wf = true ∧ 6 < 7 ∧
    Config.t2.channelMap = .identity := by decide

theorem witness_CellUpdateOverwritesThreeFields :
    (let s := { ready with work := [.update ⟨1, 1, 1⟩ .two ⟨true, false, true⟩] }
     s.work = .update ⟨1, 1, 1⟩ .two ⟨true, false, true⟩ :: [] ∧ 1 < s.cfg.P ∧ 1 < s.cfg.R ∧ 1 < s.cfg.C) ∧
    (let s := { ready with work := [.store ⟨0, 0, 0⟩ 0] }
     s.work = .store ⟨0, 0, 0⟩ 0 :: [] ∧ 0 < s.cfg.P ∧ 0 < s.cfg.R ∧ 0 < s.cfg.C) ∧
    Config.t2.wf = true ∧ 0 ≠ Config.t2.r1Bit ∧ 0 ≠ Config.t2.g1Bit ∧ 0 ≠ Config.t2.b1Bit ∧
    17 ≠ Config.t2.r2Bit ∧ 17 ≠ Config.t2.g2Bit ∧ 17 ≠ Config.t2.b2Bit := by decide

theorem witness_SetpixelRunsToItsCells :
    ∃ t, ({ ready with turns := List.replicate 4 .host } : State).Inv ∧ ready.work = [] ∧
      1 < ready.cfg.W ∧ 3 < ready.cfg.H ∧
      exec (.setpixel 1 3 ⟨255#8, 0#8, 128#8⟩) { ready with turns := List.replicate 4 .host } = .next t ∧
      t.turns = List.replicate (2 * ready.cfg.P) .host ++ [] :=
  ⟨_, inv_of_check (by decide), rfl, by decide, by decide, rfl, rfl⟩

theorem witness_ClearbufIssuesEveryCellOnce :
    ready.run ≠ .failed ∧ ready.cfg.wf = true ∧ (resting .failed).run = .failed ∧
    { ready with work := [.clear ⟨0, 0, 0⟩ [⟨1, 1, 1⟩]] }.work = .clear ⟨0, 0, 0⟩ [⟨1, 1, 1⟩] :: [] ∧
    ∀ a ∈ [(⟨0, 0, 0⟩ : FbAddr), ⟨1, 1, 1⟩],
      a.plane < ready.cfg.P ∧ a.row < ready.cfg.R ∧ a.col < ready.cfg.C := by decide

theorem witness_ClearbufRunsToAnEmptyBuffer :
    ∃ t, ({ ready with turns := List.replicate 8 .host } : State).Inv ∧ ready.work = [] ∧
      exec .clearbuf { ready with turns := List.replicate 8 .host } = .next t ∧
      t.turns = List.replicate (ready.cfg.P * ready.cfg.R * ready.cfg.C) .host ++ [] :=
  ⟨_, inv_of_check (by decide), rfl, rfl, rfl⟩

theorem witness_CellsReadBackWhatWasWritten :
    cells.wf = true ∧ Memory.wf [] = true ∧ (∀ a, Memory.read [] a = Memory.read [] a) :=
  ⟨by decide, rfl, fun _ => rfl⟩

theorem witness_RowchkSamplesTheRequests :
    (let s := { running 1 0 0 Upc.ROWCHK 0 with stopReq := true }
     s.mode = .cont ∧ s.stopReq = true) ∧
    (let s := { running 1 0 0 Upc.ROWCHK 0 with pauseReq := true }
     s.mode = .cont ∧ s.stopReq = false ∧ s.pauseReq = true ∧ s.paused = false) ∧
    (let s := { running 1 0 0 Upc.ROWCHK 0 with pauseReq := true, paused := true }
     s.mode = .cont ∧ s.stopReq = false ∧ s.pauseReq = true ∧ s.paused = true) ∧
    { running 1 0 0 Upc.ROWCHK 0 with mode := .oneshot, stopReq := true }.mode = .oneshot ∧
    (running 1 0 0 Upc.ROWCHK 0).stopReq = false ∧ (running 1 0 0 Upc.ROWCHK 0).pauseReq = false := by
  decide

theorem witness_ColumnWritesFollowTheCell :
    (let s := running 1 1 1 Upc.COL_CLR 0
     s.pc.plane < s.cfg.P ∧ s.pc.row < s.cfg.R ∧ s.pc.col < s.cfg.C ∧
     0 = s.fb.read ⟨s.pc.plane, s.pc.row, s.pc.col⟩ ∧ 0x03C60008 = wordNot s.cfg 0 &&& serialMask s.cfg ∧
     0 = 0 &&& serialMask s.cfg) := by decide

theorem witness_AccessesOutsideTheSpacesStop :
    (let s := running 0 2 0 Upc.COL_CLR 0
     ¬ (s.pc.plane < s.cfg.P ∧ s.pc.row < s.cfg.R ∧ s.pc.col < s.cfg.C) ∧ s.cfg.P ≤ s.pc.plane) ∧
    (let s := { ready with work := [.update ⟨0, 2, 0⟩ .one ⟨false, false, false⟩] }
     ¬ (0 < s.cfg.P ∧ 2 < s.cfg.R ∧ 0 < s.cfg.C) ∧
     s.work = .update ⟨0, 2, 0⟩ .one ⟨false, false, false⟩ :: []) ∧
    { ready with work := [.store ⟨0, 0, 2⟩ 0] }.work = .store ⟨0, 0, 2⟩ 0 :: [] ∧
    ¬ (0 < ready.cfg.P ∧ 0 < ready.cfg.R ∧ 2 < ready.cfg.C) ∧
    { ready with work := [.clear ⟨2, 0, 0⟩ []] }.work = .clear ⟨2, 0, 0⟩ [] :: [] ∧
    ∀ a ∈ [(⟨2, 0, 0⟩ : FbAddr)],
      ¬ (a.plane < ready.cfg.P ∧ a.row < ready.cfg.R ∧ a.col < ready.cfg.C) := by decide

/-- One member of each list; the others differ in the name alone. -/
theorem witness_ConstantPortWritesOfTheEngine :
    (Instr.blank, oeMask Config.t2, Upc.ROW_SET) ∈ [(Instr.colClk, clkMask Config.t2, Upc.STAB_C),
      (.blank, oeMask Config.t2, Upc.ROW_SET),
      (.rowSet, rowbits Config.t2 1 &&& rowMask Config.t2, Upc.ROW_CLR),
      (.latSet, latMask Config.t2, Upc.LAT_CLR)] ∧
    (Instr.unblank, oeMask Config.t2, Upc.DWELL) ∈
      [(Instr.rowClr, wordNot Config.t2 (rowbits Config.t2 1) &&& rowMask Config.t2, Upc.LAT_SET),
      (.latClr, latMask Config.t2, Upc.UNBLANK), (.unblank, oeMask Config.t2, Upc.DWELL)] := by decide

theorem witness_DwellWaitsThenAdvances :
    (let s := running 1 1 1 Upc.DWELL 0
     s.cfg.wf = true ∧ s.pc.plane < s.cfg.P ∧
     63000 = 2 ^ (s.pc.plane + 7 - s.cfg.P) * s.cfg.rowClockTime - s.cfg.rowClockTime) := by decide

/-- V-SC11, a torn column. -/
theorem witness_ColumnStepLeavesTheLines :
    ∃ t v, Config.t2.wf = true ∧ exec .colClr (running 0 0 1 Upc.COL_CLR 0x00020008) = .next t ∧
      exec .colSet { t with fb := [(⟨0, 0, 1⟩, 0x00040000)] } = .next v ∧ v.cell ≠ t.cell ∧
      17 ∈ Config.t2.colorLines ∧ 25 ∈ Config.t2.colorLines ∧
      ∃ w, exec .colSet t = .next w ∧ w.cell = t.cell :=
  ⟨_, _, by decide, rfl, rfl, by decide, by decide, by decide, _, rfl, rfl⟩

theorem witness_RowWritesSetTheRowField :
    (∃ t u, Config.t2.wf = true ∧ 1 < Config.t2.R ∧
      exec .rowSet (running 1 0 1 Upc.ROW_SET 0x780) = .next t ∧ exec .rowClr t = .next u) ∧
    31 < Config.t2.wordW ∧ 31 ∉ Config.t2.rowLines ∧ 15 < 16 :=
  ⟨⟨_, _, by decide, by decide, rfl, rfl⟩, by decide, by decide, by decide⟩

/-- One micro-operation of each shape. -/
theorem witness_EngineFrame :
    (∃ t, exec .rowchk (running 1 0 0 Upc.ROWCHK 0) = .next t) ∧
    (∃ t, exec .colClr (running 1 1 1 Upc.COL_CLR 0) = .next t) ∧
    (∃ t, exec .latSet (running 1 1 1 Upc.LAT_SET 0) = .next t) ∧
    (∃ t, exec .dwell (running 1 1 1 Upc.DWELL 0) = .next t) ∧
    Instr.rowchk.isUop = true ∧ Instr.colClr.isUop = true ∧ Instr.latSet.isUop = true ∧
    Instr.dwell.isUop = true :=
  ⟨⟨_, rfl⟩, ⟨_, rfl⟩, ⟨_, rfl⟩, ⟨_, rfl⟩, rfl, rfl, rfl, rfl⟩

/-- One command of each shape. -/
theorem witness_CommandFrame :
    (∃ t, exec .init fresh = .next t) ∧ (∃ t, exec (.setbits 4) ready = .next t) ∧
    (∃ t, exec (.setpixel 1 1 ⟨9#8, 9#8, 9#8⟩) ready = .next t) ∧ (∃ t, exec (.start 0) ready = .next t) ∧
    (∃ t, exec .stop ready = .next t) ∧ Instr.init.isUop = false ∧ (Instr.setbits 4).isUop = false ∧
    (Instr.setpixel 1 1 ⟨9#8, 9#8, 9#8⟩).isUop = false ∧ (Instr.start 0).isUop = false ∧
    Instr.stop.isUop = false :=
  ⟨⟨_, rfl⟩, ⟨_, rfl⟩, ⟨_, rfl⟩, ⟨_, rfl⟩, ⟨_, rfl⟩, rfl, rfl, rfl, rfl, rfl⟩

/-- A state in the invariant with an access in progress, which stores to one cell. -/
theorem witness_AccessFrame :
    (let s := { ready with work := [.store ⟨1, 1, 1⟩ 0] }
     s.Inv ∧ (∃ t, workStep s = .next t) ∧ s.nextStore ≠ some ⟨0, 0, 1⟩) := by
  have h : ready.Inv := inv_of_check (by decide)
  refine ⟨⟨h.cfg, h.mem, h.cells, h.outWord, h.cellWord, h.row, h.plane, h.col, h.upc, h.boundary, h.tail,
    h.rest, h.dir, h.lines, h.paused, fun w hw => ?_⟩, ⟨_, rfl⟩, by decide⟩
  rw [List.mem_singleton.1 hw]
  exact ⟨by decide, by decide⟩

/-- An engine in the plane tail, for the invariants and for `RowAndLatchChangeOnlyWhileBlanked`. -/
def tail : State := turn .engine (running 1 0 1 Upc.LAT_SET 0x0000008C)

/-- For `StepKeepsTheLineInvariant`, `StepKeepsTheInvariant` and `RowAndLatchChangeOnlyWhileBlanked`. -/
theorem witness_step_in_the_tail :
    tail.Inv ∧ tail.LineInv ∧ tail.run = .running ∧
    ∃ t, step tail = .next t ∧ 4 ∈ tail.cfg.latBit :: tail.cfg.rowLines ∧ t.level 4 ≠ tail.level 4 :=
  ⟨inv_of_check (by decide), lineInv_of_check (by decide), rfl, _,
    step_engine (i := .latSet) (by decide) rfl rfl rfl, by decide, by decide⟩

theorem witness_ClockShiftsAndLatchCopies :
    (let s := turn .engine (running 0 0 1 Upc.COL_CLK 0x00020000)
     s.Inv ∧ s.LineInv ∧ s.run = .running ∧ s.mover = .engine ∧ s.pc.upc = Upc.COL_CLK ∧
     ∃ t, step s = .next t) ∧
    ∃ t u, Config.t2.wf = true ∧ exec .latSet (running 1 0 1 Upc.LAT_SET 0x8C) = .next t ∧
      exec .latClr t = .next u :=
  ⟨⟨inv_of_check (by decide), lineInv_of_check (by decide), rfl, rfl, rfl, _,
    step_engine (i := .colClk) (by decide) rfl rfl rfl⟩, _, _, by decide, rfl, rfl⟩

theorem witness_PanelShowsTheAddressedRow :
    (running 0 0 1 Upc.ROW_SET 0x0C).level (running 0 0 1 Upc.ROW_SET 0x0C).cfg.oeBit = true ∧
    (let s := { running 0 0 1 Upc.DWELL 0x08 with panel := ⟨[], [⟨true, false, false, false, false, false⟩]⟩ }
     s.level s.cfg.oeBit = false ∧ s.panel.latched[0]? = some ⟨true, false, false, false, false, false⟩) := by
  decide

/-- Of the 38 micro-operations of a row after its `ROWCHK`, all are left at its first, 8 in the middle of the last
column of plane 1, and 1 at its last. -/
theorem witness_RowInFlightFinishes :
    (let s := { running 1 0 0 Upc.COL_CLR 0 with turns := List.replicate 38 Agent.engine ++ [Agent.host] }
     s.Inv ∧ s.run = .running ∧ s.pc.upc ≠ Upc.ROWCHK ∧
     s.turns = List.replicate (rowRestLength s.cfg s.pc) .engine ++ [.host]) ∧
    (let s := { running 0 1 1 Upc.STAB_C 0x8 with stopReq := true, turns := List.replicate 8 Agent.engine }
     s.Inv ∧ s.run = .running ∧ s.pc.upc ≠ Upc.ROWCHK ∧
     s.turns = List.replicate (rowRestLength s.cfg s.pc) .engine ++ []) ∧
    (let s := { running 1 1 1 Upc.DWELL 0x88 with mode := .oneshot, turns := [Agent.engine] }
     s.Inv ∧ s.run = .running ∧ s.pc.upc ≠ Upc.ROWCHK ∧
     s.turns = List.replicate (rowRestLength s.cfg s.pc) .engine ++ []) :=
  ⟨⟨inv_of_check (by decide), rfl, by decide, rfl⟩, ⟨inv_of_check (by decide), rfl, by decide, rfl⟩,
    inv_of_check (by decide), rfl, by decide, rfl⟩

/-- The events left at the second stabilize of the last column of a row (rules R187 to R197). -/
theorem test_rowRest :
    rowRest Config.t2 cells ⟨1, 1, 1, Upc.STAB_B⟩ = [stabEvent Config.t2, .set 0x8, stabEvent Config.t2,
      .set 0x4, .set 0x80, .clr 0x700, .set 0x10, .clr 0x10, .clr 0x4, dwellEvent Config.t2 1] := rfl

/-- The 78 steps of V-SC9, for `OnePassIsTheRepaintCycle` and `PassForgetsTheLinesItStartedFrom`. -/
theorem witness_OnePassIsTheRepaintCycle :
    (let s := { running 0 0 0 Upc.ROWCHK 0 with mode := .oneshot, turns := List.replicate 78 .engine }
     s.Inv ∧ s.run = .running ∧ s.mode = .oneshot ∧ s.pc = ⟨0, 0, 0, Upc.ROWCHK⟩ ∧
     s.turns = List.replicate (passLength s.cfg) .engine ++ []) :=
  ⟨inv_of_check (by decide), rfl, rfl, rfl, rfl⟩

theorem witness_EmptyPassLeavesThePanelDark :
    (let s := { running 0 0 0 Upc.ROWCHK 0xFFFFFFFF with
      mode := .oneshot, fb := [], turns := List.replicate 78 .engine }
     s.Inv ∧ s.run = .running ∧ s.mode = .oneshot ∧ s.pc = ⟨0, 0, 0, Upc.ROWCHK⟩ ∧
     (∀ a, s.fb.read a = 0) ∧ s.turns = List.replicate (passLength s.cfg) .engine ++ []) :=
  ⟨inv_of_check (by decide), rfl, rfl, rfl, fun _ => rfl, rfl⟩

/-- At the first micro-operation of a row and at its last. -/
theorem witness_StopTakesEffectWithinARow :
    (let s := { running 1 0 0 Upc.COL_CLR 0 with stopReq := true, turns := List.replicate 39 .engine }
     s.Inv ∧ s.run = .running ∧ s.mode = .cont ∧ s.stopReq = true ∧
     s.turns = List.replicate (s.cfg.P * (6 * s.cfg.C + 7) + 1) .engine ++ []) ∧
    ({ running 1 1 1 Upc.DWELL 0 with stopReq := true, turns := List.replicate 39 .engine } : State).Inv :=
  ⟨⟨inv_of_check (by decide), rfl, rfl, rfl, rfl⟩, inv_of_check (by decide)⟩

/-- The engine of V-CT9. -/
theorem witness_PausedEngineHoldsUntilResumed :
    (let s := { running 1 0 0 Upc.ROWCHK 0 with
      paused := true, pauseReq := true, turns := List.replicate 3 .engine }
     s.Inv ∧ s.paused = true ∧ s.pauseReq = true ∧ s.stopReq = false ∧ s.turns = List.replicate 3 .engine ∧
     ∃ t u, exec .resume s = .next t ∧ exec .rowchk t = .next u) :=
  ⟨inv_of_check (by decide), rfl, rfl, rfl, rfl, _, _, rfl, rfl⟩

theorem witness_PlaneTailLatchesThePlane :
    (let s := { running 1 1 0 Upc.COL_CLR 0 with turns := List.replicate 18 .engine }
     s.Inv ∧ s.LineInv ∧ s.run = .running ∧ s.pc.upc = Upc.COL_CLR ∧ s.pc.col = 0 ∧
     s.turns = List.replicate (6 * s.cfg.C + 6) .engine ++ []) :=
  ⟨inv_of_check (by decide), lineInv_of_check (by decide), rfl, rfl, rfl, rfl⟩

theorem witness_DelayRecordsTheRequest :
    (resting .running).run ≠ .failed ∧ (resting .failed).run = .failed ∧
    (resting .failed).cfg.delayWhenFailed = false ∧ { Config.t2 with delayWhenFailed := true }.wf = true ∧
    Config.t2.delayThresholdNs < 28001 ∧ 28000 ≤ Config.t2.delayThresholdNs ∧ 28000 ≠ 0 := by decide

/-- For `DwellTableDoubles` and `PlanesUseTheHighSlots`: both ends of `P`. -/
theorem witness_dwell_table :
    { Config.t2 with P := 1 }.wf = true ∧ { Config.t2 with P := 7 }.wf = true ∧ 6 < 7 ∧
    5 + 1 < { Config.t2 with P := 7 }.P ∧ 6 < { Config.t2 with P := 7 }.P := by decide

/-- For `StartEntersTheScan` and `RefreshPassEntersOnePass`. -/
theorem witness_entering_the_scan :
    ready.run = .idle ∧ ready.dir &&& engineMask ready.cfg = engineMask ready.cfg ∧
    { ready with dir := 0x03C6071C }.run = .idle ∧
    { ready with dir := 0x03C6071C }.dir &&& engineMask ready.cfg ≠ engineMask ready.cfg ∧
    (running 0 0 0 Upc.ROWCHK 0).run ≠ .idle := by decide

theorem witness_RequestsWriteTheirFlag :
    (resting .idle).run = .idle ∧ (resting .running).run = .running ∧ (resting .uninit).run = .uninit ∧
    (resting .failed).run = .failed := by decide

theorem witness_CommandsFollowTheRunStateTable :
    ready.cfg.wf = true ∧ (Instr.start 0).isUop = false ∧ (Instr.delay 0).isUop = false ∧
    (resting .failed).cfg.wf = true ∧ (resting .failed).run = .failed ∧
    (resting .failed).cfg.delayWhenFailed = false ∧ ∀ n, Instr.clearbuf ≠ .delay n :=
  ⟨by decide, rfl, rfl, by decide, rfl, rfl, fun _ h => by cases h⟩

/-- The host starts the engine from a state in the invariant. -/
theorem witness_RunChangesOnlyAsTheTableSays :
    (issue 0b0110#4 [.prio 0] ready).Inv ∧ ∃ t, step (issue 0b0110#4 [.prio 0] ready) = .next t ∧
      t.run = .running :=
  ⟨inv_of_check (by decide), _,
    step_command (s := issue 0b0110#4 [.prio 0] ready) (i := .start 0) (by decide) rfl rfl rfl rfl, rfl⟩

/-- The host stops a running engine. -/
theorem witness_HostLeavesTheScanAlone :
    (let s := issue 0b0111#4 [] (running 1 1 1 Upc.COL_SET 0)
     s.run = .running ∧ s.mover = .host ∧ ∃ t, step s = .next t) :=
  ⟨rfl, rfl, _, step_command (i := .stop) (by decide) rfl rfl rfl rfl⟩

theorem witness_StepsOnlyAdd :
    ∃ t, step (issue 0b0001#4 [.hw 4] { ready with dir := 8 }) = .next t ∧ t.dir.testBit 3 = true :=
  ⟨_, step_command (i := .setupout 4) (by decide) rfl rfl rfl rfl, by decide⟩

/-- For `ResetMeetsTheInvariants` and `ResetValues`. -/
theorem witness_reset : Config.t2.wf = true ∧ 6 < 7 := by decide

theorem witness_InvariantStatesNeverFault : tail.Inv ∧ tail.mover = .engine :=
  ⟨inv_of_check (by decide), rfl⟩

end Sys2Proof.Tests
end

section
/-! PROOFS. The colour encoding: channel reduction and the plane bits (rules R110, R111). -/

namespace Sys2Proof.Machine

variable {c : Config} (v : BitVec 8)

/-- Channel reduction drops the low `8 - P` bits of the channel (rule R110). -/
theorem reduce_toNat : (reduce c v).toNat = v.toNat / 2 ^ (8 - c.P) := by
  rw [reduce, BitVec.toNat_ushiftRight, Nat.shiftRight_eq_div_pow]

/-- A reduced channel has `P` bits: an 8-bit channel is made of the `8 - P` bits dropped and the `P` kept. -/
theorem reduce_lt (hP : c.P ≤ 8) : (reduce c v).toNat < 2 ^ c.P := by
  have hsplit : 2 ^ 8 = 2 ^ (8 - c.P) * 2 ^ c.P := by rw [← Nat.pow_add, Nat.sub_add_cancel hP]
  rw [reduce_toNat]
  exact Nat.div_lt_of_lt_mul (hsplit ▸ v.isLt)

/-- Bit `b` of a reduced channel is the bit of the channel `8 - P` places higher (rule R111). -/
theorem reduce_getLsbD (hP : c.P ≤ 8) (b : Nat) : (reduce c v).getLsbD b = v.getLsbD (b + 8 - c.P) := by
  have hplace : 8 - c.P + b = b + 8 - c.P := by omega
  rw [reduce, BitVec.getLsbD_ushiftRight, hplace]

end Sys2Proof.Machine

namespace Sys2Proof

open Machine

/-- Settles O17: an admitted `P` is at most 7, so `8 - P` is a true difference and the three laws apply. -/
theorem reducedChannelKeepsTheTopBits : Obligations.ReducedChannelKeepsTheTopBits := by
  intro c v hwf
  have hP : c.P ≤ 8 := (Config.wf_planes hwf).2.trans (by decide)
  exact ⟨reduce_toNat v, reduce_lt v hP, fun b _ => reduce_getLsbD v hP b⟩

end Sys2Proof
end

section
/-! PROOFS. The host's port writes: which fields `SETBITS` and `CLRBITS` write, and where they are refused
(rules R141, R142). -/

namespace Sys2Proof.Machine

variable (m : Word) {s : State}

/-- The three fields a store to the set port writes: the observer sees `OUT` change, then the event is recorded. -/
theorem State.portSet_eq (s : State) : s.portSet m = { s with
    out := s.out ||| m
    panel := s.panel.observe s.cfg s.out (s.out ||| m)
    hist := s.hist ++ [.set m] } := rfl

/-- The three fields a store to the clear port writes, in the same order. -/
theorem State.portClr_eq (s : State) : s.portClr m = { s with
    out := s.out &&& wordNot s.cfg m
    panel := s.panel.observe s.cfg s.out (s.out &&& wordNot s.cfg m)
    hist := s.hist ++ [.clr m] } := rfl

theorem exec_setbits_of_idle (h : s.run = .idle) : exec (.setbits m) s = .next (s.portSet m) := if_pos h

theorem exec_setbits_of_not_idle (h : s.run ≠ .idle) : exec (.setbits m) s = .refused .portInWrongState := if_neg h

theorem exec_clrbits_of_idle (h : s.run = .idle) : exec (.clrbits m) s = .next (s.portClr m) := if_pos h

theorem exec_clrbits_of_not_idle (h : s.run ≠ .idle) : exec (.clrbits m) s = .refused .portInWrongState := if_neg h

end Sys2Proof.Machine

namespace Sys2Proof

open Machine

/-- Settles O9: in `IDLE` the command is one store to the set port, and the panel is the observer's next state. -/
theorem setbitsRaisesItsLines : Obligations.SetbitsRaisesItsLines := by
  intro m s
  refine ⟨fun hidle => ⟨s.panel.observe s.cfg s.out (s.out ||| m), ?_⟩, exec_setbits_of_not_idle m⟩
  rw [exec_setbits_of_idle m hidle, State.portSet_eq]

/-- Settles O10: in `IDLE` the command is one store to the clear port, and the panel is the observer's next state. -/
theorem clrbitsLowersItsLines : Obligations.ClrbitsLowersItsLines := by
  intro m s
  refine ⟨fun hidle => ⟨s.panel.observe s.cfg s.out (s.out &&& wordNot s.cfg m), ?_⟩, exec_clrbits_of_not_idle m⟩
  rw [exec_clrbits_of_idle m hidle, State.portClr_eq]

end Sys2Proof
end

section
/-! PROOFS. The frame-buffer operations: a cell update in its two halves, the fields it overwrites, and
`SETPIXEL` outside the logical area (rules R161, R165). -/

namespace Sys2Proof.Machine

variable {c : Config} {s : State} {x y : Int}

/-- The read half of a cell update leaves the merged word to be stored (rule R165). -/
theorem workStep_update {a : FbAddr} {sub : SubRow} {q : PlaneBits} {later : List HostWork}
    (hw : s.work = .update a sub q :: later) (ha : a.inRange s.cfg = true) :
    workStep s = .next { s with
      work := .store a (mergePixel s.cfg sub q (s.fb.read a)) :: later
      hist := s.hist ++ [.fbRead a (s.fb.read a)] } := by
  simp only [workStep, hw, withCell_of_inRange ha, State.record, State.fbValue_eq]

/-- The write half of a cell update stores the word and takes the next access (rule R165). -/
theorem workStep_store {a : FbAddr} {v : Word} {later : List HostWork}
    (hw : s.work = .store a v :: later) (ha : a.inRange s.cfg = true) :
    workStep s = .next { s with work := later, fb := s.fb.write a v, hist := s.hist ++ [.fbWrite a v] } := by
  simp only [workStep, hw, withCell_of_inRange ha, State.fbStore, State.record]

/-- The three lines of a sub-row are pairwise distinct (rule R8), so that no field overwrites another. -/
theorem subLines_nodup (h : c.wf = true) (sub : SubRow) : (subLines c sub).Nodup := by
  have hsplit : (subLines c .one ++ subLines c .two).Nodup := Config.wf_color_nodup h
  cases sub with
  | one => exact hsplit.of_append_left
  | two => exact hsplit.of_append_right

/-- Setting three distinct lines one after the other leaves each at its own level. -/
theorem map_testBit_setLine {i j k : Nat} (h : [i, j, k].Nodup) (v : Word) (p q r : Bool) :
    [i, j, k].map (setLine (setLine (setLine v i p) j q) k r).testBit = [p, q, r] := by
  obtain ⟨⟨hij, hik⟩, hjk⟩ : (i ≠ j ∧ i ≠ k) ∧ j ≠ k := by simpa using h
  simp [testBit_setLine, hij, hik, hjk]

/-- Rule R165, field by field: the lines of the sub-row hold the plane's bits, which `mergePixel_other` completes. -/
theorem mergePixel_fields (h : c.wf = true) (sub : SubRow) (q : PlaneBits) (v : Word) :
    (subLines c sub).map (mergePixel c sub q v).testBit = [q.r, q.g, q.b] := by
  cases sub with
  | one => exact map_testBit_setLine (subLines_nodup h .one) v q.r q.g q.b
  | two => exact map_testBit_setLine (subLines_nodup h .two) v q.r q.g q.b

/-- The logical area of rule R161. -/
theorem inBounds_iff : inBounds c x y = true ↔ 0 ≤ x ∧ x < c.W ∧ 0 ≤ y ∧ y < c.H := by
  simp [inBounds, and_assoc]

theorem exec_setpixel_of_outside {color : Color} (hrun : s.run ≠ .failed) (hout : ¬ inBounds s.cfg x y = true) :
    exec (.setpixel x y color) s = .next s := (if_neg hrun).trans (if_neg hout)

end Sys2Proof.Machine

namespace Sys2Proof

open Machine

/-- Settles O18: the two halves are one access each, the three lines of a sub-row hold the plane's bits as they are
distinct, and the merge writes no other line. -/
theorem cellUpdateOverwritesThreeFields : Obligations.CellUpdateOverwritesThreeFields := by
  refine ⟨fun s a sub q later hw ha => workStep_update hw (FbAddr.inRange_iff.2 ha),
    fun s a v later hw ha => workStep_store hw (FbAddr.inRange_iff.2 ha), fun c q v hwf => ?_⟩
  have hmerge := fun sub =>
    And.intro (mergePixel_fields hwf sub q v) fun i => mergePixel_other (c := c) (i := i) sub q v
  exact ⟨by simpa [subLines, and_assoc] using hmerge .one, by simpa [subLines, and_assoc] using hmerge .two⟩

/-- Settles O14: each of the four ways to lie outside contradicts a bound of the logical area. -/
theorem setpixelOutsideTheAreaIsSilent : Obligations.SetpixelOutsideTheAreaIsSilent := by
  intro x y color s hrun hout
  refine exec_setpixel_of_outside hrun fun hin => ?_
  have hbounds := inBounds_iff.1 hin
  omega

end Sys2Proof
end

section
/-! PROOFS. The scan sequence: the port writes of the micro-operations, and the dwell with the advance after it
(rules R184, R186, R188, R191 to R197). -/

namespace Sys2Proof.Machine

variable (s : State)

/-- A store to the set port and the next micro-operation, field by field: how a micro-operation that raises lines
ends (rule R25). -/
theorem State.goUpc_portSet_eq (m : Word) (u : BitVec 4) : (s.portSet m).goUpc u = { s with
    out := s.out ||| m
    panel := s.panel.observe s.cfg s.out (s.out ||| m)
    pc := ⟨s.pc.row, s.pc.plane, s.pc.col, u⟩
    hist := s.hist ++ [.set m] } := rfl

/-- A store to the clear port and the next micro-operation, field by field. -/
theorem State.goUpc_portClr_eq (m : Word) (u : BitVec 4) : (s.portClr m).goUpc u = { s with
    out := s.out &&& wordNot s.cfg m
    panel := s.panel.observe s.cfg s.out (s.out &&& wordNot s.cfg m)
    pc := ⟨s.pc.row, s.pc.plane, s.pc.col, u⟩
    hist := s.hist ++ [.clr m] } := rfl

/-- Loading the working register writes it and records the read (rule R184). -/
theorem State.loadCell_eq (a : FbAddr) : s.loadCell a = { s with
    cell := s.fb.read a
    hist := s.hist ++ [.fbRead a (s.fb.read a)] } := rfl

theorem exec_colClk : exec .colClk s = .next ((s.portSet (clkMask s.cfg)).goUpc Upc.STAB_C) := rfl

theorem exec_blank : exec .blank s = .next ((s.portSet (oeMask s.cfg)).goUpc Upc.ROW_SET) := rfl

theorem exec_rowSet : exec .rowSet s =
    .next ((s.portSet (rowbits s.cfg s.pc.row &&& rowMask s.cfg)).goUpc Upc.ROW_CLR) := rfl

theorem exec_rowClr : exec .rowClr s =
    .next ((s.portClr (wordNot s.cfg (rowbits s.cfg s.pc.row) &&& rowMask s.cfg)).goUpc Upc.LAT_SET) := rfl

theorem exec_latSet : exec .latSet s = .next ((s.portSet (latMask s.cfg)).goUpc Upc.LAT_CLR) := rfl

theorem exec_latClr : exec .latClr s = .next ((s.portClr (latMask s.cfg)).goUpc Upc.UNBLANK) := rfl

theorem exec_unblank : exec .unblank s = .next ((s.portClr (oeMask s.cfg)).goUpc Upc.DWELL) := rfl

variable {s}

/-- At a cell of the buffer `COL_CLR` loads it and lowers the serial lines it has at 0 (rule R184). -/
theorem exec_colClr_of_inRange (ha : s.pc.cellAddr.inRange s.cfg = true) : exec .colClr s =
    .next (((s.loadCell s.pc.cellAddr).portClr
      (wordNot s.cfg (s.fb.read s.pc.cellAddr) &&& serialMask s.cfg)).goUpc Upc.STAB_A) :=
  withCell_of_inRange ha

/-- At a cell of the buffer `COL_SET` loads it and raises the serial lines it has at 1 (rule R186). -/
theorem exec_colSet_of_inRange (ha : s.pc.cellAddr.inRange s.cfg = true) : exec .colSet s =
    .next (((s.loadCell s.pc.cellAddr).portSet
      (s.fb.read s.pc.cellAddr &&& serialMask s.cfg)).goUpc Upc.STAB_B) :=
  withCell_of_inRange ha

/-- `DWELL` at a plane of the buffer asks for the dwell of the plane's slot and then advances (rules R197, R222). -/
theorem exec_dwell_of_plane (hb : s.pc.plane < s.cfg.P) : exec .dwell s =
    .next (afterPlane (s.delayFor (dwellSlot s.cfg (planeSlot s.cfg s.pc.plane)))) := by
  have hslot := dwellTable_getElem? s.cfg (planeSlot_lt hb)
  simp only [exec, execDwell, hslot]

/-- The advance after a plane writes `pc` and, at the end of the last row of a one-shot pass, `run` (rule R197). -/
theorem afterPlane_eq (s : State) : afterPlane s = { s with
    run := if s.pc.plane + 1 < s.cfg.P ∨ s.pc.row + 1 < s.cfg.R ∨ s.mode = .cont then s.run else .idle
    pc := if s.pc.plane + 1 < s.cfg.P then ⟨s.pc.row, s.pc.plane + 1, 0, Upc.COL_CLR⟩
      else if s.pc.row + 1 < s.cfg.R then ⟨s.pc.row + 1, 0, 0, Upc.ROWCHK⟩
      else ⟨0, 0, 0, Upc.ROWCHK⟩ } := by
  by_cases hplane : s.pc.plane + 1 < s.cfg.P
  · simp [afterPlane, hplane, State.goPos]
  by_cases hrow : s.pc.row + 1 < s.cfg.R
  · simp [afterPlane, hplane, hrow, State.goPos]
  cases hmode : s.mode with
  | cont => simp [afterPlane, hplane, hrow, hmode, State.goPos]
  | oneshot => simp [afterPlane, hplane, hrow, hmode]

end Sys2Proof.Machine

namespace Sys2Proof

open Machine

/-- Settles O25: the position names a cell of the buffer, so each of the two accesses goes on to its port write. -/
theorem columnWritesFollowTheCell : Obligations.ColumnWritesFollowTheCell := by
  rintro s v m hplane hrow hcol rfl
  have ha : s.pc.cellAddr.inRange s.cfg = true := FbAddr.inRange_iff.2 ⟨hplane, hrow, hcol⟩
  constructor
  · rintro rfl
    exact ⟨_, by rw [exec_colClr_of_inRange ha, State.goUpc_portClr_eq, State.loadCell_eq]; rfl⟩
  · rintro rfl
    exact ⟨_, by rw [exec_colSet_of_inRange ha, State.goUpc_portSet_eq, State.loadCell_eq]; rfl⟩

/-- Settles O28: each of the seven is one store to a port and a new `upc`, so the panel is the observer's next
state. -/
theorem constantPortWritesOfTheEngine : Obligations.ConstantPortWritesOfTheEngine := by
  constructor
  · intro i m next s hi
    have hexec : exec i s = .next ((s.portSet m).goUpc next) := by
      simp only [List.mem_cons, Prod.mk.injEq, List.not_mem_nil, or_false] at hi
      obtain ⟨rfl, rfl, rfl⟩ | ⟨rfl, rfl, rfl⟩ | ⟨rfl, rfl, rfl⟩ | ⟨rfl, rfl, rfl⟩ := hi
      exacts [exec_colClk s, exec_blank s, exec_rowSet s, exec_latSet s]
    exact ⟨_, by rw [hexec, State.goUpc_portSet_eq]⟩
  · intro i m next s hi
    have hexec : exec i s = .next ((s.portClr m).goUpc next) := by
      simp only [List.mem_cons, Prod.mk.injEq, List.not_mem_nil, or_false] at hi
      obtain ⟨rfl, rfl, rfl⟩ | ⟨rfl, rfl, rfl⟩ | ⟨rfl, rfl, rfl⟩ := hi
      exacts [exec_rowClr s, exec_latClr s, exec_unblank s]
    exact ⟨_, by rw [hexec, State.goUpc_portClr_eq]⟩

/-- Settles O29: the plane's slot is in the table, and the advance tells the four successors apart. -/
theorem dwellWaitsThenAdvances : Obligations.DwellWaitsThenAdvances := by
  rintro s n - hplane rfl
  refine ⟨waitFor s.cfg (dwellSlot s.cfg (planeSlot s.cfg s.pc.plane)), ?_⟩
  rw [exec_dwell_of_plane hplane, afterPlane_eq]
  rfl

end Sys2Proof
end

section
/-! PROOFS. The dwell table: its recurrence from slot to slot, the slot of a plane, and the sum of a row's dwells
(rules R221 to R223). -/

namespace Sys2Proof.Machine

variable (c : Config)

/-- The subtraction of a slot never truncates (rule R221), so the recurrence and the sum below can be
proved without it. -/
theorem dwellSlot_add_rowClockTime (k : Nat) : dwellSlot c k + c.rowClockTime = 2 ^ k * c.rowClockTime :=
  Nat.sub_add_cancel (Nat.le_mul_of_pos_left _ (Nat.two_pow_pos k))

theorem dwellSlot_eq_mul (k : Nat) : dwellSlot c k = (2 ^ k - 1) * c.rowClockTime :=
  (Nat.sub_one_mul _ _).symm

/-- A slot is twice the one before plus `T` (rule R223). -/
theorem dwellSlot_succ (k : Nat) : dwellSlot c (k + 1) = 2 * dwellSlot c k + c.rowClockTime := by
  have hk := dwellSlot_add_rowClockTime c k
  have hsucc := dwellSlot_add_rowClockTime c (k + 1)
  rw [pow_succ', mul_assoc, ← hk] at hsucc
  omega

/-- The dwells of `n` slots in a row, from slot `k` on, with one `T` for each and `2^k * T` added: each slot doubles
the total (rule R222). -/
theorem sum_dwellSlot (n k : Nat) :
    (∑ b ∈ Finset.range n, dwellSlot c (b + k)) + n * c.rowClockTime + 2 ^ k * c.rowClockTime =
      2 ^ (n + k) * c.rowClockTime := by
  induction n with
  | zero => simp
  | succ n ih =>
    have hslot := dwellSlot_add_rowClockTime c (n + k)
    have hdouble : 2 ^ (n + 1 + k) * c.rowClockTime = 2 * (2 ^ (n + k) * c.rowClockTime) := by ring
    rw [Finset.sum_range_succ, hdouble, Nat.succ_mul]
    omega

variable {c}

theorem dwellSlot_lt_succ (hT : 1 ≤ c.rowClockTime) (k : Nat) : dwellSlot c k < dwellSlot c (k + 1) := by
  rw [dwellSlot_succ]
  omega

/-- An admitted `P` is at most the seven slots of the table, so the subtraction of rule R222 never truncates. -/
theorem planeSlot_eq_add (hP : c.P ≤ 7) (b : Nat) : planeSlot c b = b + (7 - c.P) :=
  Nat.add_sub_assoc hP b

/-- The sum of a row's dwells (rule R222). -/
theorem sum_dwellSlot_planeSlot (hP : c.P ≤ 7) :
    (∑ b ∈ Finset.range c.P, dwellSlot c (planeSlot c b)) =
      (2 ^ 7 - 2 ^ (7 - c.P)) * c.rowClockTime - c.P * c.rowClockTime := by
  have hsum := sum_dwellSlot c c.P (7 - c.P)
  rw [Nat.add_sub_cancel' hP] at hsum
  simp only [planeSlot_eq_add hP, Nat.sub_mul]
  omega

end Sys2Proof.Machine

namespace Sys2Proof

open Machine

/-- Settles O48: the recurrence of the slots gives the order of the table, as `T` is positive, and the doubling from
plane to plane, as the next plane uses the next slot. -/
theorem dwellTableDoubles : Obligations.DwellTableDoubles := by
  intro c
  refine ⟨by simp [dwellTable], fun k hk => ?_, dwellSlot_succ c, fun hwf => ?_, fun hwf b _ => ?_⟩
  · rw [dwellTable_getElem? c hk, dwellSlot_eq_mul]
  · exact dwellSlot_lt_succ (Config.wf_timing hwf).1
  · have hP := (Config.wf_planes hwf).2
    have hnext : planeSlot c (b + 1) = planeSlot c b + 1 := by
      rw [planeSlot_eq_add hP, planeSlot_eq_add hP, Nat.add_right_comm]
    rw [hnext, dwellSlot_succ]

/-- Settles O49: the slots of the planes are those from `7 - P` to 6, and their dwells are summed slot by slot. -/
theorem planesUseTheHighSlots : Obligations.PlanesUseTheHighSlots := by
  intro c hwf
  obtain ⟨hpos, hP⟩ := Config.wf_planes hwf
  have hslot := planeSlot_eq_add hP
  refine ⟨fun b hb => ?_, ?_, ?_, ?_⟩
  · exact ⟨Nat.le_of_lt_succ (planeSlot_lt hb), by rw [hslot]; omega⟩
  · rw [hslot]; omega
  · rw [hslot, Nat.zero_add]
  · rintro T rfl
    exact sum_dwellSlot_planeSlot hP

end Sys2Proof
end

section
/-! PROOFS. The decoder and the encoder undo each other, code by code (rules R114 to R116). -/

namespace Sys2Proof

variable {w : Nat} {code : BitVec 4} {ops : List Operand} {i : Instr}

/-- Every operation as the encoder writes it is well formed where its masks fit: the lemmas of `Laws.EncodeWf`
together. -/
theorem encode_wf (i : Instr) : Laws.EncodeWf.Statement i := by
  cases i with
  | rowchk => exact Laws.EncodeWf.rowchk
  | colClr => exact Laws.EncodeWf.colClr
  | stabA => exact Laws.EncodeWf.stabA
  | colSet => exact Laws.EncodeWf.colSet
  | stabB => exact Laws.EncodeWf.stabB
  | colClk => exact Laws.EncodeWf.colClk
  | stabC => exact Laws.EncodeWf.stabC
  | blank => exact Laws.EncodeWf.blank
  | rowSet => exact Laws.EncodeWf.rowSet
  | rowClr => exact Laws.EncodeWf.rowClr
  | latSet => exact Laws.EncodeWf.latSet
  | latClr => exact Laws.EncodeWf.latClr
  | unblank => exact Laws.EncodeWf.unblank
  | dwell => exact Laws.EncodeWf.dwell
  | init => exact Laws.EncodeWf.init
  | setupout m => exact Laws.EncodeWf.setupout m
  | setbits m => exact Laws.EncodeWf.setbits m
  | clrbits m => exact Laws.EncodeWf.clrbits m
  | setpixel x y color => exact Laws.EncodeWf.setpixel x y color
  | clearbuf => exact Laws.EncodeWf.clearbuf
  | start priority => exact Laws.EncodeWf.start priority
  | stop => exact Laws.EncodeWf.stop
  | pause => exact Laws.EncodeWf.pause
  | resume => exact Laws.EncodeWf.resume
  | refreshPass => exact Laws.EncodeWf.refreshPass
  | delay n => exact Laws.EncodeWf.delay n

/-- The colour operand gives the three channels back, as each is below 256 (rule R109). -/
theorem pixelOperands_encode (x y : Int) (color : Color) :
    pixelOperands code [.int x, .int y, .color color.red.toNat color.green.toNat color.blue.toNat] =
      .ok (.setpixel x y color) := by
  have hchannels := And.intro color.red.isLt (And.intro color.green.isLt color.blue.isLt)
  simp only [pixelOperands, BitVec.ofNat_toNat, BitVec.setWidth_eq]
  exact if_pos hchannels

/-- What the encoder writes decodes to the operation, where its masks fit. -/
theorem decode_encode (hfits : i.fits w = true) : decode w (encode i) = .ok i := by
  cases i with
  | setpixel x y color => exact pixelOperands_encode (code := 0b0100#4) x y color
  | setupout m | setbits m | clrbits m => exact if_pos hfits
  | _ => rfl

/-- A command without operands decodes from the empty list alone. -/
theorem noOperands_ok {j : Instr} (h : noOperands code j ops = .ok i) : ops = [] ∧ i = j := by
  unfold noOperands at h
  split at h
  · exact ⟨rfl, (Except.ok.inj h).symm⟩
  · cases h

/-- A command with a mask decodes from that mask alone. -/
theorem oneMask_ok {f : Word → Instr} (h : oneMask w code f ops = .ok i) : ∃ m, ops = [.hw m] ∧ i = f m := by
  unfold oneMask at h
  split at h
  · split at h
    · exact ⟨_, rfl, (Except.ok.inj h).symm⟩
    · cases h
  · cases h

/-- `SETPIXEL` decodes from two coordinates and a colour whose channels lose nothing in 8 bits (rule R109). -/
theorem pixelOperands_ok (h : pixelOperands code ops = .ok i) :
    ∃ x y color, i = .setpixel x y color ∧
      ops = [.int x, .int y, .color color.red.toNat color.green.toNat color.blue.toNat] := by
  unfold pixelOperands at h
  split at h
  · next x y r g b =>
    split at h
    · next hlt =>
      obtain ⟨hr, hg, hb⟩ := hlt
      refine ⟨x, y, _, (Except.ok.inj h).symm, ?_⟩
      simp [Nat.mod_eq_of_lt hr, Nat.mod_eq_of_lt hg, Nat.mod_eq_of_lt hb]
    · cases h
  · cases h

theorem priorityOperand_ok (h : priorityOperand code ops = .ok i) : ∃ p, ops = [.prio p] ∧ i = .start p := by
  unfold priorityOperand at h
  split at h
  · exact ⟨_, rfl, (Except.ok.inj h).symm⟩
  · cases h

theorem delayOperand_ok (h : delayOperand code ops = .ok i) : ∃ n, ops = [.nat n] ∧ i = .delay n := by
  unfold delayOperand at h
  split at h
  · exact ⟨_, rfl, (Except.ok.inj h).symm⟩
  · cases h

/-- A command that decodes is the one the encoder writes. -/
theorem encode_decodeCmd (h : decodeCmd w code ops = .ok i) : encode i = .cmd code ops := by
  have hcode : code = BitVec.ofNat 4 code.toNat := by simp
  unfold decodeCmd at h
  split at h
  case h_13 => cases h
  case h_5 hn =>
    obtain ⟨x, y, color, rfl, rfl⟩ := pixelOperands_ok h
    rw [hcode, hn]; rfl
  case h_7 hn =>
    obtain ⟨p, rfl, rfl⟩ := priorityOperand_ok h
    rw [hcode, hn]; rfl
  case h_12 hn =>
    obtain ⟨n, rfl, rfl⟩ := delayOperand_ok h
    rw [hcode, hn]; rfl
  case h_2 hn | h_3 hn | h_4 hn =>
    obtain ⟨m, rfl, rfl⟩ := oneMask_ok h
    rw [hcode, hn]; rfl
  all_goals
    next hn =>
    obtain ⟨rfl, rfl⟩ := noOperands_ok h
    rw [hcode, hn]; rfl

/-- A micro-operation that decodes has masks of any width: it has none. -/
theorem fits_of_decodeUop (h : decodeUop code = .ok i) : i.fits w = true := by
  have he := Machine.decodeUop_ok h
  cases i with
  | setupout m | setbits m | clrbits m => cases he
  | _ => rfl

/-- Decoding and encoding are inverse to each other on the operations whose masks fit. -/
theorem decode_eq_ok_iff {e : Encoded} : decode w e = .ok i ↔ i.fits w = true ∧ encode i = e := by
  constructor
  · intro h
    cases e with
    | uop code => exact ⟨fits_of_decodeUop h, Machine.decodeUop_ok h⟩
    | cmd code ops => exact ⟨(Machine.decodeCmd_ok h).2, encode_decodeCmd h⟩
  · rintro ⟨hfits, rfl⟩
    exact decode_encode hfits

/-- A well-formed command decodes: its code is one of the twelve and its operands are those of the code. -/
theorem decodeCmd_of_wf (h : (Encoded.cmd code ops).wf w = true) : ∃ i, decodeCmd w code ops = .ok i := by
  simp only [Encoded.wf, Bool.and_eq_true, Encoded.codeDefined, Encoded.operandsOk, Encoded.channelsOk,
    Encoded.wordsOk, decide_eq_true_eq] at h
  obtain ⟨⟨⟨hcode, hops⟩, hchannels⟩, hwords⟩ := h
  unfold decodeCmd
  split at hops
  case h_1 m hn | h_2 m hn | h_3 m hn =>
    have hm : wordFits w m = true := by simpa using hwords
    exact ⟨_, by rw [hn]; exact if_pos hm⟩
  case h_4 x y r g b hn =>
    have hlt : r < 256 ∧ g < 256 ∧ b < 256 := by simpa [and_assoc] using hchannels
    exact ⟨_, by rw [hn]; exact if_pos hlt⟩
  case h_5 hn | h_6 hn => exact ⟨_, by rw [hn]; rfl⟩
  case h_13 n1 n2 n3 n4 n6 n11 _ _ _ _ _ _ =>
    obtain rfl := List.isEmpty_iff.1 hops
    rw [imp_false] at n1 n2 n3 n4 n6 n11
    have hn : code.toNat ∈ [0, 5, 7, 8, 9, 10] := by
      simp only [List.mem_cons, List.not_mem_nil, or_false]
      omega
    simp only [List.mem_cons, List.not_mem_nil, or_false] at hn
    rcases hn with hn | hn | hn | hn | hn | hn <;> exact ⟨_, by rw [hn]; rfl⟩
  all_goals cases hops

theorem decodeUop_reserved (h : 14 ≤ code.toNat) : decodeUop code = .error (.reservedUop code) := by
  have hn : code.toNat = 14 ∨ code.toNat = 15 := by omega
  unfold decodeUop
  rcases hn with hn | hn <;> rw [hn] <;> rfl

theorem decodeCmd_reserved (h : 12 ≤ code.toNat) : decodeCmd w code ops = .error (.reservedCmd code) := by
  have hn : code.toNat = 12 ∨ code.toNat = 13 ∨ code.toNat = 14 ∨ code.toNat = 15 := by omega
  unfold decodeCmd
  rcases hn with hn | hn | hn | hn <;> rw [hn] <;> rfl

namespace Machine

variable {s : State}

/-- The engine's step at a code that names nothing is refused (rule R116). -/
theorem step_engine_reject {why : Reject} (hc : s.cfg.wf = true) (hm : s.mover = .engine) (hr : s.run = .running)
    (hd : decodeUop s.pc.upc = .error why) : step s = .refused (.undecodable why) := by
  simp [step, State.fetch, hc, hm, State.fetchEngine, hr, decode, hd]

/-- The host's step at a command that does not decode is refused (rule R116). -/
theorem step_command_reject {why : Reject} {p : Packet} {rest : List Packet} (hc : s.cfg.wf = true)
    (hm : s.mover = .host) (hw : s.work = []) (hi : s.inbox = p :: rest)
    (hd : decodeCmd s.cfg.wordW p.code p.ops = .error why) : step s = .refused (.undecodable why) := by
  simp [step, State.fetch, hc, hm, State.fetchHost, hw, hi, decode, hd]

theorem step_misconfigured (hc : s.cfg.wf = false) : step s = .refused .configRefused := by
  simp [step, State.fetch, hc]

/-- An engine that does not run uses up its turn (log entry 18). -/
theorem step_engine_idle (hc : s.cfg.wf = true) (hm : s.mover = .engine) (hr : s.run ≠ .running) :
    step s = .next s.advance := by
  simp [step, State.fetch, hc, hm, State.fetchEngine, hr]

/-- A host that has nothing left to do uses up its turn (log entry 19). -/
theorem step_host_idle (hc : s.cfg.wf = true) (hm : s.mover = .host) (hw : s.work = []) (hi : s.inbox = []) :
    step s = .next s.advance := by
  simp [step, State.fetch, hc, hm, State.fetchHost, hw, hi]

end Machine

end Sys2Proof

namespace Sys2Proof

open Machine

/-- Settles O1: the decoder inverts the encoder operation by operation. -/
theorem decodeUndoesEncode : Obligations.DecodeUndoesEncode := fun _ _ => decode_encode

/-- Settles O2: what decodes is what the encoder writes, which is well formed; and a well-formed presentation has a
code of its table and the operands of that code. -/
theorem decoderAcceptsExactlyTheWellFormed : Obligations.DecoderAcceptsExactlyTheWellFormed := by
  refine ⟨fun w e => ⟨fun hwf => ?_, ?_⟩, fun w e i h => (decode_eq_ok_iff.1 h).2⟩
  · cases e with
    | uop code => exact decodeUop_of_lt (by simpa [Encoded.wf, Encoded.codeDefined, Encoded.operandsOk,
        Encoded.channelsOk, Encoded.wordsOk] using hwf)
    | cmd code ops => exact decodeCmd_of_wf hwf
  · rintro ⟨i, hi⟩
    obtain ⟨hfits, rfl⟩ := decode_eq_ok_iff.1 hi
    exact encode_wf i w hfits

/-- Settles O3: neither table has an entry at a reserved code, and a step that meets one is refused with the decoder's
reason. -/
theorem reservedCodesAreRefused : Obligations.ReservedCodesAreRefused :=
  ⟨fun _ _ => decodeUop_reserved, fun _ _ _ => decodeCmd_reserved,
    fun _ _ _ hc hm hw hi hcode => step_command_reject hc hm hw hi (decodeCmd_reserved hcode),
    fun _ hc hm hr hcode => step_engine_reject hc hm hr (decodeUop_reserved hcode)⟩

/-- Settles O4: each code is looked up in its table. -/
theorem writtenCodesDecode : Obligations.WrittenCodesDecode :=
  ⟨rfl, rfl, rfl, rfl, rfl, rfl, rfl, rfl⟩

/-- Settles O5: the fetch gives the decoded operation and the state with the turn used up. -/
theorem stepRunsTheDecodedOperation : Obligations.StepRunsTheDecodedOperation :=
  ⟨fun _ _ hc hm hr hd => step_engine hc hm hr hd, fun _ _ _ _ hc hm hw hi hd => step_command hc hm hw hi hd⟩

/-- Settles O6: the other four things a step can find to do. -/
theorem stepWithNoOperationToRun : Obligations.StepWithNoOperationToRun :=
  ⟨State.mover_cons, fun _ => step_misconfigured, fun _ => step_engine_idle, fun _ => step_host_idle,
    fun _ => step_access⟩

end Sys2Proof
end

section
/-! PROOFS. What an operation can do, said once: when it goes on and the state it then leaves. The frame of the
micro-operations and of the commands, and what a step may change, are read off it. -/

namespace Sys2Proof.Machine

/-- When an operation goes on: for a micro-operation the spaces it reads (rules R60, R39), for a command the run
states of rule R240. -/
def enabled (i : Instr) (s : State) : Prop :=
  match i with
  | .colClr | .colSet => s.pc.cellAddr.inRange s.cfg = true
  | .dwell => s.pc.plane < s.cfg.P
  | .rowchk | .stabA | .stabB | .colClk | .stabC | .blank | .rowSet | .rowClr | .latSet | .latClr | .unblank => True
  | .init => s.run = .uninit
  | .setupout _ | .setbits _ | .clrbits _ => s.run = .idle
  | .setpixel _ _ _ | .clearbuf => s.run ≠ .failed
  | .start _ | .refreshPass => s.run = .idle ∧ s.linesConfigured = true
  | .stop | .pause | .resume => s.setUp = true
  | .delay _ => s.delayAllowed = true

/-- The state that an operation leaves where it goes on. -/
def effect (i : Instr) (s : State) : State :=
  match i with
  | .rowchk => if s.stopSampled then s.takeStop else if s.pauseSampled then s.takePause else s.goRow
  | .colClr => ((s.loadCell s.pc.cellAddr).portClr
      (wordNot s.cfg (s.fb.read s.pc.cellAddr) &&& serialMask s.cfg)).goUpc Upc.STAB_A
  | .stabA => (s.delayFor s.cfg.stabilizeNs).goUpc Upc.COL_SET
  | .colSet => ((s.loadCell s.pc.cellAddr).portSet
      (s.fb.read s.pc.cellAddr &&& serialMask s.cfg)).goUpc Upc.STAB_B
  | .stabB => (s.delayFor s.cfg.stabilizeNs).goUpc Upc.COL_CLK
  | .colClk => (s.portSet (clkMask s.cfg)).goUpc Upc.STAB_C
  | .stabC => (s.delayFor s.cfg.stabilizeNs).goPos (afterColumn s.cfg s.pc)
  | .blank => (s.portSet (oeMask s.cfg)).goUpc Upc.ROW_SET
  | .rowSet => (s.portSet (rowbits s.cfg s.pc.row &&& rowMask s.cfg)).goUpc Upc.ROW_CLR
  | .rowClr => (s.portClr (wordNot s.cfg (rowbits s.cfg s.pc.row) &&& rowMask s.cfg)).goUpc Upc.LAT_SET
  | .latSet => (s.portSet (latMask s.cfg)).goUpc Upc.LAT_CLR
  | .latClr => (s.portClr (latMask s.cfg)).goUpc Upc.UNBLANK
  | .unblank => (s.portClr (oeMask s.cfg)).goUpc Upc.DWELL
  | .dwell => afterPlane (s.delayFor (dwellSlot s.cfg (planeSlot s.cfg s.pc.plane)))
  | .init => ({ s with
      run := if s.env then RunState.idle else RunState.failed
      ret := some (.ok s.env) } : State).recordCmd .init
  | .setupout m => ({ s with
      dir := s.dir ||| (m &&& s.cfg.availableMask)
      ret := some (.mask (m &&& s.cfg.availableMask)) } : State).recordCmd (.setupout m)
  | .setbits m => s.portSet m
  | .clrbits m => s.portClr m
  | .setpixel x y color =>
    if inBounds s.cfg x y then { s with work := s.work ++ pixelWork s.cfg x.toNat y.toNat color } else s
  | .clearbuf => { s with work := s.work ++ clearWork s.cfg }
  | .start p => (({ s with stopReq := false, pauseReq := false, prioDenied := !s.env } : State).enterScan
      .cont).recordCmd (.start p)
  | .stop => ({ s with stopReq := true } : State).recordCmd .stop
  | .pause => ({ s with pauseReq := true } : State).recordCmd .pause
  | .resume => ({ s with pauseReq := false } : State).recordCmd .resume
  | .refreshPass => (s.enterScan .oneshot).recordCmd .refreshPass
  | .delay n => s.delayFor n

variable {i : Instr} {s t : State}

/-- A command behind a guard goes on exactly when the guard holds. -/
theorem guard_next {p : Prop} [Decidable p] {u : State} {r : Refusal} :
    (if p then .next u else .refused r : Result) = .next t ↔ p ∧ t = u := by
  by_cases hp : p <;> simp [hp, eq_comm]

theorem guard_refused {p : Prop} [Decidable p] {u : State} {r : Refusal} :
    (if p then .refused r else .next u : Result) = .next t ↔ ¬ p ∧ t = u := by
  by_cases hp : p <;> simp [hp, eq_comm]

/-- The slot of a plane is in the table exactly when the plane is one of the buffer's (rules R39, R222). -/
theorem exec_dwell_of_not_plane (hb : ¬ s.pc.plane < s.cfg.P) :
    exec .dwell s = .fault (.noSuchSlot (planeSlot s.cfg s.pc.plane)) := by
  have hslot : (dwellTable s.cfg)[planeSlot s.cfg s.pc.plane]? = none := by
    have hout : 7 ≤ planeSlot s.cfg s.pc.plane := by unfold planeSlot; omega
    simpa [dwellTable] using hout
  simp only [exec, execDwell, hslot]

/-- Every operation goes on exactly when it is enabled, and then leaves its effect. -/
theorem exec_next_iff : exec i s = .next t ↔ enabled i s ∧ t = effect i s := by
  cases i with
  | rowchk =>
    simp only [exec, execRowchk, enabled, effect, true_and]
    split
    · simp [eq_comm]
    · split <;> simp [eq_comm]
  | colClr | colSet => exact withCell_next.trans (and_congr_right fun _ => by simp [effect, eq_comm])
  | stabA | stabB | colClk | stabC | blank | rowSet | rowClr | latSet | latClr | unblank =>
    simp [exec, execStabA, execStabB, execColClk, execStabC, execBlank, execRowSet, execRowClr, execLatSet, execLatClr,
      execUnblank, enabled, effect, eq_comm]
  | dwell =>
    by_cases hb : s.pc.plane < s.cfg.P
    · simp [exec_dwell_of_plane hb, enabled, effect, hb, eq_comm]
    · simp [exec_dwell_of_not_plane hb, enabled, hb]
  | init | setupout m | setbits m | clrbits m | stop | pause | resume | delay n => exact guard_next
  | setpixel x y color =>
    by_cases hrun : s.run = .failed
    · simp [exec, execSetpixel, enabled, hrun]
    · by_cases hin : inBounds s.cfg x y = true <;>
        simpa [exec, execSetpixel, enabled, effect, hrun, hin] using eq_comm
  | clearbuf => exact guard_refused
  | start p | refreshPass =>
    simp only [exec, execStart, execRefreshPass, enabled, effect]
    split
    · rw [guard_next]; simp [*]
    · simp [*]

theorem exec_eq_effect (h : enabled i s) : exec i s = .next (effect i s) := exec_next_iff.2 ⟨h, rfl⟩

end Sys2Proof.Machine
end

section
/-! PROOFS. The register primitives, the timing primitive and the control commands: their effect where they go on,
their refusal elsewhere (rules R140 to R143, R220, R240 to R245, R260 to R263, R302). -/

namespace Sys2Proof.Machine

variable {s t u : State} {m : Word} {i : Nat}

theorem setUp_iff : s.setUp = true ↔ s.run = .idle ∨ s.run = .running := by simp [State.setUp]

theorem linesConfigured_iff : s.linesConfigured = true ↔ s.dir &&& engineMask s.cfg = engineMask s.cfg := by
  simp [State.linesConfigured]

theorem delayAllowed_iff : s.delayAllowed = true ↔ s.run ≠ .failed ∨ s.cfg.delayWhenFailed = true := by
  simp [State.delayAllowed]

/-- A line after a store to the set port (rule R141). -/
theorem level_portSet : (s.portSet m).level i = (s.level i || m.testBit i) := Nat.testBit_or ..

/-- A line after a store to the clear port (rule R142). -/
theorem level_portClr (hi : i < s.cfg.wordW) : (s.portClr m).level i = (s.level i && !m.testBit i) := by
  simp [State.level, testBit_wordNot, hi]

theorem effect_setbits : effect (.setbits m) s = s.portSet m := rfl

theorem effect_clrbits : effect (.clrbits m) s = s.portClr m := rfl

theorem exec_stop_refused (h : s.setUp ≠ true) : exec .stop s = .refused .stopInWrongState := if_neg h

theorem exec_pause_refused (h : s.setUp ≠ true) : exec .pause s = .refused .pauseInWrongState := if_neg h

theorem exec_resume_refused (h : s.setUp ≠ true) : exec .resume s = .refused .resumeInWrongState := if_neg h

/-- The available part of a mask is the mask itself exactly when no line of it is unavailable. -/
theorem and_available_eq_iff {m a : Word} :
    m &&& a = m ↔ ¬ ∃ i, m.testBit i = true ∧ a.testBit i = false := by
  constructor
  · rintro h ⟨i, hm, ha⟩
    rw [← h, Nat.testBit_and, ha, Bool.and_false] at hm
    cases hm
  · intro h
    apply Nat.eq_of_testBit_eq
    intro i
    rw [Nat.testBit_and]
    by_cases hm : m.testBit i = true
    · have ha : a.testBit i = true := by
        by_contra ha
        exact h ⟨i, hm, by simpa using ha⟩
      simp [hm, ha]
    · simp [hm]

/-- The engine's lines are available in an admitted configuration (rule R8), so `SETUPOUT` grants them all. -/
theorem engineMask_and_available {c : Config} (h : c.wf = true) : engineMask c &&& c.availableMask = engineMask c := by
  rw [and_available_eq_iff]
  rintro ⟨i, hm, ha⟩
  rw [testBit_engineMask, decide_eq_true_eq] at hm
  rw [(Config.wf_available h hm).2] at ha
  cases ha

end Sys2Proof.Machine

namespace Sys2Proof

open Machine

/-- Settles O11: each port write moves the lines of its mask only, so the last of two decides them. -/
theorem pairsOfPortWrites : Obligations.PairsOfPortWrites := by
  intro m s t u i hi
  refine ⟨fun ht hu => ?_, fun ht hu => ?_, fun ht hu => ?_, fun ht hu => ?_⟩ <;>
    obtain ⟨-, rfl⟩ := exec_next_iff.1 ht <;> obtain ⟨-, rfl⟩ := exec_next_iff.1 hu
  · rw [effect_setbits, effect_clrbits, level_portClr (by exact hi), level_portSet]
    cases s.level i <;> simp
  · rw [effect_setbits, effect_clrbits, level_portSet, level_portClr hi]
    cases s.level i <;> simp
  · rw [effect_setbits, effect_setbits, level_portSet, level_portSet, Bool.or_assoc, Bool.or_self]
  · rw [effect_clrbits, effect_clrbits, level_portClr (by exact hi), level_portClr hi, Bool.and_assoc, Bool.and_self]

/-- Settles O12: the answer of the environment decides `INIT` and the priority, the unavailable lines `SETUPOUT`. -/
theorem errorKindsAreReportedByValue : Obligations.ErrorKindsAreReportedByValue := by
  refine ⟨fun s t h => ?_, fun m s t h => ?_, fun p s t h => ?_⟩ <;> obtain ⟨-, rfl⟩ := exec_next_iff.1 h
  · cases henv : s.env <;> simp [reportedError, effect, henv]
  · have hiff := and_available_eq_iff (m := m) (a := s.cfg.availableMask)
    by_cases hall : m &&& s.cfg.availableMask = m
    · simpa [reportedError, effect, hall] using hiff.1 hall
    · simpa [reportedError, effect, hall] using not_not.1 (mt hiff.2 hall)
  · cases henv : s.env <;> simp [reportedError, effect, henv]

/-- Settles O13: `INIT` leaves `IDLE`, `SETUPOUT` then configures every engine line, and `START` asks for no more. -/
theorem setupBringsTheEngineUp : Obligations.SetupBringsTheEngineUp := by
  intro s a b p granted hwf hrun henv ha hb
  obtain ⟨-, rfl⟩ := exec_next_iff.1 ha
  obtain ⟨hidle, rfl⟩ := exec_next_iff.1 hb
  have hall := engineMask_and_available hwf
  refine ⟨by simp [effect, hall], _, exec_eq_effect ⟨hidle, ?_⟩, rfl, rfl, rfl, rfl, rfl⟩
  rw [linesConfigured_iff]
  have habsorb : (s.dir ||| engineMask s.cfg) &&& engineMask s.cfg = engineMask s.cfg := by
    apply Nat.eq_of_testBit_eq
    intro i
    simp [Bool.and_or_distrib_right]
  simpa [effect, hall] using habsorb

/-- Settles O7: the effect of `INIT` in `UNINIT`, its refusal elsewhere. -/
theorem initTakesTheEnvironmentsAnswer : Obligations.InitTakesTheEnvironmentsAnswer :=
  fun _ => ⟨fun hrun => exec_eq_effect hrun, fun hrun => if_neg hrun⟩

/-- Settles O8: the effect of `SETUPOUT` in `IDLE`, its refusal elsewhere. -/
theorem setupoutConfiguresAvailableLines : Obligations.SetupoutConfiguresAvailableLines :=
  fun m _ => ⟨fun hrun => exec_eq_effect (i := .setupout m) hrun, fun hrun => if_neg hrun⟩

/-- Settles O47: `DELAY` records its event where it is allowed, and the threshold tells the two ways to wait apart. -/
theorem delayRecordsTheRequest : Obligations.DelayRecordsTheRequest := by
  refine ⟨fun n s h => exec_eq_effect (i := .delay n) (delayAllowed_iff.2 h), fun n s hrun hcfg => ?_,
    fun c n h => if_pos h, fun c n h hn => ?_, fun c => ?_⟩
  · exact if_neg (by simp [State.delayAllowed, hrun, hcfg])
  · rw [waitFor, if_neg (by omega), if_neg hn]
  · rw [waitFor, if_neg (by omega), if_pos rfl]

/-- Settles O50: the effect of `START`, and its two refusals in the order of rule R241. -/
theorem startEntersTheScan : Obligations.StartEntersTheScan :=
  fun p _ => ⟨fun hrun hdir => exec_eq_effect (i := .start p) ⟨hrun, linesConfigured_iff.2 hdir⟩,
    fun hrun hdir => (if_pos hrun).trans (if_neg (mt linesConfigured_iff.1 hdir)), fun hrun => if_neg hrun⟩

/-- Settles O51: the three requests share the guard of rule R240, and each writes its flag. -/
theorem requestsWriteTheirFlag : Obligations.RequestsWriteTheirFlag := by
  refine fun s => ⟨fun hrun => ?_, fun hrun => ?_⟩
  · have hset := setUp_iff.2 hrun
    exact ⟨exec_eq_effect hset, exec_eq_effect hset, exec_eq_effect hset⟩
  · have hset : s.setUp ≠ true := by rcases hrun with hrun | hrun <;> simp [State.setUp, hrun]
    exact ⟨exec_stop_refused hset, exec_pause_refused hset, exec_resume_refused hset⟩

/-- Settles O52: the effect of `REFRESH_PASS`, and its two refusals. -/
theorem refreshPassEntersOnePass : Obligations.RefreshPassEntersOnePass :=
  fun _ => ⟨fun hrun hdir => exec_eq_effect (i := .refreshPass) ⟨hrun, linesConfigured_iff.2 hdir⟩,
    fun hrun hdir => (if_pos hrun).trans (if_neg (mt linesConfigured_iff.1 hdir)), fun hrun => if_neg hrun⟩

end Sys2Proof
end

section
/-! PROOFS. The frames: what the micro-operations, the commands and the host's accesses leave as it was, and what no
step takes back (rules R12, R37, R75, R77, R78, R182, R201, R240). -/

namespace Sys2Proof.Machine

variable {c : Config} {i : Instr} {s t : State}

/-- A step that touches the lines of `mask` only leaves the others (rule R201). -/
theorem or_and_wordNot {v m mask : Word} (hm : ∀ i, m.testBit i = true → mask.testBit i = true) :
    (v ||| m) &&& wordNot c mask = v &&& wordNot c mask := by
  apply Nat.eq_of_testBit_eq
  intro i
  have hi := hm i
  simp only [Nat.testBit_and, Nat.testBit_or, testBit_wordNot]
  cases hmi : m.testBit i <;> simp_all

theorem and_wordNot_and_wordNot {v m mask : Word} (hm : ∀ i, m.testBit i = true → mask.testBit i = true) :
    (v &&& wordNot c m) &&& wordNot c mask = v &&& wordNot c mask := by
  apply Nat.eq_of_testBit_eq
  intro i
  have hi := hm i
  simp only [Nat.testBit_and, testBit_wordNot]
  cases hmi : m.testBit i <;> cases decide (i < c.wordW) <;> simp_all

/-- The part of a word on some of the engine's lines holds engine lines only. -/
theorem and_testBit_of_le {v m mask : Word} (hm : ∀ i, m.testBit i = true → mask.testBit i = true) (i : Nat)
    (h : (v &&& m).testBit i = true) : mask.testBit i = true := by
  rw [Nat.testBit_and, Bool.and_eq_true] at h
  exact hm i h.2

theorem testBit_engineMask_iff {i : Nat} : (engineMask c).testBit i = true ↔ i ∈ c.lines := by
  simp [testBit_engineMask]

theorem serialMask_le_engineMask (i : Nat) (h : (serialMask c).testBit i = true) :
    (engineMask c).testBit i = true := by
  rw [testBit_serialMask, decide_eq_true_eq] at h
  rw [testBit_engineMask_iff]
  rcases h with h | rfl
  · exact List.mem_append_right _ h
  · simp [Config.lines]

theorem clkMask_le_engineMask (i : Nat) (h : (clkMask c).testBit i = true) : (engineMask c).testBit i = true := by
  rw [testBit_clkMask, decide_eq_true_eq] at h
  simp [testBit_engineMask_iff, h, Config.lines]

theorem oeMask_le_engineMask (i : Nat) (h : (oeMask c).testBit i = true) : (engineMask c).testBit i = true := by
  rw [testBit_oeMask, decide_eq_true_eq] at h
  simp [testBit_engineMask_iff, h, Config.lines]

theorem latMask_le_engineMask (i : Nat) (h : (latMask c).testBit i = true) : (engineMask c).testBit i = true := by
  rw [testBit_latMask, decide_eq_true_eq] at h
  simp [testBit_engineMask_iff, h, Config.lines]

theorem rowMask_le_engineMask (i : Nat) (h : (rowMask c).testBit i = true) : (engineMask c).testBit i = true := by
  rw [testBit_rowMask, decide_eq_true_eq] at h
  rw [testBit_engineMask_iff]
  exact List.mem_append_left _ (List.mem_append_right _ h)

/-- A micro-operation leaves the lines outside `ENGINE_MASK` (rule R201). -/
theorem effect_outside (hu : i.isUop = true) : (effect i s).out &&& wordNot s.cfg (engineMask s.cfg) =
    s.out &&& wordNot s.cfg (engineMask s.cfg) := by
  cases i with
  | rowchk => simp only [effect]; split_ifs <;> simp
  | colClr => simpa [effect] using and_wordNot_and_wordNot (and_testBit_of_le serialMask_le_engineMask)
  | colSet => simpa [effect] using or_and_wordNot (and_testBit_of_le serialMask_le_engineMask)
  | stabA | stabB | stabC => rfl
  | colClk => exact or_and_wordNot clkMask_le_engineMask
  | blank => exact or_and_wordNot oeMask_le_engineMask
  | rowSet => exact or_and_wordNot (and_testBit_of_le rowMask_le_engineMask)
  | rowClr => exact and_wordNot_and_wordNot (and_testBit_of_le rowMask_le_engineMask)
  | latSet => exact or_and_wordNot latMask_le_engineMask
  | latClr => exact and_wordNot_and_wordNot latMask_le_engineMask
  | unblank => exact and_wordNot_and_wordNot oeMask_le_engineMask
  | dwell => simp [effect, afterPlane_eq]
  | _ => cases hu

end Sys2Proof.Machine

namespace Sys2Proof

open Machine

/-- Settles O32: field by field of the effect of each micro-operation; the lines outside the engine's are
`effect_outside`. -/
theorem engineFrame : Obligations.EngineFrame := by
  intro i s t hu h
  obtain ⟨-, rfl⟩ := exec_next_iff.1 h
  have hout := effect_outside (s := s) hu
  cases i with
  | rowchk => simp only [effect]; split_ifs <;> simp
  | dwell => simp [effect, afterPlane_eq]
  | stabA | stabB | stabC => simp [effect]
  | colClr | colSet | colClk | blank | rowSet | rowClr | latSet | latClr | unblank =>
    simpa [effect] using hout
  | _ => cases hu

/-- Settles O33: field by field of the effect of each command. -/
theorem commandFrame : Obligations.CommandFrame := by
  intro i s t hu h
  obtain ⟨-, rfl⟩ := exec_next_iff.1 h
  cases i with
  | setpixel x y color => simp only [effect]; split_ifs <;> simp
  | init | setupout m | setbits m | clrbits m | clearbuf | start p | stop | pause | resume | refreshPass | delay n =>
    simp [effect]
  | _ => cases hu

end Sys2Proof
end

section
/-! PROOFS. How a step may change the state: the run states, what the host leaves alone while the engine runs, what
only grows (rules R12, R27, R37, R66, R75, R78, R240, R277). -/

namespace Sys2Proof.Machine

variable {i : Instr} {s t : State}

/-- What `upc` names is a micro-operation (rule R114). -/
theorem isUop_of_decodeUop {u : BitVec 4} (h : decodeUop u = .ok i) : i.isUop = true := by
  have hcode := decodeUop_ok h
  cases i with
  | init | setupout m | setbits m | clrbits m | setpixel x y color | clearbuf | start p | stop | pause | resume
  | refreshPass | delay n => cases hcode
  | _ => rfl

/-- A command that does not go on is refused: no command faults (rule R13). -/
theorem exec_refused_of_not_enabled (hu : i.isUop = false) (h : ¬ enabled i s) : ∃ r, exec i s = .refused r := by
  cases i with
  | init | setupout m | setbits m | clrbits m | stop | pause | resume | delay n => exact ⟨_, if_neg h⟩
  | setpixel x y color | clearbuf => exact ⟨_, if_pos (not_not.1 h)⟩
  | start p | refreshPass =>
    by_cases hrun : s.run = .idle
    · exact ⟨_, (if_pos hrun).trans (if_neg fun hlines => h ⟨hrun, hlines⟩)⟩
    · exact ⟨_, if_neg hrun⟩
  | _ => cases hu

/-- The guards of the commands are the table of rule R240, and for the two that enter the scan the configured lines
besides (rules R241, R245). -/
theorem enabled_iff_commandAllowed (hu : i.isUop = false) : enabled i s ↔ commandAllowed s.cfg i s.run = true ∧
    ((∃ p, i = .start p) ∨ i = .refreshPass → s.linesConfigured = true) := by
  cases i with
  | init | setupout m | setbits m | clrbits m | setpixel x y color | clearbuf | start p | refreshPass =>
    simp [enabled, commandAllowed]
  | stop | pause | resume => simp [enabled, commandAllowed, State.setUp]
  | delay n => simp [enabled, commandAllowed, State.delayAllowed]
  | _ => cases hu

/-- In `FAILED` no command is enabled but a `DELAY` that the configuration allows there (rules R140, R261). -/
theorem not_enabled_of_failed (hu : i.isUop = false) (hrun : s.run = .failed)
    (hdelay : (∀ n, i ≠ .delay n) ∨ s.cfg.delayWhenFailed = false) : ¬ enabled i s := by
  cases i with
  | delay n => simpa [enabled, State.delayAllowed, hrun] using hdelay
  | init | setupout m | setbits m | clrbits m | setpixel x y color | clearbuf | start p | stop | pause | resume
  | refreshPass => simp [enabled, State.setUp, hrun]
  | _ => cases hu

/-- An access of the host's operation in progress writes the operation, the buffer and the history only. -/
theorem workStep_frame (h : workStep s = .next t) : t = { s with work := t.work, fb := t.fb, hist := t.hist } := by
  obtain ⟨-, rfl⟩ | ⟨a, sub, q, later, -, -, rfl⟩ | ⟨a, v, later, -, -, rfl⟩ |
    ⟨first, others, later, a, left, more, -, -, -, -, rfl⟩ := workStep_next h <;> rfl

/-- Every operation appends to the history (rule R12). -/
theorem effect_hist (i : Instr) (s : State) : ∃ es, (effect i s).hist = s.hist ++ es := by
  cases i with
  | rowchk =>
    simp only [effect, State.takePause]
    split_ifs
    exacts [⟨_, rfl⟩, ⟨[], by simp⟩, ⟨_, rfl⟩, ⟨_, rfl⟩]
  | setpixel x y color => exact ⟨[], by simp only [effect]; split_ifs <;> simp⟩
  | clearbuf => exact ⟨[], by simp [effect]⟩
  | colClr | colSet => exact ⟨_, List.append_assoc _ _ _⟩
  | dwell => exact ⟨_, by rw [effect, afterPlane_eq]; rfl⟩
  | _ => exact ⟨_, rfl⟩

/-- What no operation writes. -/
theorem exec_keeps (h : exec i s = .next t) :
    t.cfg = s.cfg ∧ t.fb = s.fb ∧ t.env = s.env ∧ t.inbox = s.inbox ∧ t.turns = s.turns ∧ t.tick = s.tick := by
  cases hu : i.isUop with
  | true =>
    obtain ⟨-, hfb, hcfg, -, -, -, -, -, -, henv, -, hinbox, hturns, htick, -⟩ := engineFrame i s t hu h
    exact ⟨hcfg, hfb, henv, hinbox, hturns, htick⟩
  | false =>
    obtain ⟨-, hfb, hcfg, -, henv, hinbox, hturns, htick, -⟩ := commandFrame i s t hu h
    exact ⟨hcfg, hfb, henv, hinbox, hturns, htick⟩

/-- `DIR` changes by `SETUPOUT` only, which sets bits (rules R37, R143). -/
theorem exec_dir_le (h : exec i s = .next t) (k : Nat) (hk : s.dir.testBit k = true) : t.dir.testBit k = true := by
  by_cases hset : ∃ m, i = .setupout m
  · obtain ⟨m, rfl⟩ := hset
    obtain ⟨-, rfl⟩ := exec_next_iff.1 h
    simp [effect, hk]
  cases hu : i.isUop with
  | true =>
    obtain ⟨-, -, -, hdir, -⟩ := engineFrame i s t hu h
    rwa [hdir]
  | false =>
    obtain ⟨-, -, -, -, -, -, -, -, -, hdir, -⟩ := commandFrame i s t hu h
    rwa [(hdir fun m hm => hset ⟨m, hm⟩).1]

/-- An operation keeps the configuration and the count, and only adds to the history and to `DIR`. -/
theorem exec_only_adds (h : exec i s = .next t) : t.cfg = s.cfg ∧ (∃ es, t.hist = s.hist ++ es) ∧
    (∀ k, s.dir.testBit k = true → t.dir.testBit k = true) ∧ t.tick = s.tick := by
  obtain ⟨hcfg, -, -, -, -, htick⟩ := exec_keeps h
  exact ⟨hcfg, (exec_next_iff.1 h).2 ▸ effect_hist i s, exec_dir_le h, htick⟩

/-- An access keeps the configuration, `DIR` and the count, and only adds to the history. -/
theorem workStep_only_adds (h : workStep s = .next t) : t.cfg = s.cfg ∧ (∃ es, t.hist = s.hist ++ es) ∧
    t.dir = s.dir ∧ t.tick = s.tick := by
  obtain ⟨-, rfl⟩ | ⟨a, sub, q, later, -, -, rfl⟩ | ⟨a, v, later, -, -, rfl⟩ |
    ⟨first, others, later, a, left, more, -, -, -, -, rfl⟩ := workStep_next h
  exacts [⟨rfl, ⟨[], by simp⟩, rfl, rfl⟩, ⟨rfl, ⟨_, rfl⟩, rfl, rfl⟩, ⟨rfl, ⟨_, rfl⟩, rfl, rfl⟩,
    ⟨rfl, ⟨_, rfl⟩, rfl, rfl⟩]

theorem stopSampled_iff : s.stopSampled = true ↔ s.mode = .cont ∧ s.stopReq = true := by
  simp [State.stopSampled]

theorem pauseSampled_iff : s.pauseSampled = true ↔ s.mode = .cont ∧ s.pauseReq = true := by
  simp [State.pauseSampled]

/-- How a micro-operation changes `run`: at a sampled stop, and at the end of a one-shot pass (rules R183, R197). -/
theorem effect_run_uop (hu : i.isUop = true) : (effect i s).run = s.run ∨
    (i = .rowchk ∧ s.stopSampled = true ∧ (effect i s).run = .idle ∧ (effect i s).pc = Pos.origin) ∨
    (i = .dwell ∧ ¬ s.pc.plane + 1 < s.cfg.P ∧ ¬ s.pc.row + 1 < s.cfg.R ∧ s.mode = .oneshot ∧
      (effect i s).run = .idle ∧ (effect i s).pc = Pos.origin) := by
  cases i with
  | rowchk =>
    by_cases hstop : s.stopSampled = true
    · exact .inr (.inl ⟨rfl, hstop, by simp [effect, hstop], by simp [effect, hstop]⟩)
    · refine .inl ?_
      by_cases hpause : s.pauseSampled = true <;> simp [effect, hstop, hpause]
  | dwell =>
    by_cases hon : s.pc.plane + 1 < s.cfg.P ∨ s.pc.row + 1 < s.cfg.R ∨ s.mode = .cont
    · exact .inl (by rw [effect, afterPlane_eq]; exact if_pos hon)
    · simp only [not_or] at hon
      obtain ⟨hplane, hrow, hmode⟩ := hon
      refine .inr (.inr ⟨rfl, hplane, hrow, by cases hm : s.mode <;> simp_all, ?_⟩)
      simp [effect, afterPlane_eq, hplane, hrow, hmode]
  | colClr | stabA | colSet | stabB | colClk | stabC | blank | rowSet | rowClr | latSet | latClr | unblank =>
    exact .inl rfl
  | _ => cases hu

/-- How a command changes `run` (rules R140, R241, R245). -/
theorem exec_run_command (hu : i.isUop = false) (h : exec i s = .next t) : t.run = s.run ∨
    (s.run = .uninit ∧ (t.run = .idle ∨ t.run = .failed)) ∨
    (s.run = .idle ∧ t.run = .running ∧ s.linesConfigured = true) := by
  obtain ⟨hen, rfl⟩ := exec_next_iff.1 h
  cases i with
  | init => exact .inr (.inl ⟨hen, by cases henv : s.env <;> simp [effect, henv]⟩)
  | start p | refreshPass => exact .inr (.inr ⟨hen.1, rfl, hen.2⟩)
  | setpixel x y color => exact .inl (by simp only [effect]; split_ifs <;> rfl)
  | setupout m | setbits m | clrbits m | clearbuf | stop | pause | resume | delay n => exact .inl rfl
  | _ => cases hu

/-- While the engine runs, a command that goes on writes none of the registers of the scan (rules R78, R240). -/
theorem command_leaves_scan (hu : i.isUop = false) (hrun : s.run = .running) (h : exec i s = .next t) :
    t.pc = s.pc ∧ t.cell = s.cell ∧ t.out = s.out ∧ t.panel = s.panel ∧ t.run = s.run ∧ t.mode = s.mode ∧
    t.dir = s.dir ∧ t.paused = s.paused ∧ t.prioDenied = s.prioDenied ∧ t.ret = s.ret := by
  obtain ⟨hen, rfl⟩ := exec_next_iff.1 h
  cases i with
  | setpixel x y color => simp only [effect]; split_ifs <;> simp
  | clearbuf | stop | pause | resume | delay n => simp [effect]
  | init | setupout m | setbits m | clrbits m | start p | refreshPass => simp [enabled, hrun] at hen
  | _ => cases hu

end Sys2Proof.Machine

namespace Sys2Proof

open Machine

/-- Settles O34: an access is one of three, and only a store writes the buffer, at the address `nextStore` names. -/
theorem accessFrame : Obligations.AccessFrame := by
  intro s t hinv h
  refine ⟨workStep_frame h, fun a ha => ?_⟩
  obtain ⟨-, rfl⟩ | ⟨b, sub, q, later, -, -, rfl⟩ | ⟨b, v, later, hw, -, rfl⟩ |
    ⟨first, others, later, b, left, more, hw, htake, -, -, rfl⟩ := workStep_next h
  · rfl
  · rfl
  · have hne : a ≠ b := by rintro rfl; exact ha (by simp [State.nextStore, hw])
    rw [Memory.read_write hinv.mem, if_neg hne]
  · have hne : a ≠ b := by rintro rfl; exact ha (by simp [State.nextStore, hw, htake])
    rw [Memory.read_write hinv.mem, if_neg hne]

/-- Settles O53: the guard of each command is its row of the table, and a command that its guard stops is refused. -/
theorem commandsFollowTheRunStateTable : Obligations.CommandsFollowTheRunStateTable := by
  intro i s _ hu
  refine ⟨?_, fun f hf => ?_, fun hrun hdelay => ?_⟩
  · rw [← enabled_iff_commandAllowed hu]
    exact ⟨fun ⟨t, ht⟩ => (exec_next_iff.1 ht).1, fun hen => ⟨_, exec_eq_effect hen⟩⟩
  · by_cases hen : enabled i s
    · rw [exec_eq_effect hen] at hf; cases hf
    · obtain ⟨r, hr⟩ := exec_refused_of_not_enabled hu hen
      rw [hr] at hf; cases hf
  · exact exec_refused_of_not_enabled hu (not_enabled_of_failed hu hrun hdelay)

/-- Settles O54: of the four kinds of step, only an operation changes `run`, the engine's or the host's. -/
theorem runChangesOnlyAsTheTableSays : Obligations.RunChangesOnlyAsTheTableSays := by
  intro s t hinv h
  obtain rfl | ⟨-, -, h⟩ | ⟨i, hm, hrun, hd, h⟩ | ⟨i, p, rest, hm, -, -, hd, h⟩ := step_next h
  · exact .inl rfl
  · exact .inl (by rw [workStep_frame h]; rfl)
  · have hcode := decodeUop_ok hd
    obtain ⟨-, rfl⟩ := exec_next_iff.1 h
    obtain hsame | ⟨rfl, hstop, hidle, hpc⟩ | ⟨rfl, hplane, hrow, hmode, hidle, hpc⟩ :=
      effect_run_uop (s := s.advance) (isUop_of_decodeUop hd)
    · exact .inl hsame
    · refine .inr (.inr (.inr ⟨hrun, hidle, hm, hpc, .inl ⟨(Encoded.uop.inj hcode).symm, ?_⟩⟩))
      exact stopSampled_iff.1 hstop
    · have hp := hinv.plane
      have hr := hinv.row
      simp only [State.advance_pc, State.advance_cfg] at hplane hrow
      exact .inr (.inr (.inr ⟨hrun, hidle, hm, hpc, .inr ⟨(Encoded.uop.inj hcode).symm, hmode, by omega, by omega⟩⟩))
  · obtain hsame | ⟨hun, hto⟩ | ⟨hidle, hto, hlines⟩ := exec_run_command (decodeCmd_ok hd).1 h
    · exact .inl hsame
    · exact .inr (.inl ⟨hun, hto, hm⟩)
    · exact .inr (.inr (.inl ⟨hidle, hto, hm, hlines⟩))

/-- Settles O55: the host's step is idle, an access, or a command that goes on while the engine runs. -/
theorem hostLeavesTheScanAlone : Obligations.HostLeavesTheScanAlone := by
  intro s t hrun hm h
  obtain rfl | ⟨-, -, h⟩ | ⟨i, hengine, -⟩ | ⟨i, p, rest, -, -, -, hd, h⟩ := step_next h
  · simp
  · rw [workStep_frame h]; simp
  · rw [hm] at hengine; cases hengine
  · simpa using command_leaves_scan (s := s.receive p rest) (decodeCmd_ok hd).1 hrun h

/-- Settles O56: idle turns and accesses write neither `DIR` nor the configuration, and operations only add to `DIR`. -/
theorem stepsOnlyAdd : Obligations.StepsOnlyAdd := by
  intro s t h
  obtain rfl | ⟨-, -, h⟩ | ⟨i, -, -, -, h⟩ | ⟨i, p, rest, -, -, -, -, h⟩ := step_next h
  · exact ⟨rfl, ⟨[], by simp⟩, fun _ => id, rfl⟩
  · obtain ⟨hcfg, hhist, hdir, htick⟩ := workStep_only_adds h
    exact ⟨hcfg, hhist, fun k hk => by rwa [hdir], htick⟩
  · exact exec_only_adds h
  · exact exec_only_adds h

end Sys2Proof
end

section
/-! PROOFS. The micro-operations one by one: the row check, the delays, the accesses that do not exist, what a column
step and the row writes leave on the lines, and the panel they are seen on (rules R83, R84, R183 to R193). -/

namespace Sys2Proof.Machine

variable {c : Config} {s t : State} {i : Nat}

/-- The successors of `ROWCHK` in the order of rule R183. -/
theorem exec_rowchk_of_stop (h : s.stopSampled = true) : exec .rowchk s = .next s.takeStop := if_pos h

theorem exec_rowchk_of_pause (hstop : ¬ s.stopSampled = true) (hpause : s.pauseSampled = true) :
    exec .rowchk s = .next s.takePause := (if_neg hstop).trans (if_pos hpause)

theorem exec_rowchk_of_go (hstop : ¬ s.stopSampled = true) (hpause : ¬ s.pauseSampled = true) :
    exec .rowchk s = .next s.goRow := (if_neg hstop).trans (if_neg hpause)

/-- Of a clear, the access takes one of the cells left, whichever the free value picks (rule R167). -/
theorem takeCell_mem (first : FbAddr) (others : List FbAddr) (k : Nat) :
    (takeCell first others k).1 ∈ first :: others :=
  (takeCell_perm first others k).mem_iff.1 List.mem_cons_self

/-- An access of a clear, computed: the cell taken is set to 0, and the clear goes on with the cells left, if any. -/
theorem workStep_clear {first : FbAddr} {others : List FbAddr} {later : List HostWork}
    (hw : s.work = .clear first others :: later) : workStep s =
      withCell s (takeCell first others (Config.clearPick s.tick)).1 (.next { s with
        work := match (takeCell first others (Config.clearPick s.tick)).2 with
          | [] => later
          | b :: more => .clear b more :: later
        fb := s.fb.write (takeCell first others (Config.clearPick s.tick)).1 0
        hist := s.hist ++ [.fbWrite (takeCell first others (Config.clearPick s.tick)).1 0] }) := by
  simp only [workStep, hw]
  cases htake : takeCell first others (Config.clearPick s.tick) with
  | mk a left => cases left <;> simp only [State.fbStore, State.record]

theorem withCell_of_not_inRange {a : FbAddr} {r : Result} (h : ¬ a.inRange s.cfg = true) :
    withCell s a r = .fault (.noSuchCell a) := if_neg h

/-- The bits of a colour line in the serial mask are set (rule R106). -/
theorem testBit_serialMask_of_color (h : i ∈ c.colorLines) : (serialMask c).testBit i = true := by
  simp [testBit_serialMask, h]

theorem color_lt_wordW (hwf : c.wf = true) (h : i ∈ c.colorLines) : i < c.wordW :=
  (Config.wf_available hwf (List.mem_append_right _ h)).1

theorem row_lt_wordW (hwf : c.wf = true) (h : i ∈ c.rowLines) : i < c.wordW :=
  (Config.wf_available hwf (List.mem_append_left _ (List.mem_append_right _ h))).1

/-- `COL_CLR` lowers the colour lines that are 0 in the cell (rule R184). -/
theorem colClr_level (hwf : s.cfg.wf = true) (hi : i ∈ s.cfg.colorLines) :
    (effect .colClr s).level i = (s.level i && (s.fb.read s.pc.cellAddr).testBit i) := by
  have hw := color_lt_wordW hwf hi
  simp [effect, State.level, testBit_wordNot, testBit_serialMask_of_color hi, hw]

/-- `COL_SET` raises the colour lines that are 1 in the cell (rule R186). -/
theorem colSet_level (hi : i ∈ s.cfg.colorLines) :
    (effect .colSet s).level i = (s.level i || (s.fb.read s.pc.cellAddr).testBit i) := by
  simp [effect, State.level, testBit_serialMask_of_color hi]

/-- The row bits lie on the row lines (rule R107). -/
theorem rowbits_and_rowMask (r : Nat) : rowbits c r &&& rowMask c = rowbits c r := by
  apply Nat.eq_of_testBit_eq
  intro k
  rw [Nat.testBit_and, testBit_rowbits, testBit_rowMask]
  cases decide (k ∈ c.rowLines) <;> simp

/-- A line after `ROW_SET` and `ROW_CLR`: a row line has the bit of the row, every other its level (rules R192,
R193). -/
theorem rowSet_rowClr_level (hi : i < s.cfg.wordW) :
    (effect .rowClr (effect .rowSet s)).level i =
      if i ∈ s.cfg.rowLines then s.pc.row.testBit (i - s.cfg.rowLsb) else s.level i := by
  by_cases hrow : i ∈ s.cfg.rowLines
  · simp only [effect, State.level, State.goUpc_out, State.goUpc_cfg, State.goUpc_pc, State.portClr_out,
      State.portSet_out, State.portSet_cfg, State.portSet_pc, Nat.testBit_and, Nat.testBit_or, testBit_wordNot,
      testBit_rowMask, testBit_rowbits, hrow, hi]
    cases s.pc.row.testBit (i - s.cfg.rowLsb) <;> simp
  · simp [effect, State.level, testBit_wordNot, testBit_rowMask, hrow, hi]

/-- The four bits of the complement of a row are those of `15 - r`. -/
theorem testBit_fifteen_sub {r k : Nat} (hr : r < 16) (hk : k < 4) : (15 - r).testBit k = !r.testBit k := by
  have hall : ∀ r < 16, ∀ k < 4, (15 - r).testBit k = !r.testBit k := by decide
  exact hall r hr k hk

/-- The row bits that are 0 are those of the complement (rule R107). -/
theorem wordNot_rowbits_and_rowMask (hwf : c.wf = true) {r : Nat} (hr : r < 16) :
    wordNot c (rowbits c r) &&& rowMask c = rowbits c (15 - r) := by
  apply Nat.eq_of_testBit_eq
  intro k
  rw [Nat.testBit_and, testBit_wordNot, testBit_rowMask, testBit_rowbits, testBit_rowbits]
  by_cases hk : k ∈ c.rowLines
  · have hbounds := mem_rowLines.1 hk
    simp [hk, row_lt_wordW hwf hk, testBit_fifteen_sub hr (show k - c.rowLsb < 4 by omega)]
  · simp [hk]

theorem length_ledsOfSample (row k : Nat) (q : Sample) : (ledsOfSample row k q).length = 2 := rfl

/-- An unblanked panel shows two LEDs for each sample (rule R84). -/
theorem length_flatMap_leds (row : Nat) (l : List (Sample × Nat)) :
    (l.flatMap fun e => ledsOfSample row e.2 e.1).length = 2 * l.length := by
  simp [List.length_flatMap, length_ledsOfSample, Nat.mul_comm]

theorem shown_of_unblanked (h : s.level s.cfg.oeBit = false) :
    s.shown = s.panel.latched.zipIdx.flatMap fun e => ledsOfSample (rowField s.cfg s.out) e.2 e.1 := by
  simp [State.shown, h]

end Sys2Proof.Machine

namespace Sys2Proof

open Machine

/-- Settles O24: what is sampled decides the successor, and a pause already taken leaves the state. -/
theorem rowchkSamplesTheRequests : Obligations.RowchkSamplesTheRequests := by
  refine fun s => ⟨fun hmode hstop => ?_, fun hmode hstop hpause hpaused => ?_,
    fun hmode hstop hpause hpaused => ?_, fun hmask => ?_⟩
  · exact exec_rowchk_of_stop (stopSampled_iff.2 ⟨hmode, hstop⟩)
  · rw [exec_rowchk_of_pause (by simp [stopSampled_iff, hstop]) (pauseSampled_iff.2 ⟨hmode, hpause⟩),
      State.takePause_of_not_paused hpaused]
  · rw [exec_rowchk_of_pause (by simp [stopSampled_iff, hstop]) (pauseSampled_iff.2 ⟨hmode, hpause⟩),
      State.takePause_of_paused hpaused]
  · have hnone : ¬ s.stopSampled = true ∧ ¬ s.pauseSampled = true := by
      rw [stopSampled_iff, pauseSampled_iff]
      rcases hmask with hmode | ⟨hstop, hpause⟩
      · simp [hmode]
      · simp [hstop, hpause]
    exact exec_rowchk_of_go hnone.1 hnone.2

/-- Settles O26: each access asks first whether its cell, or its slot, exists. -/
theorem accessesOutsideTheSpacesStop : Obligations.AccessesOutsideTheSpacesStop := by
  refine ⟨fun s h => ?_, fun s h => exec_dwell_of_not_plane (by omega), fun s a sub q v later ha hw => ?_,
    fun s first others later hw hall => ?_⟩
  · have ha : ¬ s.pc.cellAddr.inRange s.cfg = true := mt FbAddr.inRange_iff.1 h
    exact ⟨withCell_of_not_inRange ha, withCell_of_not_inRange ha⟩
  · have hout := mt FbAddr.inRange_iff.1 ha
    rcases hw with hw | hw <;> simp only [workStep, hw, withCell_of_not_inRange hout]
  · have hmem := takeCell_mem first others (Config.clearPick s.tick)
    exact ⟨_, hmem, (workStep_clear hw).trans (withCell_of_not_inRange (mt FbAddr.inRange_iff.1 (hall _ hmem)))⟩

/-- Settles O27: each of the three records its delay and then sets `pc`. -/
theorem stabilizeDelaysAdvance : Obligations.StabilizeDelaysAdvance :=
  fun _ => ⟨exec_eq_effect (i := .stabA) trivial, exec_eq_effect (i := .stabB) trivial,
    exec_eq_effect (i := .stabC) trivial⟩

/-- Settles O30: the clear keeps a line that was high where the first value has it, and the set adds the second. -/
theorem columnStepLeavesTheLines : Obligations.ColumnStepLeavesTheLines := by
  intro s t u v i hwf ht hcfg hout hv hi
  obtain ⟨-, rfl⟩ := exec_next_iff.1 ht
  obtain ⟨-, rfl⟩ := exec_next_iff.1 hv
  have hlevel : (effect .colSet u).level i =
      ((effect .colSet u).cell.testBit i || ((effect .colClr s).cell.testBit i && s.level i)) := by
    rw [colSet_level (hcfg ▸ hi), State.level_eq, hout, ← State.level_eq, colClr_level hwf hi,
      Bool.or_comm, Bool.and_comm]
    rfl
  refine ⟨hlevel, fun hcell => ?_⟩
  rw [hlevel, hcell]
  cases (effect .colClr s).cell.testBit i <;> simp

/-- Settles O31: line by line, the two writes set the row lines to the bits of the row. -/
theorem rowWritesSetTheRowField : Obligations.RowWritesSetTheRowField := by
  refine ⟨fun s t u hwf hrow ht hu => ?_, fun c r hwf hr =>
    ⟨rowbits_and_rowMask r, wordNot_rowbits_and_rowMask hwf hr⟩⟩
  obtain ⟨-, rfl⟩ := exec_next_iff.1 ht
  obtain ⟨-, rfl⟩ := exec_next_iff.1 hu
  refine ⟨(rowField_eq_iff (hrow.trans_le (Config.wf_rows hwf).2)).2 fun k hk => ?_, fun i hi hnot => ?_⟩
  · have hmem : s.cfg.rowLsb + k ∈ s.cfg.rowLines := mem_rowLines.2 (by omega)
    rw [← State.level_eq, rowSet_rowClr_level (row_lt_wordW hwf hmem), if_pos hmem, Nat.add_sub_cancel_left]
  · rw [rowSet_rowClr_level hi, if_neg hnot]

/-- Settles O38: the output-enable line decides, and the `k`-th sample gives the two LEDs of its column. -/
theorem panelShowsTheAddressedRow : Obligations.PanelShowsTheAddressedRow := by
  refine fun s => ⟨fun hoe => if_pos hoe, fun hoe => ?_⟩
  rw [shown_of_unblanked hoe]
  refine ⟨by rw [length_flatMap_leds, List.length_zipIdx], fun led hled => ?_, fun k q hq => ?_⟩
  · obtain ⟨e, -, he⟩ := List.mem_flatMap.1 hled
    simp only [ledsOfSample, List.mem_cons, List.not_mem_nil, or_false] at he
    rcases he with rfl | rfl <;> rfl
  · have hmem : (q, k) ∈ s.panel.latched.zipIdx := List.mk_mem_zipIdx_iff_getElem?.2 hq
    exact ⟨List.mem_flatMap.2 ⟨_, hmem, by simp [ledsOfSample]⟩, List.mem_flatMap.2 ⟨_, hmem, by simp [ledsOfSample]⟩⟩

end Sys2Proof
end

section
/-! PROOFS. Runs of the machine, and what the host's accesses leave alone (rules R5, R66, R67). -/

namespace Sys2Proof.Machine

variable {s t u : State} {m n : Nat}

/-- A run that begins with a known step goes on from where the step leads. -/
theorem run_succ (h : step s = .next t) :
    Host.Core.run Sys2Proof.core (n + 1) s = Host.Core.run Sys2Proof.core n t := by
  simp only [Host.Core.run, Sys2Proof.core, h]

/-- Runs compose. -/
theorem run_add (h : Host.Core.run Sys2Proof.core m s = .next t) :
    Host.Core.run Sys2Proof.core (m + n) s = Host.Core.run Sys2Proof.core n t := by
  induction m generalizing s with
  | zero =>
    cases h
    rw [Nat.zero_add]
  | succ m ih =>
    rw [Nat.add_right_comm]
    cases hstep : step s with
    | next v => rw [run_succ hstep] at h ⊢; exact ih h
    | fault r => simp [Host.Core.run, Sys2Proof.core, hstep] at h
    | refused r => simp [Host.Core.run, Sys2Proof.core, hstep] at h

/-- What the host's accesses do not write: all but the operation in progress, the buffer, the history, and the
turns and the count. -/
def State.beside (s : State) : State := { s with work := [], fb := [], hist := [], turns := [], tick := 0 }

/-- A turn of a host that has an access to make, computed. -/
theorem step_access_next {l : List Agent} (hc : s.cfg.wf = true) (hl : s.turns = .host :: l) (hw : s.work ≠ [])
    (h : workStep s.advance = .next t) : step s = .next t :=
  (step_access hc (State.mover_cons s .host l hl) hw).trans h

end Sys2Proof.Machine
end

section
/-! PROOFS. The frame buffer and the host's operations on it: the fold, the cells, `SETPIXEL` and `CLEARBUF` run to
their ends (rules R60, R66, R71, R160 to R169). -/

namespace Sys2Proof.Machine

namespace Memory

/-- The first listed cell of a canonical buffer is the least that does not read as 0, so buffers that read alike list
the same cells. -/
theorem eq_of_read_eq {l l' : Memory} (h : l.wf = true) (h' : l'.wf = true) (hread : ∀ a, l.read a = l'.read a) :
    l = l' := by
  induction l generalizing l' with
  | nil =>
    cases l' with
    | nil => rfl
    | cons e l' =>
      obtain ⟨a, v⟩ := e
      have hv := hread a
      rw [read_nil, read_cons, if_pos rfl] at hv
      exact absurd hv.symm (wf_cons.1 h').1
  | cons e l ih =>
    obtain ⟨a, v⟩ := e
    obtain ⟨hv, habove, hwf⟩ := wf_cons.1 h
    cases l' with
    | nil =>
      have hz := hread a
      rw [read_nil, read_cons, if_pos rfl] at hz
      exact absurd hz hv
    | cons e' l' =>
      obtain ⟨b, w⟩ := e'
      obtain ⟨hw, habove', hwf'⟩ := wf_cons.1 h'
      have hab : a = b := by
        by_contra hne
        cases hbef : a.before b with
        | true =>
          have hz := hread a
          rw [read_cons, if_pos rfl, read_of_above (above_cons.2 ⟨hbef, above_trans hbef habove'⟩)] at hz
          exact hv hz
        | false =>
          have hbef' := FbAddr.before_total hne hbef
          have hz := hread b
          rw [read_cons (a := b) (b := b), if_pos rfl,
            read_of_above (above_cons.2 ⟨hbef', above_trans hbef' habove⟩)] at hz
          exact hw hz.symm
      subst hab
      have hvw : v = w := by simpa [read_cons] using hread a
      subst hvw
      rw [ih hwf hwf' fun d => ?_]
      by_cases hd : d = a
      · rw [hd, read_of_above habove, read_of_above habove']
      · simpa [read_cons, hd] using hread d

end Memory

variable {c : Config} {s t : State} {x y : Nat}

/-- The fold keeps a pixel of the area in the addressable range (rules R6, R162). -/
theorem fold_lt (hwf : c.wf = true) (hx : x < c.W) (hy : y < c.H) :
    (fold c x y).1 < c.C ∧ (fold c x y).2 < 2 * c.R := by
  obtain ⟨-, -, -, hW⟩ := Config.wf_columns hwf
  have hH := Config.wf_height hwf
  unfold fold
  split
  · exact ⟨by omega, by simp only; omega⟩
  · exact ⟨by omega, by simp only; omega⟩

theorem fold_of_folded (h : 2 * c.R ≤ y) : fold c x y = (c.C - 1 - x, c.H - 1 - y) := if_pos h

theorem fold_of_not_folded (h : ¬ 2 * c.R ≤ y) : fold c x y = (x, y) := if_neg h

/-- The cells of a pixel of the area exist (rules R60, R164). -/
theorem pixelCell_inRange (hwf : c.wf = true) (hx : x < c.W) (hy : y < c.H) {b : Nat} (hb : b < c.P) :
    (pixelCell c x y b).inRange c = true :=
  FbAddr.inRange_iff.2 ⟨hb, Nat.mod_lt _ (Config.wf_rows hwf).1, (fold_lt hwf hx hy).1⟩

/-- A word below `2 ^ n` is the sum of its bits. -/
theorem sum_testBit (v n : Nat) : (∑ b ∈ Finset.range n, (v.testBit b).toNat * 2 ^ b) = v % 2 ^ n := by
  induction n with
  | zero => simp [Nat.mod_one]
  | succ n ih => rw [Finset.sum_range_succ, ih, Nat.mod_pow_succ, Nat.toNat_testBit, Nat.mul_comm]

/-- The planes of a channel, put together, are the reduced channel (rule R169). -/
theorem sum_reduce (hP : c.P ≤ 8) (v : BitVec 8) :
    (∑ b ∈ Finset.range c.P, ((reduce c v).getLsbD b).toNat * 2 ^ b) = v.toNat / 2 ^ (8 - c.P) := by
  rw [← reduce_toNat, ← Nat.mod_eq_of_lt (reduce_lt v hP), ← sum_testBit]
  rfl

/-! ### `SETPIXEL` -/

/-- The updates of a list of planes, each at the plane's cell. -/
def updates (cell : Nat → FbAddr) (sub : SubRow) (q : Nat → PlaneBits) (planes : List Nat) : List HostWork :=
  planes.map fun b => .update (cell b) sub (q b)

/-- The updates that `SETPIXEL` issues are of this form (rule R166). -/
theorem pixelWork_eq_updates (color : Color) : pixelWork c x y color =
    updates (pixelCell c x y) (pixelSub c (fold c x y).2) (planeBits c color) (List.range c.P) := rfl

/-- The host's turn at the read half of a cell update. -/
theorem step_update {a : FbAddr} {sub : SubRow} {q : PlaneBits} {later : List HostWork} {l : List Agent}
    (hc : s.cfg.wf = true) (ha : a.inRange s.cfg = true) (hw : s.work = .update a sub q :: later)
    (hl : s.turns = .host :: l) : ∃ t, step s = .next t ∧
      t.work = .store a (mergePixel s.cfg sub q (s.fb.read a)) :: later ∧ t.fb = s.fb ∧ t.turns = l ∧
      t.beside = s.beside :=
  ⟨_, step_access_next hc hl (by simp [hw]) (workStep_update (s := s.advance) hw ha), rfl, rfl,
    congrArg List.tail hl, rfl⟩

/-- The host's turn at the write half. -/
theorem step_store {a : FbAddr} {v : Word} {later : List HostWork} {l : List Agent} (hc : s.cfg.wf = true)
    (ha : a.inRange s.cfg = true) (hw : s.work = .store a v :: later) (hl : s.turns = .host :: l) :
    ∃ t, step s = .next t ∧ t.work = later ∧ t.fb = s.fb.write a v ∧ t.turns = l ∧ t.beside = s.beside :=
  ⟨_, step_access_next hc hl (by simp [hw]) (workStep_store (s := s.advance) hw ha), rfl, rfl,
    congrArg List.tail hl, rfl⟩

theorem cfg_of_beside (h : t.beside = s.beside) : t.cfg = s.cfg :=
  (congrArg State.cfg h : t.beside.cfg = s.beside.cfg)

/-- The two halves of a cell update, one turn each (rule R165). -/
theorem run_update {a : FbAddr} {sub : SubRow} {q : PlaneBits} {later : List HostWork} {l : List Agent}
    (hc : s.cfg.wf = true) (ha : a.inRange s.cfg = true) (hw : s.work = .update a sub q :: later)
    (hl : s.turns = .host :: .host :: l) : ∃ t, Host.Core.run Sys2Proof.core 2 s = .next t ∧ t.work = later ∧
      t.fb = s.fb.write a (mergePixel s.cfg sub q (s.fb.read a)) ∧ t.turns = l ∧ t.beside = s.beside := by
  obtain ⟨t, hstep, hwork, hfb, hturns, hbeside⟩ := step_update hc ha hw hl
  have hcfg := cfg_of_beside hbeside
  obtain ⟨u, hstep', hwork', hfb', hturns', hbeside'⟩ := step_store (hcfg ▸ hc) (hcfg ▸ ha) hwork hturns
  exact ⟨u, (run_succ hstep).trans (run_succ hstep'), hwork', hfb ▸ hfb', hturns', hbeside'.trans hbeside⟩

/-- A list of updates at distinct planes, run to its end: each cell holds the plane's bits, every other cell what it
held (rules R165, R166). -/
theorem run_updates {cell : Nat → FbAddr} (hcell : ∀ b, (cell b).plane = b) (sub : SubRow) (q : Nat → PlaneBits)
    {planes : List Nat} {rest : List Agent} (hnodup : planes.Nodup) (hc : s.cfg.wf = true) (hm : s.fb.wf = true)
    (hrange : ∀ b ∈ planes, (cell b).inRange s.cfg = true) (hw : s.work = updates cell sub q planes)
    (hl : s.turns = List.replicate (2 * planes.length) .host ++ rest) :
    ∃ t, Host.Core.run Sys2Proof.core (2 * planes.length) s = .next t ∧ t.work = [] ∧ t.turns = rest ∧
      t.beside = s.beside ∧ ∀ a : FbAddr, t.fb.read a = if a.plane ∈ planes ∧ a = cell a.plane then
        mergePixel s.cfg sub (q a.plane) (s.fb.read a) else s.fb.read a := by
  induction planes generalizing s with
  | nil => exact ⟨s, rfl, hw, by simpa using hl, rfl, fun a => by simp⟩
  | cons b planes ih =>
    obtain ⟨hb, hnodup⟩ := List.nodup_cons.1 hnodup
    have hl' : s.turns = .host :: .host :: (List.replicate (2 * planes.length) .host ++ rest) := hl
    obtain ⟨t, hrun, hwork, hfb, hturns, hbeside⟩ := run_update hc (hrange b List.mem_cons_self) hw hl'
    have hcfg := cfg_of_beside hbeside
    obtain ⟨u, hrun', hwork', hturns', hbeside', hread⟩ := ih hnodup (hcfg ▸ hc)
      (hfb ▸ Memory.wf_write hm _ _) (fun d hd => hcfg ▸ hrange d (List.mem_cons_of_mem _ hd)) hwork hturns
    refine ⟨u, ?_, hwork', hturns', hbeside'.trans hbeside, fun a => ?_⟩
    · rw [List.length_cons, Nat.mul_succ, Nat.add_comm, run_add hrun, hrun']
    · rw [hread, hfb, hcfg, Memory.read_write hm]
      by_cases hab : a = cell b
      · have hplane : a.plane = b := by rw [hab, hcell]
        rw [if_neg fun h => hb (hplane ▸ h.1), if_pos hab,
          if_pos ⟨hplane ▸ List.mem_cons_self, hplane.symm ▸ hab⟩, hplane, hab]
      · have hiff : a.plane ∈ b :: planes ∧ a = cell a.plane ↔ a.plane ∈ planes ∧ a = cell a.plane := by
          refine and_congr_left fun ha => ⟨fun hmem => ?_, List.mem_cons_of_mem _⟩
          exact (List.mem_cons.1 hmem).resolve_left fun hplane => hab (hplane ▸ ha)
        simp only [hiff, if_neg hab]

/-! ### `CLEARBUF` -/

/-- No cell stands twice among the cells of the buffer. -/
theorem nodup_allCells (c : Config) : (allCells c).Nodup := by
  have hcol : ∀ b r, ((List.range c.C).map fun k => (⟨b, r, k⟩ : FbAddr)).Nodup := fun b r =>
    List.nodup_range.map fun k k' h => by simpa using h
  refine List.nodup_flatMap.2 ⟨fun b _ => List.nodup_flatMap.2 ⟨fun r _ => hcol b r, ?_⟩, ?_⟩
  · refine List.nodup_range.imp fun {r r'} hne => ?_
    simp only [Function.onFun, List.disjoint_left, List.mem_map]
    rintro _ ⟨k, -, rfl⟩ ⟨k', -, h⟩
    exact hne (FbAddr.mk.inj h).2.1.symm
  · refine List.nodup_range.imp fun {b b'} hne => ?_
    simp only [Function.onFun, List.disjoint_left, List.mem_flatMap, List.mem_map]
    rintro _ ⟨r, -, k, -, rfl⟩ ⟨r', -, k', -, h⟩
    exact hne (FbAddr.mk.inj h).1.symm

theorem length_allCells (c : Config) : (allCells c).length = c.P * c.R * c.C := by
  simp [allCells, List.length_flatMap, Nat.mul_assoc]

/-- An admitted configuration has a cell, so `CLEARBUF` issues a clear (rules R7, R167). -/
theorem clearWork_eq (hwf : c.wf = true) : ∃ first others, allCells c = first :: others ∧
    clearWork c = [.clear first others] := by
  have hmem : (⟨0, 0, 0⟩ : FbAddr) ∈ allCells c :=
    mem_allCells.2 (FbAddr.inRange_iff.2 ⟨(Config.wf_planes hwf).1, (Config.wf_rows hwf).1, Config.wf_C_pos hwf⟩)
  unfold clearWork
  cases hcells : allCells c with
  | nil => rw [hcells] at hmem; cases hmem
  | cons first others => exact ⟨first, others, rfl, rfl⟩

/-- An access of a clear whose cells exist takes one of them and sets it to 0 (rule R167). -/
theorem workStep_clear_of_inRange {first : FbAddr} {others : List FbAddr} {later : List HostWork}
    (hw : s.work = .clear first others :: later) (hrange : ∀ a ∈ first :: others, a.inRange s.cfg = true) :
    ∃ a left, (a :: left).Perm (first :: others) ∧ workStep s = .next { s with
      work := match left with
        | [] => later
        | b :: more => .clear b more :: later
      fb := s.fb.write a 0
      hist := s.hist ++ [.fbWrite a 0] } :=
  ⟨_, _, takeCell_perm first others (Config.clearPick s.tick),
    (workStep_clear hw).trans (withCell_of_inRange (hrange _ (takeCell_mem first others _)))⟩

/-- The host's turn at a clear that is its only operation in progress. -/
theorem step_clear {first : FbAddr} {others : List FbAddr} {l : List Agent} (hc : s.cfg.wf = true)
    (hrange : ∀ a ∈ first :: others, a.inRange s.cfg = true) (hw : s.work = [.clear first others])
    (hl : s.turns = .host :: l) : ∃ a left t, (a :: left).Perm (first :: others) ∧ step s = .next t ∧
      (left = [] ∧ t.work = [] ∨ ∃ b more, left = b :: more ∧ t.work = [.clear b more]) ∧
      t.fb = s.fb.write a 0 ∧ t.turns = l ∧ t.beside = s.beside ∧ t.hist = s.hist ++ [.fbWrite a 0] := by
  obtain ⟨a, left, hperm, hstep⟩ := workStep_clear_of_inRange (s := s.advance) hw hrange
  refine ⟨a, left, _, hperm, step_access_next hc hl (by simp [hw]) hstep, ?_, rfl, congrArg List.tail hl, rfl, rfl⟩
  cases left with
  | nil => exact .inl ⟨rfl, rfl⟩
  | cons b more => exact .inr ⟨b, more, rfl, rfl⟩

/-- A clear of `n + 1` cells, run to its end: each of them reads as 0, every other as before (rule R167). -/
theorem run_clear {n : Nat} {first : FbAddr} {others : List FbAddr} {rest : List Agent} (hn : others.length = n)
    (hc : s.cfg.wf = true) (hm : s.fb.wf = true) (hrange : ∀ a ∈ first :: others, a.inRange s.cfg = true)
    (hw : s.work = [.clear first others]) (hl : s.turns = List.replicate (n + 1) .host ++ rest) :
    ∃ t, Host.Core.run Sys2Proof.core (n + 1) s = .next t ∧ t.work = [] ∧ t.turns = rest ∧ t.beside = s.beside ∧
      t.hist.length = s.hist.length + (n + 1) ∧
      ∀ a : FbAddr, t.fb.read a = if a ∈ first :: others then 0 else s.fb.read a := by
  induction n generalizing s first others with
  | zero =>
    obtain ⟨a, left, t, hperm, hstep, hleft, hfb, hturns, hbeside, hhist⟩ := step_clear hc hrange hw hl
    obtain rfl := List.eq_nil_of_length_eq_zero hn
    obtain ⟨rfl, rfl⟩ := List.cons.inj (List.perm_singleton.1 hperm)
    have hwork : t.work = [] := by simpa using hleft
    refine ⟨t, run_succ hstep, hwork, by simpa using hturns, hbeside, by simp [hhist], fun d => ?_⟩
    rw [hfb, Memory.read_write hm]
    simp only [List.mem_singleton]
  | succ n ih =>
    obtain ⟨a, left, t, hperm, hstep, hleft, hfb, hturns, hbeside, hhist⟩ := step_clear hc hrange hw hl
    have hlength : left.length = n + 1 := by simpa [hn] using hperm.length_eq
    obtain ⟨rfl, -⟩ | ⟨b, more, rfl, hwork⟩ := hleft
    · cases hlength
    have hcfg := cfg_of_beside hbeside
    obtain ⟨u, hrun, hwork', hturns', hbeside', hhist', hread⟩ := ih (Nat.succ.inj hlength) (hcfg ▸ hc)
      (hfb ▸ Memory.wf_write hm _ _)
      (fun d hd => hcfg ▸ hrange d (hperm.mem_iff.1 (List.mem_cons_of_mem _ hd))) hwork hturns
    refine ⟨u, (run_succ hstep).trans hrun, hwork', hturns', hbeside'.trans hbeside, ?_, fun d => ?_⟩
    · rw [hhist', hhist, List.length_append, List.length_singleton]; omega
    · rw [hread, hfb, Memory.read_write hm]
      by_cases hd : d ∈ b :: more
      · rw [if_pos hd, if_pos (hperm.mem_iff.1 (List.mem_cons_of_mem _ hd))]
      · have hiff : d ∈ first :: others ↔ d = a := by
          rw [← hperm.mem_iff, List.mem_cons, or_iff_left hd]
        simp only [if_neg hd, hiff]

/-- Outside its canonical list the buffer reads as 0, and the list names cells that exist (rules R41, R60). -/
theorem read_eq_zero_of_not_inRange (hinv : s.Inv) {a : FbAddr} (ha : ¬ a.inRange s.cfg = true) : s.fb.read a = 0 :=
  (Memory.read_mem s.fb a).resolve_right fun hmem => ha (hinv.cells _ hmem).1

theorem inBounds_of_lt (hx : x < c.W) (hy : y < c.H) : inBounds c x y = true :=
  inBounds_iff.2 (by omega)

theorem effect_setpixel_of_inBounds {color : Color} (hx : x < s.cfg.W) (hy : y < s.cfg.H) :
    effect (.setpixel x y color) s = { s with work := s.work ++ pixelWork s.cfg x y color } :=
  if_pos (inBounds_of_lt hx hy)

end Sys2Proof.Machine

namespace Sys2Proof

open Machine

/-- Settles O20: `SETPIXEL` issues an update for each of the planes, which `run_updates` runs. -/
theorem setpixelRunsToItsCells : Obligations.SetpixelRunsToItsCells := by
  intro x y color s t rest hinv hwork hx hy hexec hturns
  obtain ⟨-, rfl⟩ := exec_next_iff.1 hexec
  rw [effect_setpixel_of_inBounds hx hy] at hturns ⊢
  obtain ⟨u, hrun, hwork', hturns', hbeside, hread⟩ := run_updates (cell := pixelCell s.cfg x y) (fun _ => rfl)
    (pixelSub s.cfg (fold s.cfg x y).2) (planeBits s.cfg color) List.nodup_range
    (s := { s with work := s.work ++ pixelWork s.cfg x y color }) hinv.cfg hinv.mem
    (fun b hb => pixelCell_inRange hinv.cfg hx hy (List.mem_range.1 hb)) (by simp [hwork, pixelWork_eq_updates])
    (by rw [List.length_range]; exact hturns)
  rw [List.length_range] at hrun
  simp only [State.beside, State.mk.injEq] at hbeside
  obtain ⟨hcfg, hpc, hcell, hrunst, hmode, hstop, hpause, hpaused, hprio, hout, hdir, -, -, hpanel, hret, -⟩ := hbeside
  refine ⟨u, hrun, hwork', hturns', hout, hdir, hpc, hcell, hrunst, hmode, hstop, hpause, hpaused, hprio, hpanel, hret,
    hcfg, fun a => ?_⟩
  rw [hread]
  have hiff : a.plane ∈ List.range s.cfg.P ∧ a = pixelCell s.cfg x y a.plane ↔
      a.plane < s.cfg.P ∧ a.row = (fold s.cfg x y).2 % s.cfg.R ∧ a.col = (fold s.cfg x y).1 := by
    simp [FbAddr.ext_iff', pixelCell, pixelRow]
  simp only [hiff]

/-- Settles O22: `CLEARBUF` issues one clear of all the cells, which `run_clear` runs; outside them the buffer read as
0 before. -/
theorem clearbufRunsToAnEmptyBuffer : Obligations.ClearbufRunsToAnEmptyBuffer := by
  intro s t rest hinv hwork hexec hturns
  obtain ⟨-, rfl⟩ := exec_next_iff.1 hexec
  obtain ⟨first, others, hcells, hclear⟩ := clearWork_eq hinv.cfg
  have hlength : others.length + 1 = s.cfg.P * s.cfg.R * s.cfg.C := by
    rw [← length_allCells, hcells, List.length_cons]
  rw [← hlength] at hturns ⊢
  obtain ⟨u, hrun, hwork', hturns', hbeside, hhist, hread⟩ := run_clear (s := effect .clearbuf s) rfl hinv.cfg
    hinv.mem (fun a ha => mem_allCells.1 (hcells ▸ ha)) (by simp [effect, hwork, hclear]) hturns
  simp only [State.beside, State.mk.injEq] at hbeside
  obtain ⟨hcfg, hpc, hcell, hrunst, hmode, hstop, hpause, hpaused, hprio, hout, hdir, -, -, hpanel, hret, -⟩ := hbeside
  refine ⟨u, hrun, hwork', hturns', hout, hdir, hpc, hcell, hrunst, hmode, hstop, hpause, hpaused, hprio, hpanel, hret,
    hcfg, fun a => ?_, hhist⟩
  rw [hread, ← hcells]
  split
  · rfl
  · next hnot => exact read_eq_zero_of_not_inRange hinv (mt mem_allCells.2 hnot)

/-- Settles O15: the updates of `pixelWork`, written out at the folded and at the unfolded pixel. -/
theorem setpixelIssuesAnUpdatePerPlane : Obligations.SetpixelIssuesAnUpdatePerPlane := by
  refine fun x y color s => ⟨fun hrun hx hy => ?_, fun hrun => if_pos hrun⟩
  rw [exec_eq_effect (i := .setpixel x y color) hrun, effect_setpixel_of_inBounds hx hy]
  by_cases hfold : 2 * s.cfg.R ≤ y
  · simp only [pixelWork, pixelCell, pixelRow, pixelSub, fold_of_folded hfold, if_pos hfold]
  · simp only [pixelWork, pixelCell, pixelRow, pixelSub, fold_of_not_folded hfold, if_neg hfold]

/-- Settles O16: below `2 R` the fold is the identity, from there on it reflects both coordinates. -/
theorem foldStaysInTheAddressableRange : Obligations.FoldStaysInTheAddressableRange := by
  refine ⟨fun c x y hwf hx hy => ?_, fun x hx => ?_⟩
  · obtain ⟨hcol, hrow⟩ := fold_lt hwf hx hy
    refine ⟨hcol, hrow, fun hlow => fold_of_not_folded (by omega), fun hhigh => ?_⟩
    obtain ⟨-, -, -, hW⟩ := Config.wf_columns hwf
    simp only [fold_of_folded hhigh]
    omega
  · exact fold_of_folded (by decide)

/-- Settles O19: each field's planes are the bits of the reduced channel that feeds it. -/
theorem planesReadBackTheReducedChannel : Obligations.PlanesReadBackTheReducedChannel := by
  intro c color hwf
  have hP : c.P ≤ 8 := (Config.wf_planes hwf).2.trans (by decide)
  exact ⟨sum_reduce hP _, sum_reduce hP _, sum_reduce hP _, fun hmap => by rw [hmap]; exact ⟨rfl, rfl, rfl⟩⟩

/-- Settles O21: the clear that is issued lists every cell once, and an access takes one of those left. -/
theorem clearbufIssuesEveryCellOnce : Obligations.ClearbufIssuesEveryCellOnce := by
  refine ⟨fun s => ⟨fun hrun hwf => ?_, fun hrun => if_pos hrun⟩, fun s first others later hw hrange =>
    workStep_clear_of_inRange hw fun a ha => FbAddr.inRange_iff.2 (hrange a ha)⟩
  obtain ⟨first, others, hcells, hclear⟩ := clearWork_eq hwf
  refine ⟨first, others, ?_, hcells ▸ nodup_allCells s.cfg, fun a => ?_⟩
  · rw [exec_eq_effect (i := .clearbuf) hrun, effect, hclear]
  · rw [← hcells, mem_allCells, FbAddr.inRange_iff]

/-- Settles O23: read after write, the canonical form, and the extensionality of canonical buffers. -/
theorem cellsReadBackWhatWasWritten : Obligations.CellsReadBackWhatWasWritten :=
  ⟨fun _ a b v h => ⟨Memory.wf_write h a v, Memory.read_write h a v b⟩, fun _ _ => Memory.eq_of_read_eq⟩

end Sys2Proof
end

section
/-! PROOFS. The invariant: one lemma per shared operation, then per micro-operation and command, then the step (rules
R21 to R25, R31, R37, R41, R64, R116, R144). -/

namespace Sys2Proof.Machine

/-- A position that the invariant admits: the fields `row` to `tail` of `State.Inv` (rules R21 to R25, R183). -/
structure Pos.Ok (c : Config) (p : Pos) : Prop where
  row : p.row < c.R
  plane : p.plane < c.P
  col : p.col < c.C
  upc : p.upc.toNat < 14
  boundary : p.upc = Upc.ROWCHK → p.plane = 0 ∧ p.col = 0
  tail : 7 ≤ p.upc.toNat → p.col + 1 = c.C

theorem State.Inv.pos {s : State} (h : s.Inv) : s.pc.Ok s.cfg :=
  ⟨h.row, h.plane, h.col, h.upc, h.boundary, h.tail⟩

variable {c : Config} {s t : State} {i : Instr}

theorem Pos.Ok.inRange {p : Pos} (h : p.Ok c) : p.cellAddr.inRange c = true :=
  FbAddr.inRange_iff.2 ⟨h.plane, h.row, h.col⟩

/-- Another micro-operation of the same column. -/
theorem Pos.Ok.goUpc {p : Pos} (h : p.Ok c) {u : BitVec 4} (hu : u.toNat < 14) (hne : u ≠ Upc.ROWCHK)
    (htail : 7 ≤ u.toNat → 7 ≤ p.upc.toNat) : Pos.Ok c ⟨p.row, p.plane, p.col, u⟩ :=
  ⟨h.row, h.plane, h.col, hu, fun h => absurd h hne, fun h' => h.tail (htail h')⟩

theorem origin_ok (hwf : c.wf = true) : Pos.origin.Ok c :=
  ⟨(Config.wf_rows hwf).1, (Config.wf_planes hwf).1, Config.wf_C_pos hwf, by decide, fun _ => ⟨rfl, rfl⟩,
    fun h => absurd h (by decide)⟩

/-- A row boundary below `R` (rule R183). -/
theorem rowchk_ok (hwf : c.wf = true) {r : Nat} (hr : r < c.R) : Pos.Ok c ⟨r, 0, 0, Upc.ROWCHK⟩ :=
  ⟨hr, (Config.wf_planes hwf).1, Config.wf_C_pos hwf, by simp, fun _ => ⟨rfl, rfl⟩, fun h => by simp at h⟩

/-- The first micro-operation of a column (rule R184). -/
theorem colClr_ok {r b k : Nat} (hr : r < c.R) (hb : b < c.P) (hk : k < c.C) : Pos.Ok c ⟨r, b, k, Upc.COL_CLR⟩ :=
  ⟨hr, hb, hk, by simp, fun h => by simp at h, fun h => by simp at h⟩

/-- The advance after a column: the next column, or the plane tail after the last (rule R189). -/
theorem Pos.Ok.afterColumn {p : Pos} (h : p.Ok c) : (afterColumn c p).Ok c := by
  unfold Machine.afterColumn
  split
  · next hk => exact colClr_ok h.row h.plane hk
  · next hk =>
    have hcol := h.col
    have hne : Upc.BLANK ≠ Upc.ROWCHK := by decide
    exact ⟨h.row, h.plane, hcol, by simp, fun h => absurd h hne, fun _ => by simp only; omega⟩

namespace State.Inv

theorem record (h : s.Inv) (e : Event) : (s.record e).Inv := { h with }

theorem recordCmd (h : s.Inv) (i : Instr) : (s.recordCmd i).Inv := { h with }

theorem delayFor (h : s.Inv) (n : Nat) : (s.delayFor n).Inv := { h with }

theorem advance (h : s.Inv) : s.advance.Inv := { h with }

theorem receive (h : s.Inv) (p : Packet) (rest : List Packet) : (s.receive p rest).Inv := { h with }

theorem portSet (h : s.Inv) {m : Word} (hm : wordFits s.cfg.wordW m = true) : (s.portSet m).Inv :=
  { h with outWord := wordFits_or h.outWord hm }

theorem portClr (h : s.Inv) (m : Word) : (s.portClr m).Inv :=
  { h with outWord := wordFits_and _ (wordFits_iff.2 (wordNot_fits m)) }

/-- A cell of the buffer is a word of colour bits (rule R41). -/
theorem read_colorOnly (h : s.Inv) (a : FbAddr) : s.fb.read a &&& colorMask s.cfg = s.fb.read a := by
  rcases Memory.read_mem s.fb a with hz | hmem
  · rw [hz, Nat.zero_and]
  · exact (h.cells _ hmem).2

theorem loadCell (h : s.Inv) (a : FbAddr) : (s.loadCell a).Inv :=
  { h with cellWord := wordFits_iff.2 (colorOnly_fits h.cfg (h.read_colorOnly a)) }

/-- A store of colour bits to a cell that exists (rules R41, R64). -/
theorem write (h : s.Inv) {a : FbAddr} {v : Word} (hav : cellOk s.cfg a v) {work : List HostWork}
    (hwork : ∀ w ∈ work, w.ok s.cfg) (hist : List Event) :
    ({ s with work := work, fb := s.fb.write a v, hist := hist } : State).Inv :=
  { h with
    mem := Memory.wf_write h.mem a v
    cells := fun e he => by
      rcases Memory.mem_write he with rfl | he
      · exact hav
      · exact h.cells e he
    work := hwork }

theorem setWork (h : s.Inv) {work : List HostWork} (hwork : ∀ w ∈ work, w.ok s.cfg) (hist : List Event) :
    ({ s with work := work, hist := hist } : State).Inv := { h with work := hwork }

/-- A running engine that is not paused goes to another position (rule R25). -/
theorem goPos (h : s.Inv) (hrun : s.run = .running) (hpaused : s.paused = false) {p : Pos} (hp : p.Ok s.cfg) :
    (s.goPos p).Inv :=
  { h with
    row := hp.row, plane := hp.plane, col := hp.col, upc := hp.upc, boundary := hp.boundary, tail := hp.tail
    rest := fun hne => absurd hrun hne
    paused := fun hyes => absurd (hyes.symm.trans hpaused) (by decide) }

/-- The next micro-operation of a column step (rules R184 to R189). -/
theorem goColumn (h : s.Inv) (hrun : s.run = .running) (hpaused : s.paused = false) {u : BitVec 4}
    (hu : 1 ≤ u.toNat ∧ u.toNat < 7) : (s.goUpc u).Inv :=
  h.goPos hrun hpaused (h.pos.goUpc (by omega) (by rintro rfl; simp at hu) (by omega))

/-- The next micro-operation of a plane tail (rules R191 to R197). -/
theorem goTail (h : s.Inv) (hrun : s.run = .running) (hpaused : s.paused = false) {u : BitVec 4}
    (hu : 1 ≤ u.toNat ∧ u.toNat < 14) (htail : 7 ≤ s.pc.upc.toNat) : (s.goUpc u).Inv :=
  h.goPos hrun hpaused (h.pos.goUpc hu.2 (by rintro rfl; simp at hu) fun _ => htail)

/-- An engine that ends a scan stands at the origin (rules R183, R197). -/
theorem endScan (h : s.Inv) (hist : List Event) (hpaused : Bool) (hfalse : hpaused = false) :
    ({ s with paused := hpaused, run := .idle, pc := Pos.origin, hist := hist } : State).Inv :=
  have ho := origin_ok h.cfg
  { h with
    row := ho.row, plane := ho.plane, col := ho.col, upc := ho.upc, boundary := ho.boundary, tail := ho.tail
    rest := fun _ => rfl
    lines := fun hrun => by cases hrun
    paused := fun hyes => absurd (hyes.symm.trans hfalse) (by decide) }

theorem enterScan (h : s.Inv) (hlines : s.linesConfigured = true) (mode : Mode) : (s.enterScan mode).Inv :=
  have ho := origin_ok h.cfg
  { h with
    row := ho.row, plane := ho.plane, col := ho.col, upc := ho.upc, boundary := ho.boundary, tail := ho.tail
    rest := fun _ => rfl
    lines := fun _ => hlines
    paused := fun hyes => by cases hyes }

/-- A running engine is paused only at a row boundary (rule R31). -/
theorem not_paused (h : s.Inv) (hu : s.pc.upc ≠ Upc.ROWCHK) : s.paused = false := by
  cases hp : s.paused with
  | false => rfl
  | true => exact absurd (h.paused hp).2.2 hu

end State.Inv

/-- What `upc` holds at a micro-operation is its code (rule R114). -/
theorem upc_of_decode {u : BitVec 4} (h : decodeUop u = .ok i) : Encoded.uop u = encode i := (decodeUop_ok h).symm

/-- The masks the engine writes are words (rules R8, R106). -/
theorem wordFits_engine (hwf : c.wf = true) {m : Word}
    (hm : ∀ i, m.testBit i = true → (engineMask c).testBit i = true) : wordFits c.wordW m = true :=
  wordFits_of_lines hwf fun i hi => testBit_engineMask_iff.1 (hm i hi)

/-- The advance after a plane keeps the invariant (rule R197). -/
theorem State.Inv.afterPlane (h : s.Inv) (hrun : s.run = .running) (hpaused : s.paused = false) :
    (afterPlane s).Inv := by
  unfold Machine.afterPlane
  split
  · next hb => exact h.goPos hrun hpaused (colClr_ok h.row hb (Config.wf_C_pos h.cfg))
  · split
    · next hr => exact h.goPos hrun hpaused (rowchk_ok h.cfg hr)
    · split
      · exact h.goPos hrun hpaused (origin_ok h.cfg)
      · exact h.endScan s.hist s.paused hpaused

/-- `ROWCHK` keeps the invariant (rules R31, R183). -/
theorem State.Inv.rowchk (h : s.Inv) (hrun : s.run = .running) (hupc : s.pc.upc = Upc.ROWCHK) :
    (effect .rowchk s).Inv := by
  simp only [effect]
  split_ifs with hstop hpause
  · exact h.endScan _ false rfl
  · unfold State.takePause
    split
    · exact h
    · exact { h with paused := fun _ => ⟨hrun, (pauseSampled_iff.1 hpause).1, hupc⟩ }
  · have hgo := colClr_ok h.row (Config.wf_planes h.cfg).1 (Config.wf_C_pos h.cfg)
    have hunpaused : ({ s with paused := false } : State).Inv := { h with paused := fun hyes => by cases hyes }
    exact (hunpaused.goPos hrun rfl hgo).record _

theorem upc_ne_rowchk {u : BitVec 4} (h : decodeUop u = .ok i) (hi : i ≠ .rowchk) : u ≠ Upc.ROWCHK := by
  rintro rfl
  exact hi (Except.ok.inj h).symm

/-- A micro-operation keeps the invariant of a running engine whose `upc` names it. -/
theorem State.Inv.uop (h : s.Inv) (hrun : s.run = .running) (hd : decodeUop s.pc.upc = .ok i) :
    (effect i s).Inv := by
  have hcode := upc_of_decode hd
  by_cases hi : i = .rowchk
  · subst hi
    exact h.rowchk hrun (Encoded.uop.inj hcode)
  have hp : s.paused = false := h.not_paused (upc_ne_rowchk hd hi)
  have htail {u : BitVec 4} (hu : Encoded.uop s.pc.upc = .uop u) (h7 : 7 ≤ u.toNat) : 7 ≤ s.pc.upc.toNat := by
    rwa [Encoded.uop.inj hu]
  cases i with
  | init | setupout m | setbits m | clrbits m | setpixel x y color | clearbuf | start p | stop | pause | resume
  | refreshPass | delay n => cases hcode
  | rowchk => exact absurd rfl hi
  | colClr => exact ((h.loadCell _).portClr _).goColumn hrun hp (by decide)
  | stabA => exact (h.delayFor _).goColumn hrun hp (by decide)
  | colSet =>
    exact ((h.loadCell _).portSet (wordFits_engine h.cfg
      (and_testBit_of_le (v := s.fb.read _) serialMask_le_engineMask))).goColumn hrun hp (by decide)
  | stabB => exact (h.delayFor _).goColumn hrun hp (by decide)
  | colClk => exact (h.portSet (wordFits_engine h.cfg clkMask_le_engineMask)).goColumn hrun hp (by decide)
  | stabC => exact (h.delayFor _).goPos hrun hp h.pos.afterColumn
  | blank =>
    exact (h.portSet (wordFits_engine h.cfg oeMask_le_engineMask)).goTail hrun hp (by decide)
      (htail hcode (by decide))
  | rowSet =>
    exact (h.portSet (wordFits_engine h.cfg
      (and_testBit_of_le (v := rowbits _ _) rowMask_le_engineMask))).goTail hrun hp (by decide)
      (htail hcode (by decide))
  | rowClr =>
    exact (h.portClr _).goTail hrun hp (by decide) (htail hcode (by decide))
  | latSet =>
    exact (h.portSet (wordFits_engine h.cfg latMask_le_engineMask)).goTail hrun hp (by decide)
      (htail hcode (by decide))
  | latClr =>
    exact (h.portClr _).goTail hrun hp (by decide) (htail hcode (by decide))
  | unblank =>
    exact (h.portClr _).goTail hrun hp (by decide) (htail hcode (by decide))
  | dwell => exact (h.delayFor _).afterPlane hrun hp

/-- The host's operations in progress stay inside the buffer (rules R160, R167). -/
theorem pixelWork_ok (hwf : c.wf = true) {x y : Int} (hin : inBounds c x y = true) (color : Color) :
    ∀ w ∈ pixelWork c x.toNat y.toNat color, w.ok c := by
  obtain ⟨hx0, hx, hy0, hy⟩ := inBounds_iff.1 hin
  simp only [pixelWork, List.mem_map, List.mem_range]
  rintro _ ⟨b, hb, rfl⟩
  exact pixelCell_inRange hwf (by omega) (by omega) hb

theorem clearWork_ok (hwf : c.wf = true) : ∀ w ∈ clearWork c, w.ok c := by
  obtain ⟨first, others, hcells, hclear⟩ := clearWork_eq hwf
  rw [hclear]
  intro w hw
  obtain rfl := List.mem_singleton.1 hw
  exact fun a ha => mem_allCells.1 (hcells ▸ ha)

/-- A command keeps the invariant, its masks being words. -/
theorem State.Inv.command (h : s.Inv) (hu : i.isUop = false) (hfits : i.fits s.cfg.wordW = true)
    (hen : enabled i s) : (effect i s).Inv := by
  cases i with
  | init =>
    have hnot : s.run ≠ .running := by rw [show s.run = .uninit from hen]; decide
    have hres : (effect .init s).run ≠ .running := by cases henv : s.env <;> simp [effect, henv]
    exact { h with
      rest := fun _ => h.rest hnot
      lines := fun hrun => absurd hrun hres
      paused := fun hp => absurd (h.paused hp).1 hnot }
  | setupout m =>
    have hnot : s.run ≠ .running := by rw [show s.run = .idle from hen]; decide
    refine { h with dir := ?_, lines := fun hrun => absurd hrun hnot }
    have hand : (s.dir ||| m &&& s.cfg.availableMask) &&& s.cfg.availableMask =
        s.dir ||| m &&& s.cfg.availableMask := by
      rw [Nat.and_or_distrib_right, h.dir, Nat.and_assoc, Nat.and_self]
    exact hand
  | setbits m => exact h.portSet hfits
  | clrbits m => exact h.portClr m
  | setpixel x y color =>
    simp only [effect]
    split
    · next hin => exact h.setWork (fun w hw => (List.mem_append.1 hw).elim (h.work w)
        (pixelWork_ok h.cfg hin color w)) s.hist
    · exact h
  | clearbuf => exact h.setWork (fun w hw => (List.mem_append.1 hw).elim (h.work w) (clearWork_ok h.cfg w)) s.hist
  | start p =>
    have h' : ({ s with stopReq := false, pauseReq := false, prioDenied := !s.env } : State).Inv := { h with }
    exact (h'.enterScan hen.2 .cont).recordCmd _
  | refreshPass => exact (h.enterScan hen.2 .oneshot).recordCmd _
  | stop | pause | resume => exact { h with }
  | delay n => exact h.delayFor n
  | _ => cases hu

/-- An access of the host's operation in progress keeps the invariant (rules R41, R64, R165). -/
theorem State.Inv.access (h : s.Inv) (hstep : workStep s = .next t) : t.Inv := by
  obtain ⟨-, rfl⟩ | ⟨a, sub, q, later, hw, ha, rfl⟩ | ⟨a, v, later, hw, -, rfl⟩ |
    ⟨first, others, later, a, left, more, hw, htake, ha, hmore, rfl⟩ := workStep_next hstep
  · exact h
  · have hwork := h.work
    rw [hw, List.forall_mem_cons] at hwork
    have hstore : (HostWork.store a (mergePixel s.cfg sub q (s.fb.read a))).ok s.cfg :=
      ⟨ha, mergePixel_colorOnly sub q (h.read_colorOnly a)⟩
    exact h.setWork (List.forall_mem_cons.2 ⟨hstore, hwork.2⟩) _
  · have hwork := h.work
    rw [hw, List.forall_mem_cons] at hwork
    exact h.write hwork.1 hwork.2 _
  · have hwork := h.work
    rw [hw, List.forall_mem_cons] at hwork
    refine h.write ⟨ha, Nat.zero_and _⟩ (fun w hmem => ?_) _
    rcases List.mem_append.1 hmem with hmem | hmem
    · obtain ⟨-, rfl⟩ | ⟨b, l, rfl, rfl⟩ := hmore
      · cases hmem
      · obtain rfl := List.mem_singleton.1 hmem
        have hperm := takeCell_perm first others (Config.clearPick s.tick)
        rw [htake] at hperm
        exact fun d hd => hwork.1 d (hperm.mem_iff.1 (List.mem_cons_of_mem _ hd))
    · exact hwork.2 w hmem

/-- An access inside the buffer goes on (rule R64). -/
theorem workStep_of_ok (h : ∀ w ∈ s.work, w.ok s.cfg) : ∃ t, workStep s = .next t := by
  cases hw : s.work with
  | nil => exact ⟨s, by simp only [workStep, hw]⟩
  | cons w later =>
    have hok := h w (hw ▸ List.mem_cons_self)
    cases w with
    | update a sub q => exact ⟨_, workStep_update hw hok⟩
    | store a v => exact ⟨_, workStep_store hw hok.1⟩
    | clear first others =>
      obtain ⟨a, left, -, hstep⟩ := workStep_clear_of_inRange hw hok
      exact ⟨_, hstep⟩

/-- At an admitted position every micro-operation finds the cell and the slot it reads (rules R64, R121). -/
theorem enabled_of_posOk (h : s.pc.Ok s.cfg) (hu : i.isUop = true) : enabled i s := by
  cases i with
  | colClr | colSet => exact h.inRange
  | dwell => exact h.plane
  | rowchk | stabA | stabB | colClk | stabC | blank | rowSet | rowClr | latSet | latClr | unblank => trivial
  | _ => cases hu

/-- The engine's step in the invariant, whether it runs or not (rule R182, log entry 18). -/
theorem State.Inv.step_engine_next (h : s.Inv) (hm : s.mover = .engine) : ∃ t, step s = .next t := by
  by_cases hrun : s.run = .running
  · obtain ⟨i, hd⟩ := decodeUop_of_lt h.upc
    exact ⟨_, (step_engine h.cfg hm hrun hd).trans
      (exec_eq_effect (enabled_of_posOk h.advance.pos (isUop_of_decodeUop hd)))⟩
  · exact ⟨_, step_engine_idle h.cfg hm hrun⟩

/-- The host's step in the invariant goes on or is refused: it never faults (rule R13). -/
theorem State.Inv.step_host (h : s.Inv) (hm : s.mover = .host) :
    (∃ t, step s = .next t) ∨ ∃ r, step s = .refused r := by
  by_cases hw : s.work = []
  · cases hi : s.inbox with
    | nil => exact .inl ⟨_, step_host_idle h.cfg hm hw hi⟩
    | cons p rest =>
      cases hd : decodeCmd s.cfg.wordW p.code p.ops with
      | error why => exact .inr ⟨_, step_command_reject h.cfg hm hw hi hd⟩
      | ok i =>
        rw [step_command h.cfg hm hw hi hd]
        by_cases hen : enabled i (s.receive p rest)
        · exact .inl ⟨_, exec_eq_effect hen⟩
        · exact .inr (exec_refused_of_not_enabled (decodeCmd_ok hd).1 hen)
  · rw [step_access h.cfg hm hw]
    exact .inl (workStep_of_ok h.advance.work)

/-- The state right after reset is in the invariant: nothing is configured, running or stored (rules R41, R45). -/
theorem resetWith_inv (hwf : c.wf = true) : (State.resetWith c).Inv :=
  have ho := origin_ok hwf
  { cfg := hwf
    mem := rfl
    cells := fun e he => by cases he
    outWord := wordFits_iff.2 (Nat.mod_lt _ (Nat.two_pow_pos _))
    cellWord := wordFits_iff.2 (Nat.mod_lt _ (Nat.two_pow_pos _))
    row := ho.row, plane := ho.plane, col := ho.col, upc := ho.upc, boundary := ho.boundary, tail := ho.tail
    rest := fun _ => rfl
    dir := Nat.zero_and _
    lines := fun h => by cases h
    paused := fun h => by cases h
    work := fun w hw => by cases hw }

/-- While the engine does not run, the invariant of the lines says nothing. -/
theorem lineInv_of_not_running (h : s.run ≠ .running) : s.LineInv :=
  ⟨fun hr => absurd hr h, fun hr => absurd hr h, fun hr => absurd hr h, fun hr => absurd hr h,
    fun hr => absurd hr h, fun hr => absurd hr h, fun hr => absurd hr h⟩

end Sys2Proof.Machine

namespace Sys2Proof

open Machine

/-- Settles O59: each of the four kinds of step keeps the invariant. -/
theorem stepKeepsTheInvariant : Obligations.StepKeepsTheInvariant := by
  intro s t hinv h
  obtain rfl | ⟨-, -, h⟩ | ⟨i, -, hrun, hd, h⟩ | ⟨i, p, rest, -, -, -, hd, h⟩ := step_next h
  · exact hinv.advance
  · exact hinv.advance.access h
  · obtain ⟨-, rfl⟩ := exec_next_iff.1 h
    exact hinv.advance.uop hrun hd
  · obtain ⟨hu, hfits⟩ := decodeCmd_ok hd
    obtain ⟨hen, rfl⟩ := exec_next_iff.1 h
    exact (hinv.receive p rest).command hu hfits hen

/-- Settles O60: in the invariant every access has its cell and every dwell its slot. -/
theorem invariantStatesNeverFault : Obligations.InvariantStatesNeverFault := by
  refine fun s hinv => ⟨fun f hf => ?_, hinv.step_engine_next⟩
  have hstep : (∃ t, step s = .next t) ∨ ∃ r, step s = .refused r := by
    cases hm : s.mover with
    | engine => exact .inl (hinv.step_engine_next hm)
    | host => exact hinv.step_host hm
  rcases hstep with ⟨t, ht⟩ | ⟨r, hr⟩
  · rw [ht] at hf; cases hf
  · rw [hr] at hf; cases hf

/-- Settles O57: the reset state is the one for `EX64`, and its fields are read off `State.resetWith`. -/
theorem resetValues : Obligations.ResetValues := by
  refine ⟨⟨Config.ex64, by decide, rfl⟩, fun c => ⟨fun _ => rfl, rfl, rfl, rfl, rfl, rfl, rfl, rfl, rfl, rfl, rfl,
    rfl, fun k hk => ?_⟩⟩
  rw [dwellTable_getElem? c hk, dwellSlot_eq_mul]

/-- Settles O58: both invariants hold of a machine that is not set up and not running. -/
theorem resetMeetsTheInvariants : Obligations.ResetMeetsTheInvariants :=
  ⟨resetWith_inv (by decide), fun _ hwf => ⟨resetWith_inv hwf, lineInv_of_not_running nofun⟩⟩

end Sys2Proof
end

section
/-! PROOFS. The engine's lines: which micro-operation writes which, what the panel sees of it, and why the invariant of
the lines is not kept from `ROW_CLR` on (rules R81, R82, R188 to R196, R200). -/

namespace Sys2Proof.Machine

variable {c : Config} {s t : State} {i : Instr} {j : Nat} {m : Word}

/-- The lines a micro-operation writes (rules R184 to R196). -/
def ownLines (c : Config) : Instr → List Nat
  | .colClr | .colSet => c.clkBit :: c.colorLines
  | .colClk => [c.clkBit]
  | .blank | .unblank => [c.oeBit]
  | .rowSet | .rowClr => c.rowLines
  | .latSet | .latClr => [c.latBit]
  | _ => []

theorem level_goUpc (u : BitVec 4) : (s.goUpc u).level j = s.level j := rfl

theorem level_portSet_of_off (h : m.testBit j = false) : (s.portSet m).level j = s.level j := by
  rw [level_portSet, h, Bool.or_false]

theorem level_portClr_of_off (hj : j < s.cfg.wordW) (h : m.testBit j = false) :
    (s.portClr m).level j = s.level j := by
  rw [level_portClr hj, h, Bool.not_false, Bool.and_true]

/-- Every other line keeps its level. -/
theorem effect_level (hu : i.isUop = true) (hj : j < s.cfg.wordW) (hnot : j ∉ ownLines s.cfg i) :
    (effect i s).level j = s.level j := by
  cases i with
  | rowchk => simp only [effect]; split_ifs <;> simp [State.level]
  | stabA | stabB | stabC => rfl
  | dwell => simp [effect, afterPlane_eq, State.level]
  | colClr =>
    refine level_portClr_of_off hj ?_
    simp_all [ownLines, testBit_serialMask]
  | colSet =>
    refine level_portSet_of_off ?_
    simp_all [ownLines, testBit_serialMask]
  | colClk => exact level_portSet_of_off (by simpa [ownLines, testBit_clkMask] using hnot)
  | blank => exact level_portSet_of_off (by simpa [ownLines, testBit_oeMask] using hnot)
  | unblank => exact level_portClr_of_off hj (by simpa [ownLines, testBit_oeMask] using hnot)
  | rowSet =>
    refine level_portSet_of_off ?_
    simp_all [ownLines, testBit_rowMask]
  | rowClr =>
    refine level_portClr_of_off hj ?_
    simp_all [ownLines, testBit_rowMask]
  | latSet => exact level_portSet_of_off (by simpa [ownLines, testBit_latMask] using hnot)
  | latClr => exact level_portClr_of_off hj (by simpa [ownLines, testBit_latMask] using hnot)
  | _ => cases hu

/-- A colour line is no line of another role (rule R8). -/
theorem color_distinct (hwf : c.wf = true) (hj : j ∈ c.colorLines) :
    j ≠ c.oeBit ∧ j ≠ c.clkBit ∧ j ≠ c.latBit ∧ j ∉ c.rowLines := by
  obtain ⟨-, -, -, -, -, -, hoe, hclk, hlat⟩ := Config.wf_control_distinct hwf
  exact ⟨fun h => hoe (h ▸ hj), fun h => hclk (h ▸ hj), fun h => hlat (h ▸ hj), Config.wf_color_row hwf hj⟩

/-- A row line is no line of another role (rule R8). -/
theorem row_distinct (hwf : c.wf = true) (hj : j ∈ c.rowLines) :
    j ≠ c.oeBit ∧ j ≠ c.clkBit ∧ j ≠ c.latBit ∧ j ∉ c.colorLines := by
  obtain ⟨-, -, -, hoe, hclk, hlat, -⟩ := Config.wf_control_distinct hwf
  exact ⟨fun h => hoe (h ▸ hj), fun h => hclk (h ▸ hj), fun h => hlat (h ▸ hj),
    fun h => Config.wf_color_row hwf h hj⟩

/-! ### The panel -/

/-- The observer sees no edge where no line changes (rule R80). -/
theorem observe_self (p : Panel) (w : Word) : p.observe c w w = p := by
  simp [Panel.observe, rises, falls]

/-- Every operation hands the panel the change it makes to `OUT`. -/
theorem exec_panel (h : exec i s = .next t) : t.panel = s.panel.observe s.cfg s.out t.out := by
  obtain ⟨-, rfl⟩ := exec_next_iff.1 h
  cases i with
  | rowchk | setpixel x y color => simp only [effect]; split_ifs <;> simp [observe_self]
  | dwell => simp [effect, afterPlane_eq, observe_self]
  | colClr | colSet | colClk | blank | rowSet | rowClr | latSet | latClr | unblank | setbits m | clrbits m => rfl
  | stabA | stabB | stabC | init | setupout m | clearbuf | start p | stop | pause | resume | refreshPass | delay n =>
    simp [effect, observe_self]

/-- Raising lines ends no latch pulse (rule R82). -/
theorem portSet_latched : (s.portSet m).panel.latched = s.panel.latched := by
  cases hlat : s.out.testBit s.cfg.latBit <;> simp [Panel.observe, falls, hlat]

/-- Lowering lines clocks nothing in (rule R81). -/
theorem portClr_shift : (s.portClr m).panel.shift = s.panel.shift := by
  cases hclk : s.out.testBit s.cfg.clkBit <;> simp [Panel.observe, rises, hclk]

theorem portSet_shift_of_off (h : m.testBit s.cfg.clkBit = false) : (s.portSet m).panel.shift = s.panel.shift := by
  simp [Panel.observe, rises, h]

theorem portClr_latched_of_off (hlat : s.cfg.latBit < s.cfg.wordW) (h : m.testBit s.cfg.latBit = false) :
    (s.portClr m).panel.latched = s.panel.latched := by
  simp [Panel.observe, falls, testBit_wordNot, hlat, h]

/-- The clock is no colour line, so raising it leaves the sample (rules R8, R80). -/
theorem sampleOf_or_clkMask (hwf : c.wf = true) (w : Word) : sampleOf c (w ||| clkMask c) = sampleOf c w := by
  obtain ⟨-, -, -, -, -, -, -, hclk, -⟩ := Config.wf_control_distinct hwf
  simp only [Config.colorLines, List.mem_cons, List.not_mem_nil, or_false, not_or] at hclk
  obtain ⟨h1, h2, h3, h4, h5, h6⟩ := hclk
  simp [sampleOf, testBit_clkMask, Ne.symm h1, Ne.symm h2, Ne.symm h3, Ne.symm h4, Ne.symm h5, Ne.symm h6]

/-- Raising a low clock shifts one sample in (rules R81, R188). -/
theorem portSet_clkMask_shift (hwf : s.cfg.wf = true) (hclk : s.level s.cfg.clkBit = false) :
    (s.portSet (clkMask s.cfg)).panel.shift = lastSamples s.cfg.C (s.panel.shift ++ [sampleOf s.cfg s.out]) := by
  rw [State.level_eq] at hclk
  simp [Panel.observe, rises, hclk, testBit_clkMask, sampleOf_or_clkMask hwf]

/-- Lowering a high latch copies the last samples (rules R82, R195). -/
theorem portClr_latMask_latched (hwf : s.cfg.wf = true) (hlat : s.level s.cfg.latBit = true) :
    (s.portClr (latMask s.cfg)).panel.latched = lastSamples s.cfg.C s.panel.shift := by
  obtain ⟨-, -, hlt, -⟩ := Config.wf_lines_lt hwf
  rw [State.level_eq] at hlat
  simp [Panel.observe, falls, hlat, testBit_wordNot, testBit_latMask, hlt]

/-! ### The invariant of the lines, by the micro-operation that comes next -/

/-- Up to `COL_CLK` it speaks of the clock alone. -/
theorem lineInv_of_column (hupc : s.pc.upc.toNat ≤ 5) (hclk : 2 ≤ s.pc.upc.toNat → s.level s.cfg.clkBit = false) :
    s.LineInv where
  blanked _ _ _ := by omega
  lit _ h := by simp [h] at hupc
  clockLow _ h _ := hclk h
  clockHigh _ _ _ := by omega
  latchHigh _ h := by simp [h] at hupc
  latchLow _ _ _ := by omega
  rowAddress _ _ _ := by omega

/-- From `STAB_C` to `ROW_CLR` it speaks of the clock and, once blanked, of the output enable. -/
theorem lineInv_of_clocked (hupc : 6 ≤ s.pc.upc.toNat ∧ s.pc.upc.toNat ≤ 9) (hclk : s.level s.cfg.clkBit = true)
    (hoe : 8 ≤ s.pc.upc.toNat → s.level s.cfg.oeBit = true) : s.LineInv where
  blanked _ h _ := hoe h
  lit _ h := by simp [h] at hupc
  clockLow _ _ _ := by omega
  clockHigh _ _ _ := hclk
  latchHigh _ h := by simp [h] at hupc
  latchLow _ _ _ := by omega
  rowAddress _ _ _ := by omega

/-- From `LAT_SET` to `UNBLANK` it speaks of the row address and the latch besides. -/
theorem lineInv_of_addressed (hupc : 10 ≤ s.pc.upc.toNat ∧ s.pc.upc.toNat ≤ 12)
    (hclk : s.level s.cfg.clkBit = true) (hoe : s.level s.cfg.oeBit = true)
    (hhigh : s.pc.upc.toNat = 11 → s.level s.cfg.latBit = true)
    (hlow : 12 ≤ s.pc.upc.toNat → s.level s.cfg.latBit = false) (hrow : rowField s.cfg s.out = s.pc.row) :
    s.LineInv where
  blanked _ _ _ := hoe
  lit _ h := by simp [h] at hupc
  clockLow _ _ _ := by omega
  clockHigh _ _ _ := hclk
  latchHigh _ h := hhigh (by rw [h]; rfl)
  latchLow _ h _ := hlow h
  rowAddress _ _ _ := hrow

/-- At `DWELL` the panel is lit. -/
theorem lineInv_of_lit (hupc : s.pc.upc = Upc.DWELL) (hclk : s.level s.cfg.clkBit = true)
    (hoe : s.level s.cfg.oeBit = false) (hlat : s.level s.cfg.latBit = false)
    (hrow : rowField s.cfg s.out = s.pc.row) : s.LineInv where
  blanked _ _ h := by simp [hupc] at h
  lit _ _ := hoe
  clockLow _ _ h := by simp [hupc] at h
  clockHigh _ _ _ := hclk
  latchHigh _ h := absurd (hupc.symm.trans h) (by decide)
  latchLow _ _ _ := hlat
  rowAddress _ _ _ := hrow

/-- What the invariant of the lines leaves out: before `ROW_CLR` the row lines that are 1 in the row are high, as
`ROW_SET` left them (rule R192). With it the invariant is kept, without it not. -/
def State.RowRaised (s : State) : Prop :=
  s.pc.upc = Upc.ROW_CLR → ∀ j ∈ s.cfg.rowLines, s.pc.row.testBit (j - s.cfg.rowLsb) = true → s.level j = true

/-- A running engine about to clear the row lines of row 1 without having raised them. -/
def rowNotRaised : State := { State.resetWith Config.t2 with
  pc := ⟨1, 0, 1, Upc.ROW_CLR⟩, run := .running, out := 0x0C, dir := engineMask Config.t2, turns := [.engine] }

theorem rowNotRaised_inv : rowNotRaised.Inv :=
  { resetWith_inv (c := Config.t2) (by decide) with
    outWord := by decide
    row := by decide
    plane := by decide
    col := by decide
    upc := by decide
    boundary := by decide
    tail := by decide
    rest := fun h => absurd rfl h
    dir := by decide
    lines := fun _ => by decide
    paused := by decide }

theorem rowNotRaised_lineInv : rowNotRaised.LineInv :=
  lineInv_of_clocked (by decide) (by decide) (by decide)

theorem step_rowNotRaised : step rowNotRaised = .next (effect .rowClr rowNotRaised.advance) :=
  (step_engine (by decide) rfl rfl rfl).trans (exec_eq_effect trivial)

/-! ### A running engine -/

/-- What the engine's steps need of the state: all of the invariant that does not speak of `OUT` or of the host. -/
structure State.Scanning (s : State) : Prop where
  wf : s.cfg.wf = true
  run : s.run = .running
  pos : s.pc.Ok s.cfg
  cells : ∀ a, s.fb.read a &&& colorMask s.cfg = s.fb.read a

theorem State.Inv.scanning (h : s.Inv) (hrun : s.run = .running) : s.Scanning :=
  ⟨h.cfg, hrun, h.pos, h.read_colorOnly⟩

theorem colClk_clk : (effect .colClk s).level s.cfg.clkBit = true := by
  rw [effect, level_goUpc, level_portSet]
  simp [testBit_clkMask]

theorem blank_oe : (effect .blank s).level s.cfg.oeBit = true := by
  rw [effect, level_goUpc, level_portSet]
  simp [testBit_oeMask]

theorem latSet_lat : (effect .latSet s).level s.cfg.latBit = true := by
  rw [effect, level_goUpc, level_portSet]
  simp [testBit_latMask]

/-- `ROW_SET` raises the row lines that are 1 in the row (rule R192). -/
theorem rowSet_row (hj : j ∈ s.cfg.rowLines) (hrow : s.pc.row.testBit (j - s.cfg.rowLsb) = true) :
    (effect .rowSet s).level j = true := by
  rw [effect, level_goUpc, level_portSet]
  simp [testBit_rowbits, testBit_rowMask, hj, hrow]

namespace State.Scanning

variable (h : s.Scanning)
include h

theorem advance : s.advance.Scanning := ⟨h.wf, h.run, h.pos, h.cells⟩

/-- No cell has the clock's bit (rules R8, R41). -/
theorem cell_clkBit (a : FbAddr) : (s.fb.read a).testBit s.cfg.clkBit = false := by
  obtain ⟨-, -, -, -, -, -, -, hclk, -⟩ := Config.wf_control_distinct h.wf
  cases hbit : (s.fb.read a).testBit s.cfg.clkBit with
  | false => rfl
  | true => exact absurd (colorOnly_iff.1 (h.cells a) _ hbit) hclk

theorem clk_lt : s.cfg.clkBit < s.cfg.wordW := (Config.wf_lines_lt h.wf).2.1

theorem oe_lt : s.cfg.oeBit < s.cfg.wordW := (Config.wf_lines_lt h.wf).1

theorem lat_lt : s.cfg.latBit < s.cfg.wordW := (Config.wf_lines_lt h.wf).2.2.1

/-- The clock after `COL_CLR` (rule R184): low, as every cell has it at 0. -/
theorem colClr_clk : (effect .colClr s).level s.cfg.clkBit = false := by
  refine (level_portClr (s := s.loadCell s.pc.cellAddr) h.clk_lt).trans ?_
  simp [testBit_wordNot, testBit_serialMask, h.cell_clkBit, h.clk_lt]

/-- `COL_SET` leaves the clock (rule R186). -/
theorem colSet_clk : (effect .colSet s).level s.cfg.clkBit = s.level s.cfg.clkBit := by
  rw [effect, level_goUpc, level_portSet]
  simp [State.level, h.cell_clkBit]

theorem unblank_oe : (effect .unblank s).level s.cfg.oeBit = false := by
  rw [effect, level_goUpc, level_portClr h.oe_lt]
  simp [testBit_oeMask]

theorem latClr_lat : (effect .latClr s).level s.cfg.latBit = false := by
  rw [effect, level_goUpc, level_portClr h.lat_lt]
  simp [testBit_latMask]

/-- `ROW_CLR` lowers the row lines that are 0 in the row (rule R193). -/
theorem rowClr_row (hj : j ∈ s.cfg.rowLines) :
    (effect .rowClr s).level j = (s.level j && s.pc.row.testBit (j - s.cfg.rowLsb)) := by
  rw [effect, level_goUpc, level_portClr (row_lt_wordW h.wf hj)]
  simp [testBit_wordNot, testBit_rowbits, testBit_rowMask, hj, row_lt_wordW h.wf hj]

/-- The row field reads off the row lines (rule R104). -/
theorem rowField_eq {w : Word} : rowField s.cfg w = s.pc.row ↔
    ∀ j ∈ s.cfg.rowLines, w.testBit j = s.pc.row.testBit (j - s.cfg.rowLsb) := by
  rw [rowField_eq_iff (h.pos.row.trans_le (Config.wf_rows h.wf).2)]
  constructor
  · intro hk j hj
    have hbounds := mem_rowLines.1 hj
    rw [← hk (j - s.cfg.rowLsb) (by omega), Nat.add_sub_cancel' hbounds.1]
  · intro hj k hk
    rw [hj _ (mem_rowLines.2 (by omega)), Nat.add_sub_cancel_left]

/-- The control lines a micro-operation does not write keep their levels. -/
theorem clk_kept (hu : i.isUop = true) (h1 : i ≠ .colClr) (h2 : i ≠ .colSet) (h3 : i ≠ .colClk) :
    (effect i s).level s.cfg.clkBit = s.level s.cfg.clkBit := by
  obtain ⟨hoe, -, hlat, -, hrow, -⟩ := Config.wf_control_distinct h.wf
  refine effect_level hu h.clk_lt ?_
  cases i <;> simp_all [ownLines, Ne.symm]

theorem oe_kept (hu : i.isUop = true) (h1 : i ≠ .blank) (h2 : i ≠ .unblank) :
    (effect i s).level s.cfg.oeBit = s.level s.cfg.oeBit := by
  obtain ⟨hclk, hlat, -, hrow, -, -, hcolor, -⟩ := Config.wf_control_distinct h.wf
  refine effect_level hu h.oe_lt ?_
  cases i <;> simp_all [ownLines]

theorem lat_kept (hu : i.isUop = true) (h1 : i ≠ .latSet) (h2 : i ≠ .latClr) :
    (effect i s).level s.cfg.latBit = s.level s.cfg.latBit := by
  obtain ⟨-, hoe, hclk, -, -, hrow, -, -, hcolor⟩ := Config.wf_control_distinct h.wf
  refine effect_level hu h.lat_lt ?_
  cases i <;> simp_all [ownLines, Ne.symm]

theorem row_kept (hu : i.isUop = true) (h1 : i ≠ .rowSet) (h2 : i ≠ .rowClr) (hj : j ∈ s.cfg.rowLines) :
    (effect i s).level j = s.level j := by
  obtain ⟨hoe, hclk, hlat, hcolor⟩ := row_distinct h.wf hj
  refine effect_level hu (row_lt_wordW h.wf hj) ?_
  cases i <;> simp_all [ownLines]

theorem color_kept (hu : i.isUop = true) (h1 : i ≠ .colClr) (h2 : i ≠ .colSet) (hj : j ∈ s.cfg.colorLines) :
    (effect i s).level j = s.level j := by
  obtain ⟨hoe, hclk, hlat, hrow⟩ := color_distinct h.wf hj
  refine effect_level hu (color_lt_wordW h.wf hj) ?_
  cases i <;> simp_all [ownLines]

/-- The row field is kept with the row lines. -/
theorem rowField_kept (hu : i.isUop = true) (h1 : i ≠ .rowSet) (h2 : i ≠ .rowClr)
    (hrow : rowField s.cfg s.out = s.pc.row) : rowField s.cfg (effect i s).out = s.pc.row :=
  h.rowField_eq.2 fun _ hj => (h.row_kept hu h1 h2 hj).trans (h.rowField_eq.1 hrow _ hj)

end State.Scanning

namespace State.LineInv

variable {u : BitVec 4} (h : s.LineInv) (hrun : s.run = .running) (hupc : s.pc.upc = u)
include h hrun hupc

theorem clockLow_at (hu : 2 ≤ u.toNat ∧ u.toNat ≤ 5) : s.level s.cfg.clkBit = false :=
  h.clockLow hrun (hupc ▸ hu.1) (hupc ▸ hu.2)

theorem clockHigh_at (hu : 6 ≤ u.toNat ∧ u.toNat ≤ 13) : s.level s.cfg.clkBit = true :=
  h.clockHigh hrun (hupc ▸ hu.1) (hupc ▸ hu.2)

theorem blanked_at (hu : 8 ≤ u.toNat ∧ u.toNat ≤ 12) : s.level s.cfg.oeBit = true :=
  h.blanked hrun (hupc ▸ hu.1) (hupc ▸ hu.2)

theorem latchLow_at (hu : 12 ≤ u.toNat ∧ u.toNat ≤ 13) : s.level s.cfg.latBit = false :=
  h.latchLow hrun (hupc ▸ hu.1) (hupc ▸ hu.2)

theorem rowAddress_at (hu : 10 ≤ u.toNat ∧ u.toNat ≤ 13) : rowField s.cfg s.out = s.pc.row :=
  h.rowAddress hrun (hupc ▸ hu.1) (hupc ▸ hu.2)

end State.LineInv

/-- The invariant of the lines is kept by the engine's steps where `ROW_SET` has done its part (rules R188, R192 to
R196, R200). -/
theorem State.LineInv.uop (h : s.LineInv) (hs : s.Scanning) (hraised : s.RowRaised)
    (hd : decodeUop s.pc.upc = .ok i) : (effect i s).LineInv := by
  have hu := isUop_of_decodeUop hd
  have hcode := upc_of_decode hd
  cases i with
  | init | setupout m | setbits m | clrbits m | setpixel x y color | clearbuf | start p | stop | pause | resume
  | refreshPass | delay n => cases hcode
  | rowchk =>
    simp only [effect]
    split_ifs
    · exact lineInv_of_not_running nofun
    · exact lineInv_of_column (by simp [Encoded.uop.inj hcode]) (by simp [Encoded.uop.inj hcode])
    · exact lineInv_of_column (by simp [State.goRow]) (by simp [State.goRow])
  | colClr => exact lineInv_of_column (by simp [effect]) fun _ => hs.colClr_clk
  | stabA =>
    have hclk := h.clockLow_at hs.run (Encoded.uop.inj hcode) (by decide)
    exact lineInv_of_column (by simp [effect]) fun _ => hclk
  | colSet =>
    have hclk := h.clockLow_at hs.run (Encoded.uop.inj hcode) (by decide)
    exact lineInv_of_column (by simp [effect]) fun _ => hs.colSet_clk.trans hclk
  | stabB =>
    have hclk := h.clockLow_at hs.run (Encoded.uop.inj hcode) (by decide)
    exact lineInv_of_column (by simp [effect]) fun _ => hclk
  | colClk => exact lineInv_of_clocked (by simp [effect]) colClk_clk (by simp [effect])
  | stabC =>
    have hclk := h.clockHigh_at hs.run (Encoded.uop.inj hcode) (by decide)
    by_cases hcol : s.pc.col + 1 < s.cfg.C
    · exact lineInv_of_column (by simp [effect, afterColumn, hcol]) (by simp [effect, afterColumn, hcol])
    · exact lineInv_of_clocked (by simp [effect, afterColumn, hcol]) hclk (by simp [effect, afterColumn, hcol])
  | blank =>
    have hclk := h.clockHigh_at hs.run (Encoded.uop.inj hcode) (by decide)
    exact lineInv_of_clocked (by simp [effect]) ((hs.clk_kept hu nofun nofun nofun).trans hclk) fun _ => blank_oe
  | rowSet =>
    have hclk := h.clockHigh_at hs.run (Encoded.uop.inj hcode) (by decide)
    have hoe := h.blanked_at hs.run (Encoded.uop.inj hcode) (by decide)
    exact lineInv_of_clocked (by simp [effect]) ((hs.clk_kept hu nofun nofun nofun).trans hclk)
      fun _ => (hs.oe_kept hu nofun nofun).trans hoe
  | rowClr =>
    have hclk := h.clockHigh_at hs.run (Encoded.uop.inj hcode) (by decide)
    have hoe := h.blanked_at hs.run (Encoded.uop.inj hcode) (by decide)
    refine lineInv_of_addressed (by simp [effect]) ((hs.clk_kept hu nofun nofun nofun).trans hclk)
      ((hs.oe_kept hu nofun nofun).trans hoe) (by simp [effect]) (by simp [effect]) ?_
    refine hs.rowField_eq.2 fun j hj => (hs.rowClr_row hj).trans ?_
    cases hrow : s.pc.row.testBit (j - s.cfg.rowLsb) with
    | false => exact Bool.and_false _
    | true => rw [hraised (Encoded.uop.inj hcode) j hj hrow]; rfl
  | latSet =>
    have hclk := h.clockHigh_at hs.run (Encoded.uop.inj hcode) (by decide)
    have hoe := h.blanked_at hs.run (Encoded.uop.inj hcode) (by decide)
    have hrow := h.rowAddress_at hs.run (Encoded.uop.inj hcode) (by decide)
    exact lineInv_of_addressed (by simp [effect]) ((hs.clk_kept hu nofun nofun nofun).trans hclk)
      ((hs.oe_kept hu nofun nofun).trans hoe) (fun _ => latSet_lat) (by simp [effect])
      (hs.rowField_kept hu nofun nofun hrow)
  | latClr =>
    have hclk := h.clockHigh_at hs.run (Encoded.uop.inj hcode) (by decide)
    have hoe := h.blanked_at hs.run (Encoded.uop.inj hcode) (by decide)
    have hrow := h.rowAddress_at hs.run (Encoded.uop.inj hcode) (by decide)
    exact lineInv_of_addressed (by simp [effect]) ((hs.clk_kept hu nofun nofun nofun).trans hclk)
      ((hs.oe_kept hu nofun nofun).trans hoe) (by simp [effect]) (fun _ => hs.latClr_lat)
      (hs.rowField_kept hu nofun nofun hrow)
  | unblank =>
    have hclk := h.clockHigh_at hs.run (Encoded.uop.inj hcode) (by decide)
    have hlat := h.latchLow_at hs.run (Encoded.uop.inj hcode) (by decide)
    have hrow := h.rowAddress_at hs.run (Encoded.uop.inj hcode) (by decide)
    exact lineInv_of_lit rfl ((hs.clk_kept hu nofun nofun nofun).trans hclk) hs.unblank_oe
      ((hs.lat_kept hu nofun nofun).trans hlat) (hs.rowField_kept hu nofun nofun hrow)
  | dwell =>
    refine lineInv_of_column ?_ ?_ <;> simp only [effect, afterPlane_eq] <;> split_ifs <;> simp

/-- The four micro-operations that write the row lines or the latch do so blanked (rule R200). -/
theorem State.LineInv.blanked_of_row_or_latch (h : s.LineInv) (hs : s.Scanning) (hd : decodeUop s.pc.upc = .ok i)
    (hi : i = .rowSet ∨ i = .rowClr ∨ i = .latSet ∨ i = .latClr) :
    s.level s.cfg.oeBit = true ∧ (effect i s).level s.cfg.oeBit = true := by
  have hcode := upc_of_decode hd
  have hoe : s.level s.cfg.oeBit = true := by
    rcases hi with rfl | rfl | rfl | rfl <;> exact h.blanked_at hs.run (Encoded.uop.inj hcode) (by decide)
  refine ⟨hoe, (hs.oe_kept (isUop_of_decodeUop hd) ?_ ?_).trans hoe⟩ <;>
    rintro rfl <;> simp at hi

/-- The other micro-operations leave the latch and the row lines. -/
theorem State.Scanning.row_and_latch_kept (h : s.Scanning) (hu : i.isUop = true)
    (hi : ¬ (i = .rowSet ∨ i = .rowClr ∨ i = .latSet ∨ i = .latClr)) (hj : j ∈ s.cfg.latBit :: s.cfg.rowLines) :
    (effect i s).level j = s.level j := by
  simp only [not_or] at hi
  obtain ⟨hrowSet, hrowClr, hlatSet, hlatClr⟩ := hi
  rcases List.mem_cons.1 hj with rfl | hj
  · exact h.lat_kept hu hlatSet hlatClr
  · exact h.row_kept hu hrowSet hrowClr hj

end Sys2Proof.Machine

namespace Sys2Proof

open Machine

/-- Refutes O35: at `ROW_CLR` the invariant does not ask that `ROW_SET` has raised the row lines. The engine at row 1
with the row field 0 is in both invariants, and its step leaves row 0 addressed before `LAT_SET`. -/
theorem not_stepKeepsTheLineInvariant : ¬ Obligations.StepKeepsTheLineInvariant := by
  intro h
  have hline := h _ _ rowNotRaised_inv rowNotRaised_lineInv step_rowNotRaised
  have hrow := hline.rowAddress rfl (by decide) (by decide)
  exact absurd hrow (by decide)

/-- Settles O36: only four micro-operations write these lines, and the host writes none while the engine runs. -/
theorem rowAndLatchChangeOnlyWhileBlanked : Obligations.RowAndLatchChangeOnlyWhileBlanked := by
  intro s t j hinv hline hrun hstep hj hne
  have hs := (hinv.scanning hrun).advance
  cases hm : s.mover with
  | host =>
    obtain ⟨-, -, hout, -⟩ := hostLeavesTheScanAlone s t hrun hm hstep
    exact absurd (by rw [State.level_eq, hout, State.level_eq]) hne
  | engine =>
    obtain ⟨i, hd⟩ := decodeUop_of_lt hinv.upc
    rw [step_engine hinv.cfg hm hrun hd] at hstep
    obtain ⟨-, rfl⟩ := exec_next_iff.1 hstep
    by_cases hi : i = .rowSet ∨ i = .rowClr ∨ i = .latSet ∨ i = .latClr
    · exact State.LineInv.blanked_of_row_or_latch (s := s.advance) { hline with } hs hd hi
    · exact absurd (hs.row_and_latch_kept (isUop_of_decodeUop hd) hi hj) hne

/-- Settles O37: the clock is low before `COL_CLK` and high after it, the latch pulse is a raise and a fall, and every
operation hands its change of `OUT` to the observer. -/
theorem clockShiftsAndLatchCopies : Obligations.ClockShiftsAndLatchCopies := by
  refine ⟨fun s t hinv hline hrun hm hupc hstep => ?_, fun s t u hwf ht hu => ?_, fun i s t => exec_panel⟩
  · have hclk := hline.clockLow_at hrun hupc (by decide)
    rw [step_engine (i := .colClk) hinv.cfg hm hrun (by rw [hupc]; rfl)] at hstep
    obtain ⟨-, rfl⟩ := exec_next_iff.1 hstep
    exact ⟨hclk, colClk_clk (s := s.advance), portSet_clkMask_shift (s := s.advance) hinv.cfg hclk,
      portSet_latched (s := s.advance)⟩
  · obtain ⟨-, rfl⟩ := exec_next_iff.1 ht
    obtain ⟨-, rfl⟩ := exec_next_iff.1 hu
    have hclk : (latMask s.cfg).testBit s.cfg.clkBit = false := by
      obtain ⟨-, -, hne, -⟩ := Config.wf_control_distinct hwf
      simpa [testBit_latMask] using hne
    have hshift : (effect .latSet s).panel.shift = s.panel.shift := portSet_shift_of_off hclk
    exact ⟨(portClr_latMask_latched (s := effect .latSet s) hwf latSet_lat).trans (by rw [hshift]; rfl),
      portClr_shift.trans hshift⟩

end Sys2Proof
end

section
/-! PROOFS. A plane from its first column to its dwell: how the scan moves on, what each micro-operation records, and
what stands on the lines and in the panel meanwhile (rules R85, R184 to R197). -/

namespace Sys2Proof.Machine

variable {c : Config} {s t u : State} {i : Instr} {j n : Nat} {l : List Agent}

/-! ### What the engine, run alone, keeps -/

/-- What the engine's steps leave to the host (rules R77, R201). -/
structure State.EngineKeeps (s t : State) : Prop where
  cfg : t.cfg = s.cfg
  fb : t.fb = s.fb
  mode : t.mode = s.mode
  stopReq : t.stopReq = s.stopReq
  pauseReq : t.pauseReq = s.pauseReq
  outside : t.out &&& wordNot s.cfg (engineMask s.cfg) = s.out &&& wordNot s.cfg (engineMask s.cfg)

theorem State.EngineKeeps.refl (s : State) : s.EngineKeeps s := ⟨rfl, rfl, rfl, rfl, rfl, rfl⟩

theorem State.EngineKeeps.trans (h : s.EngineKeeps t) (h' : t.EngineKeeps u) : s.EngineKeeps u :=
  ⟨h'.cfg.trans h.cfg, h'.fb.trans h.fb, h'.mode.trans h.mode, h'.stopReq.trans h.stopReq,
    h'.pauseReq.trans h.pauseReq, (h.cfg ▸ h'.outside).trans h.outside⟩

/-- A running engine's turn (rule R182): the micro-operation that `upc` names, on the host's things as they are. -/
theorem State.Scanning.step (h : s.Scanning) (hl : s.turns = .engine :: l) (hd : decodeUop s.pc.upc = .ok i) :
    step s = .next (effect i s.advance) ∧ s.EngineKeeps (effect i s.advance) ∧
      (effect i s.advance).turns = l := by
  have hu := isUop_of_decodeUop hd
  have hexec := exec_eq_effect (enabled_of_posOk h.advance.pos hu)
  obtain ⟨-, hfb, hcfg, -, hmode, hstop, hpause, -, -, -, -, -, hturns, -, hout, -⟩ := engineFrame _ _ _ hu hexec
  exact ⟨(step_engine h.wf (State.mover_cons s .engine l hl) h.run hd).trans hexec,
    ⟨hcfg, hfb, hmode, hstop, hpause, hout⟩, hturns.trans (congrArg List.tail hl)⟩

/-! ### The position -/

/-- A micro-operation between a row boundary and a dwell: its successor depends on the position alone. -/
def InPlane (i : Instr) : Prop := i.isUop = true ∧ i ≠ .rowchk ∧ i ≠ .dwell

/-- Where such a micro-operation goes (rules R184 to R196). -/
def nextPos (c : Config) (p : Pos) : Pos :=
  if p.upc.toNat = 6 then afterColumn c p else ⟨p.row, p.plane, p.col, p.upc + 1⟩

/-- The micro-operation of a position between a row boundary and a dwell. -/
theorem decode_inPlane {v : BitVec 4} (h1 : 1 ≤ v.toNat) (h2 : v.toNat ≤ 12) :
    ∃ i, decodeUop v = .ok i ∧ InPlane i := by
  obtain ⟨i, hd⟩ := decodeUop_of_lt (u := v) (by omega)
  refine ⟨i, hd, isUop_of_decodeUop hd, ?_, ?_⟩ <;> rintro rfl <;>
    simp [Encoded.uop.inj (upc_of_decode hd)] at h1 h2

theorem effect_pc (hi : InPlane i) (hd : decodeUop s.pc.upc = .ok i) : (effect i s).pc = nextPos s.cfg s.pc := by
  obtain ⟨hu, hrowchk, hdwell⟩ := hi
  have hcode := upc_of_decode hd
  cases i with
  | rowchk => exact absurd rfl hrowchk
  | dwell => exact absurd rfl hdwell
  | colClr | stabA | colSet | stabB | colClk | stabC | blank | rowSet | rowClr | latSet | latClr | unblank =>
    rw [nextPos, Encoded.uop.inj hcode]; rfl
  | _ => cases hu

theorem effect_run (hi : InPlane i) : (effect i s).run = s.run := by
  obtain ⟨hu, hrowchk, hdwell⟩ := hi
  rcases effect_run_uop (s := s) hu with h | ⟨h, -⟩ | ⟨h, -⟩
  exacts [h, absurd h hrowchk, absurd h hdwell]

theorem nextPos_row (p : Pos) : (nextPos c p).row = p.row := by
  unfold nextPos afterColumn; split_ifs <;> rfl

theorem nextPos_plane (p : Pos) : (nextPos c p).plane = p.plane := by
  unfold nextPos afterColumn; split_ifs <;> rfl

theorem toNat_add_one {v : BitVec 4} (h : v.toNat ≤ 12) : (v + 1).toNat = v.toNat + 1 := by
  have hone : (1 : BitVec 4).toNat = 1 := rfl
  rw [BitVec.toNat_add, hone]
  omega

/-- From one micro-operation of a plane to the next. -/
theorem Pos.Ok.nextPos {p : Pos} (h : p.Ok c) (h1 : 1 ≤ p.upc.toNat) (h2 : p.upc.toNat ≤ 12) :
    (nextPos c p).Ok c := by
  unfold Machine.nextPos
  split
  · exact h.afterColumn
  · next h6 =>
    have hsucc := toNat_add_one h2
    refine h.goUpc (by omega) (fun h0 => ?_) (by omega)
    rw [h0] at hsucc
    simp at hsucc

/-- What is left of a plane, its dwell included: the first part of `rowRest` (rules R120, R189). -/
def planeRest (c : Config) (fb : Memory) (p : Pos) : List Event :=
  if p.upc.toNat ≤ 6 then
    (columnEvents c fb p.row p.plane p.col).drop (columnDone p.upc) ++
      ((List.range c.C).drop (p.col + 1)).flatMap (columnEvents c fb p.row p.plane) ++ tailEvents c p.row p.plane
  else (tailEvents c p.row p.plane).drop (p.upc.toNat - 7)

theorem rowRest_eq (fb : Memory) (p : Pos) : rowRest c fb p =
    planeRest c fb p ++ ((List.range c.P).drop (p.plane + 1)).flatMap (planeEvents c fb p.row) := rfl

/-- How many micro-operations stand before the plane's dwell. -/
def toDwell (c : Config) (p : Pos) : Nat :=
  if p.upc.toNat ≤ 6 then 7 - p.upc.toNat + 6 * (c.C - 1 - p.col) + 6 else 13 - p.upc.toNat

theorem drop_range {n k : Nat} (h : k < n) : (List.range n).drop k = k :: (List.range n).drop (k + 1) := by
  rw [List.drop_eq_getElem_cons (by simpa using h), List.getElem_range]

theorem drop_range_self {n k : Nat} (h : n ≤ k) : (List.range n).drop k = [] :=
  List.drop_eq_nil_of_le (by simpa using h)

/-- Each micro-operation of a plane records the first of the events left of it. -/
theorem effect_hist_planeRest (hi : InPlane i) (hd : decodeUop s.pc.upc = .ok i) :
    (effect i s).hist ++ planeRest s.cfg s.fb (nextPos s.cfg s.pc) =
      s.hist ++ planeRest s.cfg s.fb s.pc := by
  rw [← effect_pc hi hd]
  obtain ⟨hu, hrowchk, hdwell⟩ := hi
  have hcode := upc_of_decode hd
  cases i with
  | rowchk => exact absurd rfl hrowchk
  | dwell => exact absurd rfl hdwell
  | stabC =>
    by_cases hcol : s.pc.col + 1 < s.cfg.C
    · simp [effect, afterColumn, planeRest, columnDone, columnEvents, stabEvent, Encoded.uop.inj hcode, hcol,
        drop_range hcol]
    · simp [effect, afterColumn, planeRest, columnDone, columnEvents, stabEvent, Encoded.uop.inj hcode, hcol,
        drop_range_self (Nat.le_of_not_lt hcol)]
  | colClr | stabA | colSet | stabB | colClk | blank | rowSet | rowClr | latSet | latClr | unblank =>
    simp [effect, planeRest, columnDone, columnEvents, tailEvents, stabEvent, Encoded.uop.inj hcode,
      Pos.cellAddr]
  | _ => cases hu

/-- And brings the dwell one micro-operation nearer. -/
theorem toDwell_nextPos {p : Pos} (h : p.Ok c) (h1 : 1 ≤ p.upc.toNat) (h2 : p.upc.toNat ≤ 12) :
    toDwell c p = toDwell c (nextPos c p) + 1 := by
  have hcol := h.col
  unfold nextPos
  split
  · next h6 =>
    unfold afterColumn toDwell
    split_ifs <;> simp_all
    omega
  · next h6 =>
    have hsucc := toNat_add_one h2
    simp only [toDwell, hsucc]
    split_ifs <;> omega

/-! ### What stands on the colour lines and in the panel -/

/-- The sample of a column of the row and plane being scanned. -/
def State.cellSample (s : State) (k : Nat) : Sample := sampleOf s.cfg (s.fb.read ⟨s.pc.plane, s.pc.row, k⟩)

/-- How many columns of the plane are clocked in at a position of it. -/
def clocked (p : Pos) : Nat := if p.upc.toNat ≤ 5 then p.col else p.col + 1

/-- The colour lines follow the cell of the column: after `COL_CLR` no line is high that the cell has at 0, after
`COL_SET` they are the cell's (rules R184, R186). -/
def State.Coloured (s : State) : Prop := ∀ j ∈ s.cfg.colorLines,
  (2 ≤ s.pc.upc.toNat → s.level j = true → (s.fb.read s.pc.cellAddr).testBit j = true) ∧
  (4 ≤ s.pc.upc.toNat → s.level j = (s.fb.read s.pc.cellAddr).testBit j)

/-- The panel has shifted in the columns clocked so far, and has copied them all after the latch pulse (rules R81,
R82). -/
def State.ShiftedIn (s : State) : Prop :=
  lastSamples (clocked s.pc) s.panel.shift = (List.range (clocked s.pc)).map s.cellSample ∧
  (12 ≤ s.pc.upc.toNat → s.panel.latched = (List.range s.cfg.C).map s.cellSample)

theorem effect_fb (hi : InPlane i) : (effect i s).fb = s.fb := by
  obtain ⟨hu, hrowchk, hdwell⟩ := hi
  cases i with
  | rowchk => exact absurd rfl hrowchk
  | dwell => exact absurd rfl hdwell
  | colClr | stabA | colSet | stabB | colClk | stabC | blank | rowSet | rowClr | latSet | latClr | unblank => rfl
  | _ => cases hu

/-- Each micro-operation of a plane leaves the colour lines as `Coloured` has them at the next. -/
theorem State.Coloured.uop (h : s.Coloured) (hs : s.Scanning) (hi : InPlane i) (hd : decodeUop s.pc.upc = .ok i) :
    (effect i s).Coloured := by
  obtain ⟨hu, hrowchk, hdwell⟩ := hi
  have hcode := upc_of_decode hd
  intro j hj
  have hj' : j ∈ s.cfg.colorLines := by
    rwa [(exec_keeps (exec_eq_effect (enabled_of_posOk hs.pos hu))).1] at hj
  obtain ⟨hcleared, hset⟩ := h j hj'
  have kept (h4 : 4 ≤ s.pc.upc.toNat) (hclr : i ≠ .colClr) (hset' : i ≠ .colSet) :
      (effect i s).level j = (s.fb.read s.pc.cellAddr).testBit j :=
    (hs.color_kept hu hclr hset' hj').trans (hset h4)
  cases i with
  | rowchk => exact absurd rfl hrowchk
  | dwell => exact absurd rfl hdwell
  | colClr =>
    refine ⟨fun _ hlevel => ?_, by simp [effect]⟩
    rw [colClr_level hs.wf hj', Bool.and_eq_true] at hlevel
    exact hlevel.2
  | stabA => exact ⟨fun _ => hcleared (by simp [Encoded.uop.inj hcode]), by simp [effect]⟩
  | colSet =>
    have hlevel : (effect .colSet s).level j = (s.fb.read s.pc.cellAddr).testBit j := by
      have himp := hcleared (by simp [Encoded.uop.inj hcode])
      rw [colSet_level hj']
      cases hbit : s.level j with
      | false => rfl
      | true => rw [himp hbit]; rfl
    exact ⟨fun _ => hlevel.symm.trans, fun _ => hlevel⟩
  | stabC =>
    have hlevel := kept (by simp [Encoded.uop.inj hcode]) nofun nofun
    by_cases hcol : s.pc.col + 1 < s.cfg.C
    · simp [effect, afterColumn, hcol]
    · have hpc : (effect .stabC s).pc.cellAddr = s.pc.cellAddr := by simp [effect, afterColumn, hcol, Pos.cellAddr]
      rw [hpc]
      exact ⟨fun _ => hlevel.symm.trans, fun _ => hlevel⟩
  | stabB | colClk | blank | rowSet | rowClr | latSet | latClr | unblank =>
    have hlevel := kept (by simp [Encoded.uop.inj hcode]) nofun nofun
    exact ⟨fun _ => hlevel.symm.trans, fun _ => hlevel⟩
  | _ => cases hu

theorem lastSamples_zero (l : List Sample) : lastSamples 0 l = [] := by simp [lastSamples]

/-- One sample more, clocked in behind the last ones. -/
theorem lastSamples_append (n : Nat) (l : List Sample) (q : Sample) :
    lastSamples (n + 1) (l ++ [q]) = lastSamples n l ++ [q] := by
  have hlength : (l ++ [q]).length - (n + 1) = l.length - n := by simp
  rw [lastSamples, hlength, List.drop_append_of_le_length (Nat.sub_le _ _), lastSamples]

/-- Keeping the last `n` samples loses none of the last `m`. -/
theorem lastSamples_lastSamples {m n : Nat} (h : m ≤ n) (l : List Sample) :
    lastSamples m (lastSamples n l) = lastSamples m l := by
  simp only [lastSamples, List.length_drop, List.drop_drop]
  congr 1
  omega

/-- A sample is made of the six colour lines (rule R80). -/
theorem sampleOf_congr {v w : Word} (h : ∀ j ∈ c.colorLines, v.testBit j = w.testBit j) :
    sampleOf c v = sampleOf c w := by
  simp only [Config.colorLines, List.forall_mem_cons] at h
  obtain ⟨h1, h2, h3, h4, h5, h6, -⟩ := h
  simp only [sampleOf, h1, h2, h3, h4, h5, h6]

/-- Only `COL_CLK` shifts the panel (rule R188). -/
theorem State.Scanning.shift_kept (h : s.Scanning) (hi : InPlane i) (hclk : i ≠ .colClk) :
    (effect i s).panel.shift = s.panel.shift := by
  obtain ⟨hoe, -, hlat, -, hrow, -⟩ := Config.wf_control_distinct h.wf
  obtain ⟨hu, hrowchk, hdwell⟩ := hi
  cases i with
  | rowchk => exact absurd rfl hrowchk
  | dwell => exact absurd rfl hdwell
  | colClk => exact absurd rfl hclk
  | stabA | stabB | stabC => rfl
  | colClr | rowClr | latClr | unblank => exact portClr_shift
  | colSet => exact portSet_shift_of_off (by simp [h.cell_clkBit])
  | blank => exact portSet_shift_of_off (by simpa [testBit_oeMask] using hoe.symm)
  | rowSet => exact portSet_shift_of_off (by simp [testBit_rowMask, hrow])
  | latSet => exact portSet_shift_of_off (by simpa [testBit_latMask] using hlat)
  | _ => cases hu

/-- Only `LAT_CLR` ends a latch pulse (rule R195). -/
theorem State.Scanning.latched_kept (h : s.Scanning) (hi : InPlane i) (hlat : i ≠ .latClr) :
    (effect i s).panel.latched = s.panel.latched := by
  obtain ⟨-, hoe, hclk, -, -, hrow, -, -, hcolor⟩ := Config.wf_control_distinct h.wf
  obtain ⟨hu, hrowchk, hdwell⟩ := hi
  cases i with
  | rowchk => exact absurd rfl hrowchk
  | dwell => exact absurd rfl hdwell
  | latClr => exact absurd rfl hlat
  | stabA | stabB | stabC => rfl
  | colSet | colClk | blank | rowSet | latSet => exact portSet_latched
  | colClr =>
    refine portClr_latched_of_off (s := s.loadCell s.pc.cellAddr) h.lat_lt ?_
    simp [testBit_serialMask, hcolor, hclk.symm]
  | rowClr => exact portClr_latched_of_off h.lat_lt (by simp [testBit_rowMask, hrow])
  | unblank => exact portClr_latched_of_off h.lat_lt (by simpa [testBit_oeMask] using hoe.symm)
  | _ => cases hu

/-- The columns clocked in are counted by `COL_CLK` alone. -/
theorem clocked_nextPos {p : Pos} (h2 : p.upc.toNat ≤ 12) (h5 : p.upc.toNat ≠ 5) :
    clocked (nextPos c p) = clocked p := by
  unfold nextPos
  split
  · next h6 => unfold afterColumn clocked; split_ifs <;> simp_all
  · next h6 =>
    simp only [clocked, toNat_add_one h2]
    split_ifs <;> omega

/-- After the latch pulse the scan has passed `LAT_CLR`. -/
theorem latched_of_nextPos {p : Pos} (h2 : p.upc.toNat ≤ 12) (h : 12 ≤ (nextPos c p).upc.toNat) :
    p.upc.toNat = 11 ∨ 12 ≤ p.upc.toNat := by
  unfold nextPos at h
  split at h
  · unfold afterColumn at h
    split_ifs at h <;> simp at h
  · simp only [toNat_add_one h2] at h
    omega

theorem effect_cfg (hu : i.isUop = true) (hs : s.Scanning) : (effect i s).cfg = s.cfg :=
  (exec_keeps (exec_eq_effect (enabled_of_posOk hs.pos hu))).1

theorem effect_cellSample (hs : s.Scanning) (hi : InPlane i) (hd : decodeUop s.pc.upc = .ok i) :
    (effect i s).cellSample = s.cellSample := by
  funext k
  rw [State.cellSample, effect_fb hi, effect_cfg hi.1 hs, effect_pc hi hd, nextPos_row, nextPos_plane,
    State.cellSample]

/-- A micro-operation is told by its code. -/
theorem eq_of_upc {v w : BitVec 4} {k : Instr} (hd : decodeUop v = .ok i) (hv : v = w) (hk : decodeUop w = .ok k) :
    i = k :=
  Except.ok.inj (hd.symm.trans (hv ▸ hk))

theorem upc_le_of_inPlane (hi : InPlane i) {v : BitVec 4} (hd : decodeUop v = .ok i) : v.toNat ≤ 12 := by
  obtain ⟨hu, hrowchk, hdwell⟩ := hi
  have hcode := upc_of_decode hd
  cases i with
  | rowchk => exact absurd rfl hrowchk
  | dwell => exact absurd rfl hdwell
  | colClr | stabA | colSet | stabB | colClk | stabC | blank | rowSet | rowClr | latSet | latClr | unblank =>
    rw [Encoded.uop.inj hcode]; decide
  | _ => cases hu

/-- What `COL_CLK` shifts in is the cell's sample, as the colour lines are the cell's by then (rules R81, R188). -/
theorem State.ShiftedIn.colClk (h : s.ShiftedIn) (hs : s.Scanning) (hline : s.LineInv) (hcolour : s.Coloured)
    (hupc : s.pc.upc = Upc.COL_CLK) : lastSamples (s.pc.col + 1) (effect .colClk s).panel.shift =
      (List.range (s.pc.col + 1)).map s.cellSample := by
  have hsample : sampleOf s.cfg s.out = s.cellSample s.pc.col :=
    sampleOf_congr fun j hj => (hcolour j hj).2 (by simp [hupc])
  have hshift : lastSamples s.pc.col s.panel.shift = (List.range s.pc.col).map s.cellSample := by
    simpa [clocked, hupc] using h.1
  have hclk := portSet_clkMask_shift hs.wf (hline.clockLow_at hs.run hupc (by decide))
  rw [effect, State.goUpc_panel, hclk, lastSamples_lastSamples hs.pos.col, lastSamples_append, hshift, hsample,
    List.range_succ, List.map_append, List.map_singleton]

/-- Each micro-operation of a plane leaves the panel as `ShiftedIn` has it at the next. -/
theorem State.ShiftedIn.uop (h : s.ShiftedIn) (hs : s.Scanning) (hline : s.LineInv) (hcolour : s.Coloured)
    (hi : InPlane i) (hd : decodeUop s.pc.upc = .ok i) : (effect i s).ShiftedIn := by
  have h12 := upc_le_of_inPlane hi hd
  obtain ⟨hshift, hlatch⟩ := h
  rw [State.ShiftedIn, effect_cellSample hs hi hd, effect_pc hi hd, effect_cfg hi.1 hs]
  constructor
  · by_cases hclk : s.pc.upc = Upc.COL_CLK
    · obtain rfl := eq_of_upc (k := .colClk) hd hclk rfl
      have hnext : clocked (nextPos s.cfg s.pc) = s.pc.col + 1 := by rw [nextPos, hclk]; rfl
      rw [hnext]
      exact State.ShiftedIn.colClk ⟨hshift, hlatch⟩ hs hline hcolour hclk
    · have hne : i ≠ .colClk := by
        rintro rfl
        exact hclk (Encoded.uop.inj (upc_of_decode hd))
      rw [clocked_nextPos h12 fun h5 => hclk (BitVec.eq_of_toNat_eq h5), hs.shift_kept hi hne, hshift]
  · intro hnext
    rcases latched_of_nextPos h12 hnext with h11 | h12
    · have hupc : s.pc.upc = Upc.LAT_CLR := BitVec.eq_of_toNat_eq h11
      obtain rfl := eq_of_upc (k := .latClr) hd hupc rfl
      have hcol : clocked s.pc = s.cfg.C := by
        rw [← hs.pos.tail (by omega), clocked, if_neg (by omega)]
      have hlatched : (effect .latClr s).panel.latched = lastSamples s.cfg.C s.panel.shift :=
        portClr_latMask_latched hs.wf (hline.latchHigh hs.run hupc)
      rw [hlatched, ← hcol, hshift]
    · have hne : i ≠ .latClr := by
        rintro rfl
        rw [Encoded.uop.inj (upc_of_decode hd)] at h12
        exact absurd h12 (by decide)
      rw [hs.latched_kept hi hne, hlatch h12]

/-! ### The run to the dwell -/

/-- What holds in the midst of a plane whose scan the host does not disturb. -/
structure State.PlaneInv (s : State) : Prop where
  line : s.LineInv
  raised : s.RowRaised
  coloured : s.Coloured
  shiftedIn : s.ShiftedIn

/-- It holds where a plane begins, whatever the lines and the panel. -/
theorem planeInv_of_start (hupc : s.pc.upc = Upc.COL_CLR) (hcol : s.pc.col = 0) : s.PlaneInv where
  line := lineInv_of_column (by simp [hupc]) (by simp [hupc])
  raised h := absurd (hupc.symm.trans h) (by decide)
  coloured j _ := by simp [hupc]
  shiftedIn := by simp [State.ShiftedIn, clocked, hupc, hcol, lastSamples_zero]

/-- Of the micro-operations of a plane, `ROW_SET` alone leads to `ROW_CLR`. -/
theorem effect_rowRaised (hi : InPlane i) : (effect i s).RowRaised := by
  obtain ⟨hu, hrowchk, hdwell⟩ := hi
  by_cases hset : i = .rowSet
  · subst hset
    exact fun _ j hj hrow => rowSet_row hj hrow
  intro h
  have h9 : (effect i s).pc.upc.toNat = 9 := by rw [h]; rfl
  cases i with
  | rowchk => exact absurd rfl hrowchk
  | dwell => exact absurd rfl hdwell
  | rowSet => exact absurd rfl hset
  | stabC =>
    simp only [effect, State.goPos_pc, afterColumn] at h9
    split at h9 <;> simp at h9
  | colClr | stabA | colSet | stabB | colClk | blank | rowClr | latSet | latClr | unblank => simp [effect] at h9
  | _ => cases hu

theorem State.PlaneInv.advance (h : s.PlaneInv) : s.advance.PlaneInv :=
  ⟨{ h.line with }, h.raised, h.coloured, h.shiftedIn⟩

theorem State.PlaneInv.uop (h : s.PlaneInv) (hs : s.Scanning) (hi : InPlane i) (hd : decodeUop s.pc.upc = .ok i) :
    (effect i s).PlaneInv :=
  ⟨h.line.uop hs h.raised hd, effect_rowRaised hi, h.coloured.uop hs hi hd,
    h.shiftedIn.uop hs h.line h.coloured hi hd⟩

theorem State.Scanning.uop (h : s.Scanning) (hi : InPlane i) (hd : decodeUop s.pc.upc = .ok i)
    (h1 : 1 ≤ s.pc.upc.toNat) : (effect i s).Scanning where
  wf := by rw [effect_cfg hi.1 h]; exact h.wf
  run := (effect_run hi).trans h.run
  pos := by
    rw [effect_pc hi hd, effect_cfg hi.1 h]
    exact h.pos.nextPos h1 (upc_le_of_inPlane hi hd)
  cells a := by
    rw [effect_fb hi, effect_cfg hi.1 h]
    exact h.cells a

/-- At its dwell a plane has no micro-operation before it left, and one event. -/
theorem Pos.Ok.eq_dwell {p : Pos} (h : p.Ok c) (hn : toDwell c p = 0) :
    p = ⟨p.row, p.plane, c.C - 1, Upc.DWELL⟩ := by
  have h13 : p.upc.toNat = 13 := by
    have hlt := h.upc
    unfold toDwell at hn
    split at hn <;> omega
  have hcol : p.col = c.C - 1 := by
    have htail := h.tail (by omega)
    omega
  have hupc : p.upc = Upc.DWELL := BitVec.eq_of_toNat_eq h13
  rw [← hcol, ← hupc]

theorem planeRest_dwell (fb : Memory) (r b k : Nat) : planeRest c fb ⟨r, b, k, Upc.DWELL⟩ = [dwellEvent c b] := rfl

/-- A running engine, given the turns up to the plane's dwell, stands there after them, with the dwell alone left of
the plane's events. -/
theorem run_to_dwell {n : Nat} {rest : List Agent} (hs : s.Scanning) (h1 : 1 ≤ s.pc.upc.toNat)
    (hn : toDwell s.cfg s.pc = n) (hl : s.turns = List.replicate n .engine ++ rest) :
    ∃ t : State, Host.Core.run Sys2Proof.core n s = .next t ∧ t.Scanning ∧ s.EngineKeeps t ∧ t.turns = rest ∧
      t.pc = ⟨s.pc.row, s.pc.plane, s.cfg.C - 1, Upc.DWELL⟩ ∧
      t.hist ++ [dwellEvent s.cfg s.pc.plane] = s.hist ++ planeRest s.cfg s.fb s.pc ∧
      (s.PlaneInv → t.PlaneInv) := by
  induction n generalizing s with
  | zero =>
    have hpc := hs.pos.eq_dwell hn
    refine ⟨s, rfl, hs, .refl s, hl, hpc, ?_, id⟩
    rw [hpc, planeRest_dwell]
  | succ n ih =>
    have h12 : s.pc.upc.toNat ≤ 12 := by
      by_contra hgt
      have hlt := hs.pos.upc
      rw [toDwell, if_neg (by omega)] at hn
      omega
    obtain ⟨i, hd, hi⟩ := decode_inPlane h1 h12
    obtain ⟨hstep, hkeeps, hturns⟩ := hs.step (l := List.replicate n Agent.engine ++ rest) hl hd
    have hs' := hs.advance.uop hi hd h1
    have hpc : (effect i s.advance).pc = nextPos s.cfg s.pc := effect_pc (s := s.advance) hi hd
    have hnext : 1 ≤ (nextPos s.cfg s.pc).upc.toNat := by
      unfold nextPos afterColumn
      split_ifs
      · simp
      · simp
      · simp only [toNat_add_one h12]; omega
    have hn' : toDwell (effect i s.advance).cfg (effect i s.advance).pc = n := by
      rw [hkeeps.cfg, hpc]
      have := toDwell_nextPos hs.pos h1 h12
      omega
    obtain ⟨t, hrun, ht, hkeeps', hturns', htpc, hhist, hplane⟩ := ih hs' (hpc ▸ hnext) hn' hturns
    rw [hkeeps.cfg, hkeeps.fb, hpc, nextPos_row, nextPos_plane] at *
    have hrec := effect_hist_planeRest (s := s.advance) hi hd
    exact ⟨t, (run_succ hstep).trans hrun, ht, hkeeps.trans hkeeps', hturns', htpc, hhist.trans hrec,
      fun h => hplane (h.advance.uop hs.advance hi hd)⟩

end Sys2Proof.Machine
end

section
/-! PROOFS. Rows and passes: planes, rows and passes run one after the other (rules R85, R180 to R183, R197 to R199,
R202, R242 to R246). -/

namespace Sys2Proof.Machine

variable {c : Config} {s t : State} {j : Nat} {l rest : List Agent}

/-- What an undisturbed scan of a plane leaves on the engine's lines and in the panel's output register: the cell of
the last column and the clock and the row, and the samples of all its columns (rules R85, R188 to R196). -/
structure State.Displays (s : State) (row plane : Nat) : Prop where
  lines : s.out &&& engineMask s.cfg =
    s.fb.read ⟨plane, row, s.cfg.C - 1⟩ ||| clkMask s.cfg ||| rowbits s.cfg row
  latched : s.panel.latched = (List.range s.cfg.C).map fun k => sampleOf s.cfg (s.fb.read ⟨plane, row, k⟩)

theorem mem_lines : j ∈ c.lines ↔
    j = c.oeBit ∨ j = c.clkBit ∨ j = c.latBit ∨ j ∈ c.rowLines ∨ j ∈ c.colorLines := by
  simp [Config.lines]

/-- At its dwell a plane scanned undisturbed is displayed. -/
theorem State.PlaneInv.displays (h : s.PlaneInv) (hs : s.Scanning)
    (hpc : s.pc = ⟨s.pc.row, s.pc.plane, s.cfg.C - 1, Upc.DWELL⟩) : s.Displays s.pc.row s.pc.plane := by
  have hupc : s.pc.upc = Upc.DWELL := congrArg Pos.upc hpc
  have hcell : s.pc.cellAddr = ⟨s.pc.plane, s.pc.row, s.cfg.C - 1⟩ := by rw [hpc]; rfl
  refine ⟨?_, h.shiftedIn.2 (by simp [hupc])⟩
  rw [← hcell]
  have hoe := h.line.lit hs.run hupc
  have hclk := h.line.clockHigh_at hs.run hupc (by decide)
  have hlat := h.line.latchLow_at hs.run hupc (by decide)
  have hrow := hs.rowField_eq.1 (h.line.rowAddress_at hs.run hupc (by decide))
  have hcolour := fun j hj => (h.coloured j hj).2 (by simp [hupc])
  have hcolor_only := colorOnly_iff.1 (hs.cells s.pc.cellAddr)
  obtain ⟨hoeclk, -, hclklat, hoerow, hclkrow, hlatrow, hoecol, hclkcol, hlatcol⟩ := Config.wf_control_distinct hs.wf
  have off : ∀ j, j ∉ s.cfg.colorLines → (s.fb.read s.pc.cellAddr).testBit j = false := fun j hj => by
    cases hbit : (s.fb.read s.pc.cellAddr).testBit j with
    | false => rfl
    | true => exact absurd (hcolor_only j hbit) hj
  apply Nat.eq_of_testBit_eq
  intro j
  simp only [Nat.testBit_and, Nat.testBit_or, testBit_engineMask, testBit_clkMask, testBit_rowbits]
  by_cases hj : j ∈ s.cfg.lines
  · rcases mem_lines.1 hj with rfl | rfl | rfl | hj' | hj'
    · simp [off _ hoecol, hoeclk, hoerow, ← State.level_eq, hoe]
    · simp [hj, ← State.level_eq, hclk]
    · simp [off _ hlatcol, hclklat.symm, hlatrow, ← State.level_eq, hlat]
    · obtain ⟨-, hne, -, hcol⟩ := row_distinct hs.wf hj'
      simp [hj, hj', hne, off j hcol, hrow j hj']
    · obtain ⟨-, hne, -, hrow'⟩ := color_distinct hs.wf hj'
      simp [hj, hne, hrow', ← hcolour j hj', State.level]
  · have hnot := mt mem_lines.2 hj
    simp only [not_or] at hnot
    obtain ⟨-, hne, -, hrow', hcol⟩ := hnot
    simp [hj, hne, hrow', off j hcol]

theorem State.Scanning.of_keeps (h : s.Scanning) (hk : s.EngineKeeps t) (hrun : t.run = .running)
    (hpos : t.pc.Ok s.cfg) : t.Scanning where
  wf := hk.cfg ▸ h.wf
  run := hrun
  pos := hk.cfg ▸ hpos
  cells a := by rw [hk.cfg, hk.fb]; exact h.cells a

/-- Where a plane ends, and in which run state (rule R197). -/
theorem effect_dwell (s : State) : effect .dwell s = { s with
    hist := s.hist ++ [dwellEvent s.cfg s.pc.plane]
    run := if s.pc.plane + 1 < s.cfg.P ∨ s.pc.row + 1 < s.cfg.R ∨ s.mode = .cont then s.run else .idle
    pc := if s.pc.plane + 1 < s.cfg.P then ⟨s.pc.row, s.pc.plane + 1, 0, Upc.COL_CLR⟩
      else if s.pc.row + 1 < s.cfg.R then ⟨s.pc.row + 1, 0, 0, Upc.ROWCHK⟩
      else ⟨0, 0, 0, Upc.ROWCHK⟩ } := afterPlane_eq _

/-- From any micro-operation of a plane through its dwell. -/
theorem run_plane (hs : s.Scanning) (h1 : 1 ≤ s.pc.upc.toNat)
    (hl : s.turns = List.replicate (toDwell s.cfg s.pc + 1) .engine ++ rest) :
    ∃ t : State, Host.Core.run Sys2Proof.core (toDwell s.cfg s.pc + 1) s = .next t ∧ s.EngineKeeps t ∧ t.turns = rest ∧
      t.hist = s.hist ++ planeRest s.cfg s.fb s.pc ∧
      t.run = (if s.pc.plane + 1 < s.cfg.P ∨ s.pc.row + 1 < s.cfg.R ∨ s.mode = .cont then .running else .idle) ∧
      t.pc = (if s.pc.plane + 1 < s.cfg.P then ⟨s.pc.row, s.pc.plane + 1, 0, Upc.COL_CLR⟩
        else if s.pc.row + 1 < s.cfg.R then ⟨s.pc.row + 1, 0, 0, Upc.ROWCHK⟩ else ⟨0, 0, 0, Upc.ROWCHK⟩) ∧
      (s.PlaneInv → t.Displays s.pc.row s.pc.plane) := by
  rw [List.replicate_succ', List.append_assoc] at hl
  obtain ⟨t, hrun, ht, hkeeps, hturns, hpc, hhist, hplane⟩ := run_to_dwell hs h1 rfl hl
  obtain ⟨hstep, hkeeps', hturns'⟩ := ht.step (i := .dwell) hturns (by rw [hpc]; rfl)
  have hrow : t.pc.row = s.pc.row := by rw [hpc]
  have hplane' : t.pc.plane = s.pc.plane := by rw [hpc]
  rw [effect_dwell] at hstep hkeeps' hturns'
  refine ⟨_, (run_add hrun).trans (run_succ hstep), hkeeps.trans hkeeps', hturns', ?_, ?_, ?_, fun h => ?_⟩
  · simp only [State.advance_hist, State.advance_cfg, State.advance_pc, hkeeps.cfg, hplane', hhist]
  · simp only [State.advance_cfg, State.advance_pc, State.advance_mode, State.advance_run, hkeeps.cfg, hkeeps.mode,
      hplane', hrow, ht.run]
  · simp only [State.advance_cfg, State.advance_pc, hkeeps.cfg, hplane', hrow]
  · have hpc' : t.pc = ⟨t.pc.row, t.pc.plane, t.cfg.C - 1, Upc.DWELL⟩ := by rw [hpc, hkeeps.cfg]
    obtain ⟨hlines, hlatched⟩ := (hplane h).displays ht hpc'
    rw [hrow, hplane'] at hlines hlatched
    exact ⟨hlines, hlatched⟩

/-! ### A row -/

/-- What a scan to the end of a row has done (rules R189, R197). -/
structure RowDone (s t : State) (events : List Event) (rest : List Agent) : Prop where
  keeps : s.EngineKeeps t
  turns : t.turns = rest
  hist : t.hist = s.hist ++ events
  run : t.run = if s.pc.row + 1 < s.cfg.R ∨ s.mode = .cont then .running else .idle
  pc : t.pc = if s.pc.row + 1 < s.cfg.R then ⟨s.pc.row + 1, 0, 0, Upc.ROWCHK⟩ else ⟨0, 0, 0, Upc.ROWCHK⟩

/-- A part of the row done before. -/
theorem RowDone.after {u : State} {events more : List Event} (h : RowDone t u more rest) (hk : s.EngineKeeps t)
    (hhist : t.hist = s.hist ++ events) (hrow : t.pc.row = s.pc.row) : RowDone s u (events ++ more) rest where
  keeps := hk.trans h.keeps
  turns := h.turns
  hist := by rw [h.hist, hhist, List.append_assoc]
  run := by simpa only [hk.cfg, hk.mode, hrow] using h.run
  pc := by simpa only [hk.cfg, hrow] using h.pc

theorem rowRestLength_eq {p : Pos} (h : p.Ok c) :
    rowRestLength c p = toDwell c p + 1 + (c.P - 1 - p.plane) * (6 * c.C + 7) := by
  have hupc := h.upc
  unfold rowRestLength toDwell
  split <;> omega

theorem toDwell_start (hC : 1 ≤ c.C) (r b : Nat) : toDwell c ⟨r, b, 0, Upc.COL_CLR⟩ = 6 * c.C + 6 := by
  simp [toDwell]; omega

/-- From its first micro-operation on a plane has all its events left (rule R120). -/
theorem planeRest_start (hC : 1 ≤ c.C) (fb : Memory) (r b : Nat) :
    planeRest c fb ⟨r, b, 0, Upc.COL_CLR⟩ = planeEvents c fb r b := by
  have hcols : List.range c.C = 0 :: (List.range c.C).drop 1 := by
    simpa using drop_range (n := c.C) (k := 0) hC
  rw [planeEvents, hcols]
  simp [planeRest, columnDone]

theorem rowRest_succ (hC : 1 ≤ c.C) (fb : Memory) {p : Pos} (hb : p.plane + 1 < c.P) :
    rowRest c fb p = planeRest c fb p ++ rowRest c fb ⟨p.row, p.plane + 1, 0, Upc.COL_CLR⟩ := by
  rw [rowRest_eq, rowRest_eq, planeRest_start hC, drop_range hb, List.flatMap_cons]

theorem rowRest_last (fb : Memory) {p : Pos} (hb : c.P ≤ p.plane + 1) : rowRest c fb p = planeRest c fb p := by
  rw [rowRest_eq, drop_range_self hb, List.flatMap_nil, List.append_nil]

/-- From any micro-operation of a row after its check to the row's end, plane by plane; what is displayed then is the
last plane (rules R189, R197). -/
theorem run_row_rest {d : Nat} (hs : s.Scanning) (h1 : 1 ≤ s.pc.upc.toNat) (hd : s.cfg.P - 1 - s.pc.plane = d)
    (hl : s.turns = List.replicate (rowRestLength s.cfg s.pc) .engine ++ rest) :
    ∃ t : State, Host.Core.run Sys2Proof.core (rowRestLength s.cfg s.pc) s = .next t ∧
      RowDone s t (rowRest s.cfg s.fb s.pc) rest ∧ (s.PlaneInv → t.Displays s.pc.row (s.cfg.P - 1)) := by
  have hC := Config.wf_C_pos hs.wf
  have hplane := hs.pos.plane
  rw [rowRestLength_eq hs.pos, hd] at hl ⊢
  induction d generalizing s with
  | zero =>
    rw [Nat.zero_mul, Nat.add_zero] at hl ⊢
    have hlast : ¬ s.pc.plane + 1 < s.cfg.P := by omega
    obtain ⟨t, hrun, hkeeps, hturns, hhist, hrunst, hpc, hdisplays⟩ := run_plane hs h1 hl
    simp only [hlast, false_or, if_false] at hrunst hpc
    rw [rowRest_last s.fb (by omega), show s.cfg.P - 1 = s.pc.plane by omega]
    exact ⟨t, hrun, ⟨hkeeps, hturns, hhist, hrunst, hpc⟩, hdisplays⟩
  | succ d ih =>
    have hnext : s.pc.plane + 1 < s.cfg.P := by omega
    rw [List.replicate_add, List.append_assoc] at hl
    obtain ⟨t, hrun, hkeeps, hturns, hhist, hrunst, hpc, -⟩ := run_plane hs h1 hl
    rw [if_pos (.inl hnext)] at hrunst
    rw [if_pos hnext] at hpc
    have ht := hs.of_keeps hkeeps hrunst (hpc ▸ colClr_ok hs.pos.row hnext hC)
    have hlength : (d + 1) * (6 * s.cfg.C + 7) =
        toDwell t.cfg t.pc + 1 + d * (6 * t.cfg.C + 7) := by
      rw [hkeeps.cfg, hpc, toDwell_start hC]; ring
    rw [hlength] at hturns ⊢
    obtain ⟨u, hrun', hdone, hdisplays⟩ := ih ht (by simp [hpc]) (by simp [hpc, hkeeps.cfg]; omega)
      hturns (hkeeps.cfg ▸ hC) ht.pos.plane
    have hstart : t.PlaneInv := planeInv_of_start (by rw [hpc]) (by rw [hpc])
    refine ⟨u, (run_add hrun).trans hrun', ?_, fun _ => ?_⟩
    · rw [rowRest_succ hC s.fb hnext]
      rw [hkeeps.cfg, hkeeps.fb, hpc] at hdone
      exact hdone.after hkeeps hhist (by rw [hpc])
    · simpa only [hkeeps.cfg, hpc] using hdisplays hstart

theorem rowRestLength_start (hwf : c.wf = true) {r : Nat} (hr : r < c.R) :
    rowRestLength c ⟨r, 0, 0, Upc.COL_CLR⟩ = c.P * (6 * c.C + 7) := by
  have hC := Config.wf_C_pos hwf
  have hP := (Config.wf_planes hwf).1
  obtain ⟨k, hk⟩ := Nat.exists_eq_add_of_le hP
  rw [rowRestLength_eq (colClr_ok hr hP hC), toDwell_start hC, hk, Nat.sub_zero, Nat.add_sub_cancel_left]
  ring

theorem rowRest_start (hwf : c.wf = true) (fb : Memory) (r : Nat) :
    rowRest c fb ⟨r, 0, 0, Upc.COL_CLR⟩ = (List.range c.P).flatMap (planeEvents c fb r) := by
  have hplanes : List.range c.P = 0 :: (List.range c.P).drop 1 := by
    simpa using drop_range (n := c.P) (k := 0) (Config.wf_planes hwf).1
  rw [rowRest_eq, planeRest_start (Config.wf_C_pos hwf), hplanes]
  simp

/-- In mode `ONESHOT` the row check samples no request (rule R183). -/
theorem effect_rowchk_of_oneshot (h : s.mode = .oneshot) : effect .rowchk s = s.goRow := by
  simp [effect, State.stopSampled, State.pauseSampled, h]

/-- A row from its check on, in mode `ONESHOT` (rules R183, R199). -/
theorem run_row (hs : s.Scanning) (hmode : s.mode = .oneshot) {r : Nat} (hpc : s.pc = ⟨r, 0, 0, Upc.ROWCHK⟩)
    (hl : s.turns = List.replicate (s.cfg.P * (6 * s.cfg.C + 7) + 1) .engine ++ rest) :
    ∃ t : State, Host.Core.run Sys2Proof.core (s.cfg.P * (6 * s.cfg.C + 7) + 1) s = .next t ∧
      RowDone s t (rowEvents s.cfg s.fb r) rest ∧ t.Displays r (s.cfg.P - 1) := by
  have hr : r < s.cfg.R := by simpa only [hpc] using hs.pos.row
  obtain ⟨hstep, hkeeps, hturns⟩ := hs.step (i := .rowchk)
    (l := List.replicate (s.cfg.P * (6 * s.cfg.C + 7)) Agent.engine ++ rest) hl (by rw [hpc]; rfl)
  rw [effect_rowchk_of_oneshot (s := s.advance) hmode] at hstep hkeeps hturns
  have hgo : s.advance.goRow.pc = ⟨r, 0, 0, Upc.COL_CLR⟩ := by simp [State.goRow, hpc]
  have hhist : s.advance.goRow.hist = s.hist ++ [.rowChk r .go] := by simp [State.goRow, hpc]
  have ht := hs.of_keeps hkeeps hs.run
    (hgo ▸ colClr_ok hr (Config.wf_planes hs.wf).1 (Config.wf_C_pos hs.wf))
  have hlength : rowRestLength s.advance.goRow.cfg s.advance.goRow.pc = s.cfg.P * (6 * s.cfg.C + 7) := by
    rw [hkeeps.cfg, hgo, rowRestLength_start hs.wf hr]
  obtain ⟨u, hrun, hdone, hdisplays⟩ := run_row_rest ht (by rw [hgo]; simp) rfl (hlength ▸ hturns)
  rw [hlength] at hrun
  refine ⟨u, (run_succ hstep).trans hrun, ?_, ?_⟩
  · rw [hkeeps.cfg, hkeeps.fb, hgo, rowRest_start hs.wf] at hdone
    exact hdone.after hkeeps hhist (by rw [hgo, hpc])
  · simpa only [hkeeps.cfg, hgo] using hdisplays (planeInv_of_start (by rw [hgo]) (by rw [hgo]))

/-! ### A pass -/

/-- The rows from `r` on in mode `ONESHOT`, one after the other to the end of the pass (rules R180, R197, R199). -/
theorem run_rows {k r : Nat} (hs : s.Scanning) (hmode : s.mode = .oneshot) (hpc : s.pc = ⟨r, 0, 0, Upc.ROWCHK⟩)
    (hk : s.cfg.R - r = k + 1)
    (hl : s.turns = List.replicate ((k + 1) * (s.cfg.P * (6 * s.cfg.C + 7) + 1)) .engine ++ rest) :
    ∃ t : State, Host.Core.run Sys2Proof.core ((k + 1) * (s.cfg.P * (6 * s.cfg.C + 7) + 1)) s = .next t ∧
      s.EngineKeeps t ∧ t.turns = rest ∧
      t.hist = s.hist ++ ((List.range s.cfg.R).drop r).flatMap (rowEvents s.cfg s.fb) ∧ t.run = .idle ∧
      t.pc = ⟨0, 0, 0, Upc.ROWCHK⟩ ∧ t.Displays (s.cfg.R - 1) (s.cfg.P - 1) := by
  induction k generalizing s r with
  | zero =>
    rw [Nat.zero_add, Nat.one_mul] at hl ⊢
    obtain ⟨t, hrun, hdone, hdisplays⟩ := run_row hs hmode hpc hl
    have hlast : ¬ s.pc.row + 1 < s.cfg.R := by simp only [hpc]; omega
    refine ⟨t, hrun, hdone.keeps, hdone.turns, ?_, ?_, ?_, ?_⟩
    · rw [hdone.hist, drop_range (by omega), drop_range_self (by omega), List.flatMap_singleton]
    · rw [hdone.run, if_neg (by simp [hlast, hmode])]
    · rw [hdone.pc, if_neg hlast]
    · rwa [show s.cfg.R - 1 = r by omega]
  | succ k ih =>
    rw [Nat.succ_mul, Nat.add_comm, List.replicate_add, List.append_assoc] at hl
    obtain ⟨t, hrun, hdone, -⟩ := run_row hs hmode hpc hl
    have hnext : s.pc.row + 1 < s.cfg.R := by simp only [hpc]; omega
    have hrunst : t.run = .running := by rw [hdone.run, if_pos (.inl hnext)]
    have htpc : t.pc = ⟨r + 1, 0, 0, Upc.ROWCHK⟩ := by rw [hdone.pc, if_pos hnext, hpc]
    have ht := hs.of_keeps hdone.keeps hrunst (htpc ▸ rowchk_ok hs.wf (by omega))
    have hcfg := hdone.keeps.cfg
    obtain ⟨u, hrun', hkeeps, hturns, hhist, hidle, hupc, hdisplays⟩ := ih ht (hdone.keeps.mode.trans hmode) htpc
      (by rw [hcfg]; omega) (by rw [hcfg]; exact hdone.turns)
    rw [hcfg] at hrun' hhist hdisplays
    refine ⟨u, ?_, hdone.keeps.trans hkeeps, hturns, ?_, hidle, hupc, hdisplays⟩
    · rw [Nat.succ_mul, Nat.add_comm, run_add hrun, hrun']
    · rw [hhist, hdone.hist, hdone.keeps.fb, drop_range (n := s.cfg.R) (k := r) (by omega), List.flatMap_cons,
        List.append_assoc]

/-- A pass in mode `ONESHOT` from its start to its end (rules R198, R199). -/
theorem run_pass (hs : s.Scanning) (hmode : s.mode = .oneshot) (hpc : s.pc = ⟨0, 0, 0, Upc.ROWCHK⟩)
    (hl : s.turns = List.replicate (passLength s.cfg) .engine ++ rest) :
    ∃ t : State, Host.Core.run Sys2Proof.core (passLength s.cfg) s = .next t ∧ s.EngineKeeps t ∧ t.turns = rest ∧
      t.hist = s.hist ++ passEvents s.cfg s.fb ∧ t.run = .idle ∧ t.pc = ⟨0, 0, 0, Upc.ROWCHK⟩ ∧
      t.Displays (s.cfg.R - 1) (s.cfg.P - 1) := by
  have hR := (Config.wf_rows hs.wf).1
  have hlength : passLength s.cfg = (s.cfg.R - 1 + 1) * (s.cfg.P * (6 * s.cfg.C + 7) + 1) := by
    rw [passLength, Nat.sub_add_cancel hR, Nat.add_comm 1]
  rw [hlength] at hl ⊢
  exact run_rows hs hmode hpc (by omega) hl

/-- A row is at most as long as one from its first micro-operation after the check (rule R183). -/
theorem rowRestLength_le {p : Pos} (h : p.Ok c) (h1 : 1 ≤ p.upc.toNat) :
    rowRestLength c p ≤ c.P * (6 * c.C + 7) := by
  have hdwell : toDwell c p + 1 ≤ 6 * c.C + 7 := by
    have hcol := h.col
    unfold toDwell
    split <;> omega
  obtain ⟨k, hk⟩ := Nat.exists_eq_add_of_le (Nat.succ_le_of_lt h.plane)
  have hleft : c.P - 1 - p.plane = k := by omega
  have hP : c.P = p.plane + (k + 1) := by omega
  rw [rowRestLength_eq h, hleft, hP, Nat.add_mul, Nat.succ_mul k]
  omega

theorem upc_pos_of_ne_rowchk {v : BitVec 4} (h : v ≠ Upc.ROWCHK) : 1 ≤ v.toNat := by
  by_contra h0
  exact h (BitVec.eq_of_toNat_eq (by simp; omega))

/-- A row check with a stop pending in mode `CONT` ends the scan (rules R183, R267). -/
theorem run_stop (hs : s.Scanning) (hmode : s.mode = .cont) (hstop : s.stopReq = true)
    (hupc : s.pc.upc = Upc.ROWCHK) (hl : s.turns = .engine :: l) :
    ∃ t : State, Host.Core.run Sys2Proof.core 1 s = .next t ∧ t.run = .idle ∧ t.pc = ⟨0, 0, 0, Upc.ROWCHK⟩ ∧
      t.paused = false ∧ t.stopReq = true ∧ t.fb = s.fb := by
  obtain ⟨hstep, -⟩ := hs.step (i := .rowchk) hl (by rw [hupc]; rfl)
  have hsampled : s.advance.stopSampled = true := stopSampled_iff.2 ⟨hmode, hstop⟩
  have htaken : effect .rowchk s.advance = s.advance.takeStop := by simp [effect, hsampled]
  rw [htaken] at hstep
  exact ⟨_, run_succ hstep, rfl, rfl, rfl, hstop, rfl⟩

/-- A paused engine with the pause pending uses up its turns and nothing else (rules R73, R183). -/
theorem run_paused {n : Nat} (hinv : s.Inv) (hpaused : s.paused = true) (hpause : s.pauseReq = true)
    (hstop : s.stopReq = false) (hl : s.turns = List.replicate n .engine) :
    Host.Core.run Sys2Proof.core n s = .next { s with turns := [], tick := s.tick + n } := by
  induction n generalizing s with
  | zero =>
    have hturns : s.turns = [] := hl
    rw [← hturns]
    rfl
  | succ n ih =>
    obtain ⟨hrun, hmode, hupc⟩ := hinv.paused hpaused
    have hs := hinv.scanning hrun
    obtain ⟨hstep, -⟩ := hs.step (i := .rowchk) (l := List.replicate n Agent.engine) hl (by rw [hupc]; rfl)
    have hheld : effect .rowchk s.advance = s.advance := by
      simp [effect, State.stopSampled, State.pauseSampled, hmode, hstop, hpause,
        State.takePause_of_paused (s := s.advance) hpaused]
    rw [hheld] at hstep
    rw [run_succ hstep, ih hinv.advance hpaused hpause hstop (congrArg List.tail hl)]
    simp [State.advance, Nat.add_assoc, Nat.add_comm 1]

/-! ### A dark panel -/

theorem sampleOf_zero : sampleOf c 0 = ⟨false, false, false, false, false, false⟩ := by simp [sampleOf]

/-- With the clock and the row alone high among the engine's lines the panel is unblanked (rule R246). -/
theorem oe_of_lines (hwf : c.wf = true) {w : Word} {r : Nat}
    (h : w &&& engineMask c = clkMask c ||| rowbits c r) : w.testBit c.oeBit = false := by
  obtain ⟨hclk, -, -, hrow, -⟩ := Config.wf_control_distinct hwf
  have hbit := congrArg (fun v : Nat => v.testBit c.oeBit) h
  simpa [testBit_engineMask, testBit_clkMask, testBit_rowbits, hclk, hrow, Config.lines] using hbit

/-- The LEDs of dark samples are dark (rule R84). -/
theorem dark_of_latched (hoe : s.level s.cfg.oeBit = false)
    (hdark : ∀ q ∈ s.panel.latched, q = ⟨false, false, false, false, false, false⟩) :
    ∀ led ∈ s.shown, led.r = false ∧ led.g = false ∧ led.b = false := by
  rw [shown_of_unblanked hoe]
  intro led hled
  obtain ⟨e, he, hled⟩ := List.mem_flatMap.1 hled
  have hq := hdark e.1 (List.fst_mem_of_mem_zipIdx he)
  simp only [ledsOfSample, hq, List.mem_cons, List.not_mem_nil, or_false] at hled
  rcases hled with rfl | rfl <;> exact ⟨rfl, rfl, rfl⟩

/-! ### The counts of a pass -/

/-- As many times the count of one, where all count alike. -/
theorem countP_flatMap_range {f : Nat → List Event} {p : Event → Bool} {m : Nat} (h : ∀ k, (f k).countP p = m)
    (n : Nat) : ((List.range n).flatMap f).countP p = n * m := by
  simp [List.countP_flatMap, Function.comp_def, h]

/-- The events of a pass of a kind that a row check is not of: `k` a column and `m` a tail (rule R198). -/
theorem countP_passEvents {p : Event → Bool} {fb : Memory} {k m : Nat}
    (hcolumn : ∀ r b n, (columnEvents c fb r b n).countP p = k) (htail : ∀ r b, (tailEvents c r b).countP p = m)
    (hrow : ∀ r, p (.rowChk r .go) = false) :
    (passEvents c fb).countP p = c.R * (c.P * (c.C * k + m)) := by
  refine countP_flatMap_range (fun r => ?_) c.R
  rw [rowEvents, List.countP_cons_of_neg (by simp [hrow])]
  refine countP_flatMap_range (fun b => ?_) c.P
  rw [planeEvents, List.countP_append, countP_flatMap_range (hcolumn r b), htail]

end Sys2Proof.Machine

namespace Sys2Proof

open Machine

/-- Settles O39: the run to the end of the row in flight, plane by plane. -/
theorem rowInFlightFinishes : Obligations.RowInFlightFinishes := by
  intro s rest hinv hrun hupc hl
  obtain ⟨t, hruns, hdone, -⟩ := run_row_rest (hinv.scanning hrun) (upc_pos_of_ne_rowchk hupc) rfl hl
  obtain ⟨hkeeps, hturns, hhist, hrunst, hpc⟩ := hdone
  exact ⟨t, hruns, hhist, hturns, hkeeps.fb, hkeeps.mode, hkeeps.stopReq, hkeeps.pauseReq, hrunst, hpc⟩

/-- Settles O40: the rows of a pass one after the other. -/
theorem onePassIsTheRepaintCycle : Obligations.OnePassIsTheRepaintCycle := by
  intro s rest hinv hrun hmode hpc hl
  obtain ⟨t, hruns, hkeeps, hturns, hhist, hidle, htpc, -⟩ := run_pass (hinv.scanning hrun) hmode hpc hl
  exact ⟨t, hruns, hhist, hidle, htpc, hkeeps.fb, hturns, hkeeps.outside⟩

/-- Settles O43: the pass needs nothing of the lines it starts from, and its last plane alone is on the engine's lines
at the end. -/
theorem passForgetsTheLinesItStartedFrom : Obligations.PassForgetsTheLinesItStartedFrom := by
  intro s w p rest hinv hrun hmode hpc hl
  have hs := hinv.scanning hrun
  have hs' : ({ s with out := w, panel := p } : State).Scanning := ⟨hs.wf, hs.run, hs.pos, hs.cells⟩
  obtain ⟨t, hrunt, hkt, -, hht, -, -, hdt⟩ := run_pass hs hmode hpc hl
  obtain ⟨u, hrunu, hku, -, hhu, -, -, hdu⟩ := run_pass hs' hmode hpc hl
  have hlt := hdt.lines
  have hlu := hdu.lines
  rw [hkt.cfg, hkt.fb] at hlt
  rw [hku.cfg, hku.fb] at hlu
  exact ⟨t, u, hrunt, hrunu, hhu.trans hht.symm, hlu.trans hlt.symm, hku.outside⟩

/-- Settles O42: an empty buffer's last plane has no colour line high, and its samples are dark. -/
theorem emptyPassLeavesThePanelDark : Obligations.EmptyPassLeavesThePanelDark := by
  intro s rest hinv hrun hmode hpc hempty hl
  have hs := hinv.scanning hrun
  obtain ⟨t, hruns, hkeeps, -, -, hidle, -, hdisplays⟩ := run_pass hs hmode hpc hl
  obtain ⟨hlines, hlatched⟩ := hdisplays
  rw [hkeeps.cfg, hkeeps.fb, hempty, Nat.zero_or] at hlines
  have hdark : t.panel.latched = List.replicate s.cfg.C ⟨false, false, false, false, false, false⟩ := by
    rw [hlatched, hkeeps.cfg, hkeeps.fb]
    simp [hempty, sampleOf_zero, List.map_const']
  have hoe : t.level t.cfg.oeBit = false := by
    rw [hkeeps.cfg]
    exact oe_of_lines hs.wf hlines
  obtain ⟨hlength, -, -⟩ := (panelShowsTheAddressedRow t).2 hoe
  refine ⟨t, hruns, hidle, hlines, hdark, by rw [hlength, hdark, List.length_replicate], fun led hled => ?_⟩
  exact dark_of_latched hoe (hdark ▸ fun q hq => List.eq_of_mem_replicate hq) led hled

/-- Settles O44: the row in flight ends within the bound, and the row check after it takes the stop. -/
theorem stopTakesEffectWithinARow : Obligations.StopTakesEffectWithinARow := by
  intro s rest hinv hrun hmode hstop hl
  have hs := hinv.scanning hrun
  by_cases hupc : s.pc.upc = Upc.ROWCHK
  · obtain ⟨t, hruns, hstopped⟩ := run_stop (l := List.replicate (s.cfg.P * (6 * s.cfg.C + 7)) Agent.engine ++ rest) hs
      hmode hstop hupc hl
    exact ⟨1, t, Nat.le_add_left _ _, hruns, hstopped⟩
  · have h1 := upc_pos_of_ne_rowchk hupc
    obtain ⟨k, hk⟩ := Nat.exists_eq_add_of_le (rowRestLength_le hs.pos h1)
    rw [hk, Nat.add_assoc, List.replicate_add, List.append_assoc] at hl
    obtain ⟨t, hruns, hdone, -⟩ := run_row_rest hs h1 rfl hl
    have hrunst : t.run = .running := by rw [hdone.run, if_pos (.inr hmode)]
    have htpc : t.pc.upc = Upc.ROWCHK ∧ t.pc.Ok s.cfg := by
      rw [hdone.pc]
      split
      · next hnext => exact ⟨rfl, rowchk_ok hs.wf hnext⟩
      · exact ⟨rfl, origin_ok hs.wf⟩
    have hkeeps := hdone.keeps
    obtain ⟨u, hruns', hidle, hpc, hpaused, hreq, hfb⟩ := run_stop (l := List.replicate k Agent.engine ++ rest)
      (hs.of_keeps hkeeps hrunst htpc.2) (hkeeps.mode.trans hmode) (hkeeps.stopReq.trans hstop) htpc.1 hdone.turns
    exact ⟨_, u, by omega, (run_add hruns).trans hruns', hidle, hpc, hpaused, hreq, hfb.trans hkeeps.fb⟩

/-- Settles O46: at its dwell the plane is displayed. -/
theorem planeTailLatchesThePlane : Obligations.PlaneTailLatchesThePlane := by
  intro s rest hinv hline hrun hupc hcol hl
  have hs := hinv.scanning hrun
  have hpos : s.pc = ⟨s.pc.row, s.pc.plane, 0, Upc.COL_CLR⟩ := by rw [← hupc, ← hcol]
  have hlength : toDwell s.cfg s.pc = 6 * s.cfg.C + 6 := by
    rw [hpos, toDwell_start (Config.wf_C_pos hs.wf)]
  obtain ⟨t, hruns, ht, hkeeps, -, hpc, -, hplane⟩ := run_to_dwell hs (by simp [hupc]) hlength hl
  have hdwell : t.pc.upc = Upc.DWELL := by rw [hpc]
  have hinplane := hplane (planeInv_of_start hupc hcol)
  have hlatched := hinplane.shiftedIn.2 (by simp [hdwell])
  have hrow := hinplane.line.rowAddress_at ht.run hdwell (by decide)
  have hoe := hinplane.line.lit ht.run hdwell
  have hsample : t.cellSample = fun k => sampleOf s.cfg (s.fb.read ⟨s.pc.plane, s.pc.row, k⟩) := by
    funext k
    simp only [State.cellSample, hkeeps.cfg, hkeeps.fb, hpc]
  rw [hsample] at hlatched
  simp only [hkeeps.cfg, hpc] at hlatched hrow hoe
  exact ⟨t, hruns, hdwell, hlatched, hrow, hoe⟩

/-- Settles O45: a turn of a paused engine finds the pause pending and taken; after `RESUME` the row check goes on. -/
theorem pausedEngineHoldsUntilResumed : Obligations.PausedEngineHoldsUntilResumed := by
  refine ⟨fun s n hinv hpaused hpause hstop hl => run_paused hinv hpaused hpause hstop hl,
    fun s t u hinv hpaused hstop ht hu => ?_⟩
  obtain ⟨hrun, hmode, hupc⟩ := hinv.paused hpaused
  obtain ⟨-, rfl⟩ := exec_next_iff.1 ht
  obtain ⟨-, rfl⟩ := exec_next_iff.1 hu
  have hgo : effect .rowchk (effect .resume s) = (effect .resume s).goRow := by
    simp [effect, State.stopSampled, State.pauseSampled, hstop]
  rw [hgo]
  exact ⟨rfl, hrun, rfl, rfl, rfl⟩

/-- Settles O41: the columns and the tails of a pass are counted plane by plane and row by row. -/
theorem countsOfAPass : Obligations.CountsOfAPass := by
  intro c fb
  simp only [← List.countP_eq_length_filter]
  refine ⟨?_, ?_, ?_⟩
  · rw [countP_passEvents (k := 3) (m := 6) (fun _ _ _ => rfl) (fun _ _ => rfl) (fun _ => rfl)]
    ring
  · rw [countP_passEvents (k := 2) (m := 0) (fun _ _ _ => rfl) (fun _ _ => rfl) (fun _ => rfl)]
    ring
  · rw [countP_passEvents (k := 3) (m := 1) (fun _ _ _ => rfl) (fun _ _ => rfl) (fun _ => rfl)]
    ring

end Sys2Proof
end
